-- ==== Sys2Proof/Word.lean ====
section
/-! DEFINITION. Word.lean: the words that travel on the ports (spec/30_encoding.md R60, R62), the channels of the
history space (spec/20_memory.md R40), and the type of the reals of spec/00_scope.md R6 and spec/40_numerics.md R80,
R81 (binary32 with one NaN). The arithmetic on reals is in Machine/Numerics.lean. -/

namespace Sys2Proof

/-- A 32-bit word: an operand lane, a result lane, a CSR, one history sample (R4 `XW`, R40). -/
abbrev Word := BitVec 32

/-- A 16-bit command word (R4 `CW`, R62). -/
abbrev CmdWord := BitVec 16

/-- One byte of the history space (R47). -/
abbrev Byte := BitVec 8

/-- One transaction of the command port: the command word and the four operand lanes (R60, R62). -/
structure Command where
  cw : CmdWord
  d0 : Word
  d1 : Word
  d2 : Word
  d3 : Word
deriving DecidableEq, Repr

/-- The two result lanes of one response (R60, R64). -/
structure Response where
  r0 : Word
  r1 : Word
deriving DecidableEq, Repr

/-- The two audio channels (R4 `N_CH`, R40). -/
inductive Channel where
  | ch0
  | ch1
deriving DecidableEq, Repr

/-- The channel's number (R40). -/
def Channel.num : Channel → Nat
  | .ch0 => 0
  | .ch1 => 1

/-- A real (R6, R80): NaN as ONE value (R81), an infinity of either sign, or a finite binary32 number given by its
sign, its exponent field `e` in 0 .. 254 and its fraction field `f`. Every term is a value of the format and every value
has one term. -/
inductive F32 where
  | nan
  | inf (neg : Bool)
  | fin (neg : Bool) (e : Fin 255) (f : BitVec 23)
deriving DecidableEq, Repr, Inhabited

/-- `+0.0` (R26). -/
def F32.zero : F32 := .fin false 0 0

/-- `1`, exponent field 127 (R80: bias 127). -/
def F32.one : F32 := .fin false 127 0

end Sys2Proof
end

