-- ==== Sys2Proof/Syntax.lean ====
section
/-! DEFINITION. Syntax.lean: the commands of spec/30_encoding.md R67, one constructor of `Instr` per row of
spec/opcode_table.json, with the enumerations of R66 and the CSR names of spec/10_state.md R25. A command carries the
operand lanes its rule names (R63); the lanes it does not name are not part of it. -/

namespace Sys2Proof

/-- Oscillator number (R66): osc1, osc2, osc3. -/
inductive OscId where
  | osc1
  | osc2
  | osc3
deriving DecidableEq, Repr

/-- Fader number (R66): `shift` 0, `amp` 1, `mix` 2. -/
inductive FadId where
  | shift
  | amp
  | mix
deriving DecidableEq, Repr

/-- Envelope phase, and the parameter id of `ENV.SETP` (R66). -/
inductive Phase where
  | attack
  | decay
  | sustain
  | release
deriving DecidableEq, Repr

/-- Fader shape of the envelope (R66). -/
inductive Shape where
  | linear
  | invSquare
  | squareRoot
  | quarterSine
deriving DecidableEq, Repr

/-- Waveform (R66). -/
inductive Waveform where
  | sine
  | triangle
  | square
deriving DecidableEq, Repr

/-- Routing mode of osc3 and osc2 (R66). -/
inductive RouteMode where
  | off
  | add
  | fm1
  | fm2
  | pm1
  | pm2
  | am1
  | am2
deriving DecidableEq, Repr

/-- Mode of osc1 (R66). -/
inductive Osc1Mode where
  | user
  | lfo
deriving DecidableEq, Repr

/-- The mapped registers of R25. There is no `OSC1_A` (0x15 is unmapped, spec/90_conflicts.md C8). -/
inductive Csr where
  | envStat
  | envT
  | envA
  | envD
  | envS
  | envR
  | oscStat (k : OscId)
  | oscFreq (k : OscId)
  | oscPhase (k : OscId)
  | oscShift (k : OscId)
  | oscF (k : OscId)
  | osc2A
  | osc3A
  | oscMode (k : OscId)
  | fadTarget (j : FadId)
  | fadStep (j : FadId)
  | fadValue (j : FadId)
  | rate
  | depth
  | semi
  | trem
  | drywet
  | bypass
  | bufofs
  | latency
  | evstat
  | evmask
  | fault
deriving DecidableEq, Repr

/-- The commands (R67). -/
inductive Instr where
  /-- `ENV.SETALL` (R108): attack, decay, sustain, release. -/
  | envSetall (d0 d1 d2 d3 : Word)
  /-- `ENV.SETP id` (R109): the new value. -/
  | envSetp (id : Phase) (d0 : Word)
  /-- `ENV.SETSHAPE s` (R110). -/
  | envSetshape (sh : Shape)
  /-- `ENV.START` (R104). -/
  | envStart
  /-- `ENV.RUN` (R106): dt. -/
  | envRun (d0 : Word)
  /-- `ENV.RELEASE` (R107). -/
  | envRelease
  /-- `ENV.STOP` (R111). -/
  | envStop
  /-- `ENV.GET` (R103). -/
  | envGet
  /-- `OSC.SETF k` (R121): f. -/
  | oscSetf (k : OscId) (d0 : Word)
  /-- `OSC.GETF k` (R122). -/
  | oscGetf (k : OscId)
  /-- `OSC.SETW k, w` (R123). -/
  | oscSetw (k : OscId) (w : Waveform)
  /-- `OSC.SETPS k` (R125): s. -/
  | oscSetps (k : OscId) (d0 : Word)
  /-- `OSC.GETPS k` (R124). -/
  | oscGetps (k : OscId)
  /-- `OSC.START k` (R126). -/
  | oscStart (k : OscId)
  /-- `OSC.STOP k` (R127). -/
  | oscStop (k : OscId)
  /-- `OSC.RUN k` (R129): dt. -/
  | oscRun (k : OscId) (d0 : Word)
  /-- `OSC.GETV k` (R132). -/
  | oscGetv (k : OscId)
  /-- `OSC.GETI k` (R134). -/
  | oscGeti (k : OscId)
  /-- `OSC.ISACT k` (R135). -/
  | oscIsact (k : OscId)
  /-- `FAD.SET j` (R142): target. -/
  | fadSet (j : FadId) (d0 : Word)
  /-- `FAD.SET2 j` (R143): target, step. -/
  | fadSet2 (j : FadId) (d0 d1 : Word)
  /-- `FAD.PROCEED j` (R144). -/
  | fadProceed (j : FadId)
  /-- `FAD.GET j` (R145). -/
  | fadGet (j : FadId)
  /-- `ENG.SAMPLE` (R150): the input samples of channels 0 and 1. -/
  | engSample (d0 d1 : Word)
  /-- `SYS.CSRR idx` (R180). -/
  | sysCsrr (r : Csr)
  /-- `SYS.CSRW idx` (R181): the value. -/
  | sysCsrw (r : Csr) (d0 : Word)
  /-- `SYS.EVCLR` (R182): the mask. -/
  | sysEvclr (d0 : Word)
deriving DecidableEq, Repr

end Sys2Proof
end

