-- ==== Sys2Proof/WellFormed.lean ====
section
/-! DEFINITION. WellFormed.lean: which terms of `Instr` are commands of the set. The instance numbers, enumeration codes
and CSR names are constructors, so the checks left are those of spec/30_encoding.md R68, R69 on `SYS.CSRW`: the register
is marked RW (spec/10_state.md R25), and a mode register is given a legal code (R19). -/

namespace Sys2Proof

/-- The registers marked RW in R25. -/
def Csr.writable : Csr → Bool
  | .oscF _ | .osc2A | .osc3A | .oscMode _ => true
  | .rate | .depth | .semi | .trem | .drywet | .bypass | .bufofs | .evmask => true
  | .envStat | .envT | .envA | .envD | .envS | .envR => false
  | .oscStat _ | .oscFreq _ | .oscPhase _ | .oscShift _ => false
  | .fadTarget _ | .fadStep _ | .fadValue _ => false
  | .latency | .evstat | .fault => false

/-- The values a `SYS.CSRW` may give a register (R19): a mode register takes its legal codes, compared as a whole
unsigned 32-bit number (R181); every other register takes any pattern. -/
def Csr.admits : Csr → Word → Bool
  | .oscMode .osc1, d => [0, 1].contains d.toNat
  | .oscMode .osc2, d => [0, 1, 2, 4, 6].contains d.toNat
  | .oscMode .osc3, d => [0, 1, 2, 3, 4, 5, 6, 7].contains d.toNat
  | _, _ => true

/-- The codes that are legal for `M[2]` (R18, R19): osc2 cannot modulate osc3 or itself. -/
def RouteMode.legalForOsc2 : RouteMode → Bool
  | .off | .add | .fm1 | .pm1 | .am1 => true
  | .fm2 | .pm2 | .am2 => false

/-- A command of the set (R68, R69). -/
def Instr.wellFormed : Instr → Bool
  | .sysCsrw r d0 => r.writable && r.admits d0
  | _ => true

end Sys2Proof
end

