-- ==== Sys2Proof/Decode.lean ====
section
/-! DEFINITION. Decode.lean: the decoder of spec/30_encoding.md R62, R67 to R69 (total on every command, refusing by
name), then the encoder from the same tables, and `decodeTableWord`, the decoder on a word numbered as
spec/opcode_table.json numbers it. Tests/Slice0.lean shows the decoding of every constructor on words written out from
R67. -/

namespace Sys2Proof

/-- Why a command is illegal (R69). Each reason leads to the same single fault ILL (R197 a). -/
inductive DecodeError where
  /-- `unit` 0 or 6 to 15. -/
  | reservedUnit
  /-- An `op` not listed for its unit. -/
  | reservedOp
  /-- A `sel` that names no instance, or is nonzero where it must be 0. -/
  | badSel
  /-- An `imm` that is no code of its enumeration, or is nonzero where it must be 0. -/
  | badImm
  /-- A CSR number not in the map of R25. -/
  | unmappedCsr
  /-- A `SYS.CSRW` to a read-only register. -/
  | readOnlyCsr
  /-- A `SYS.CSRW` of a code that is not legal for the mode register (R19). -/
  | illegalMode
deriving DecidableEq, Repr

/-- `unit`, bits 15:12 of a command word (R62). -/
def unitOf (cw : CmdWord) : Nat := (cw.extractLsb' 12 4).toNat

/-- `op`, bits 11:8 (R62). -/
def opOf (cw : CmdWord) : Nat := (cw.extractLsb' 8 4).toNat

/-- `sel`, bits 7:4 (R62). -/
def selOf (cw : CmdWord) : Nat := (cw.extractLsb' 4 4).toNat

/-- `imm`, bits 3:0 (R62). -/
def immOf (cw : CmdWord) : Nat := (cw.extractLsb' 0 4).toNat

/-- `idx`, bits 7:0 of format C (R62). -/
def idxOf (cw : CmdWord) : Nat := (cw.extractLsb' 0 8).toNat

/-- Oscillator number (R66): 0 and 4 to 15 are illegal (R68). -/
def OscId.ofCode : Nat → Option OscId
  | 1 => some .osc1
  | 2 => some .osc2
  | 3 => some .osc3
  | _ => none

/-- The oscillator's number (R66). -/
def OscId.code : OscId → Nat
  | .osc1 => 1
  | .osc2 => 2
  | .osc3 => 3

/-- Fader number (R66): 3 to 15 are illegal (R68). -/
def FadId.ofCode : Nat → Option FadId
  | 0 => some .shift
  | 1 => some .amp
  | 2 => some .mix
  | _ => none

/-- The fader's number (R66). -/
def FadId.code : FadId → Nat
  | .shift => 0
  | .amp => 1
  | .mix => 2

/-- Phase or parameter id (R66): 4 to 15 are illegal (R68). -/
def Phase.ofCode : Nat → Option Phase
  | 0 => some .attack
  | 1 => some .decay
  | 2 => some .sustain
  | 3 => some .release
  | _ => none

/-- The phase's code (R66). -/
def Phase.code : Phase → Nat
  | .attack => 0
  | .decay => 1
  | .sustain => 2
  | .release => 3

/-- Fader shape (R66): 4 to 15 are illegal (R68). -/
def Shape.ofCode : Nat → Option Shape
  | 0 => some .linear
  | 1 => some .invSquare
  | 2 => some .squareRoot
  | 3 => some .quarterSine
  | _ => none

/-- The shape's code (R66). -/
def Shape.code : Shape → Nat
  | .linear => 0
  | .invSquare => 1
  | .squareRoot => 2
  | .quarterSine => 3

/-- Waveform (R66): 3 to 15 are illegal (R68). -/
def Waveform.ofCode : Nat → Option Waveform
  | 0 => some .sine
  | 1 => some .triangle
  | 2 => some .square
  | _ => none

/-- The waveform's code (R66). -/
def Waveform.code : Waveform → Nat
  | .sine => 0
  | .triangle => 1
  | .square => 2

/-- Routing mode of osc3 and osc2 (R66). -/
def RouteMode.ofCode : Nat → Option RouteMode
  | 0 => some .off
  | 1 => some .add
  | 2 => some .fm1
  | 3 => some .fm2
  | 4 => some .pm1
  | 5 => some .pm2
  | 6 => some .am1
  | 7 => some .am2
  | _ => none

/-- The routing mode's code (R66). -/
def RouteMode.code : RouteMode → Nat
  | .off => 0
  | .add => 1
  | .fm1 => 2
  | .fm2 => 3
  | .pm1 => 4
  | .pm2 => 5
  | .am1 => 6
  | .am2 => 7

/-- Mode of osc1 (R66). -/
def Osc1Mode.ofCode : Nat → Option Osc1Mode
  | 0 => some .user
  | 1 => some .lfo
  | _ => none

/-- The code of osc1's mode (R66). -/
def Osc1Mode.code : Osc1Mode → Nat
  | .user => 0
  | .lfo => 1

/-- The seven register rows of one oscillator, by their offset from 0x10 k (R25). Offset 5 of osc1 is unmapped. -/
def oscCsrAt (k : OscId) : Nat → Option Csr
  | 0 => some (.oscStat k)
  | 1 => some (.oscFreq k)
  | 2 => some (.oscPhase k)
  | 3 => some (.oscShift k)
  | 4 => some (.oscF k)
  | 5 => match k with
    | .osc1 => none
    | .osc2 => some .osc2A
    | .osc3 => some .osc3A
  | 6 => some (.oscMode k)
  | _ => none

/-- The three register rows of one fader, by their offset from 0x40 + 4 j (R25). -/
def fadCsrAt (j : FadId) : Nat → Option Csr
  | 0 => some (.fadTarget j)
  | 1 => some (.fadStep j)
  | 2 => some (.fadValue j)
  | _ => none

/-- The rows 0x00 to 0x05 (R25). -/
def envCsrAt : Nat → Option Csr
  | 0 => some .envStat
  | 1 => some .envT
  | 2 => some .envA
  | 3 => some .envD
  | 4 => some .envS
  | 5 => some .envR
  | _ => none

/-- The rows 0x50 to 0x57 (R25). -/
def engCsrAt : Nat → Option Csr
  | 0 => some .rate
  | 1 => some .depth
  | 2 => some .semi
  | 3 => some .trem
  | 4 => some .drywet
  | 5 => some .bypass
  | 6 => some .bufofs
  | 7 => some .latency
  | _ => none

/-- The rows 0x60 to 0x62 (R25). -/
def sysCsrAt : Nat → Option Csr
  | 0 => some .evstat
  | 1 => some .evmask
  | 2 => some .fault
  | _ => none

/-- The register map of R25: the register of a CSR number, none where the number is unmapped. -/
def Csr.ofNum (idx : Nat) : Option Csr :=
  match idx / 16 with
  | 0 => envCsrAt (idx % 16)
  | 1 => oscCsrAt .osc1 (idx % 16)
  | 2 => oscCsrAt .osc2 (idx % 16)
  | 3 => oscCsrAt .osc3 (idx % 16)
  | 4 => match idx % 16 / 4 with
    | 0 => fadCsrAt .shift (idx % 4)
    | 1 => fadCsrAt .amp (idx % 4)
    | 2 => fadCsrAt .mix (idx % 4)
    | _ => none
  | 5 => engCsrAt (idx % 16)
  | 6 => sysCsrAt (idx % 16)
  | _ => none

/-- The number column of R25. -/
def Csr.num : Csr → Nat
  | .envStat => 0x00
  | .envT => 0x01
  | .envA => 0x02
  | .envD => 0x03
  | .envS => 0x04
  | .envR => 0x05
  | .oscStat k => 0x10 * k.code + 0
  | .oscFreq k => 0x10 * k.code + 1
  | .oscPhase k => 0x10 * k.code + 2
  | .oscShift k => 0x10 * k.code + 3
  | .oscF k => 0x10 * k.code + 4
  | .osc2A => 0x25
  | .osc3A => 0x35
  | .oscMode k => 0x10 * k.code + 6
  | .fadTarget j => 0x40 + 4 * j.code + 0
  | .fadStep j => 0x40 + 4 * j.code + 1
  | .fadValue j => 0x40 + 4 * j.code + 2
  | .rate => 0x50
  | .depth => 0x51
  | .semi => 0x52
  | .trem => 0x53
  | .drywet => 0x54
  | .bypass => 0x55
  | .bufofs => 0x56
  | .latency => 0x57
  | .evstat => 0x60
  | .evmask => 0x61
  | .fault => 0x62

/-- `sel` and `imm` must both be 0 (R68). -/
def plain (cw : CmdWord) (i : Instr) : Except DecodeError Instr :=
  if selOf cw ≠ 0 then .error .badSel
  else if immOf cw ≠ 0 then .error .badImm
  else .ok i

/-- `sel` is an oscillator number and `imm` must be 0 (R68). -/
def onOsc (cw : CmdWord) (i : OscId → Instr) : Except DecodeError Instr :=
  match OscId.ofCode (selOf cw) with
  | none => .error .badSel
  | some k => if immOf cw ≠ 0 then .error .badImm else .ok (i k)

/-- `sel` is a fader number and `imm` must be 0 (R68). -/
def onFad (cw : CmdWord) (i : FadId → Instr) : Except DecodeError Instr :=
  match FadId.ofCode (selOf cw) with
  | none => .error .badSel
  | some j => if immOf cw ≠ 0 then .error .badImm else .ok (i j)

/-- `sel` must be 0 and `imm` is a parameter id (R68). -/
def decodeSetp (c : Command) : Except DecodeError Instr :=
  if selOf c.cw ≠ 0 then .error .badSel
  else match Phase.ofCode (immOf c.cw) with
    | none => .error .badImm
    | some id => .ok (.envSetp id c.d0)

/-- `sel` must be 0 and `imm` is a shape (R68). -/
def decodeSetshape (c : Command) : Except DecodeError Instr :=
  if selOf c.cw ≠ 0 then .error .badSel
  else match Shape.ofCode (immOf c.cw) with
    | none => .error .badImm
    | some sh => .ok (.envSetshape sh)

/-- `sel` is an oscillator number and `imm` is a waveform (R68). -/
def decodeSetw (c : Command) : Except DecodeError Instr :=
  match OscId.ofCode (selOf c.cw) with
  | none => .error .badSel
  | some k => match Waveform.ofCode (immOf c.cw) with
    | none => .error .badImm
    | some w => .ok (.oscSetw k w)

/-- `idx` must be mapped (R68). -/
def decodeCsrr (c : Command) : Except DecodeError Instr :=
  match Csr.ofNum (idxOf c.cw) with
  | none => .error .unmappedCsr
  | some r => .ok (.sysCsrr r)

/-- `idx` must be mapped and marked RW, and `d0` legal for a mode register (R68, R69). -/
def decodeCsrw (c : Command) : Except DecodeError Instr :=
  match Csr.ofNum (idxOf c.cw) with
  | none => .error .unmappedCsr
  | some r =>
    if !r.writable then .error .readOnlyCsr
    else if !r.admits c.d0 then .error .illegalMode
    else .ok (.sysCsrw r c.d0)

/-- Unit 1, ENV: the rows 0x1000 to 0x1700 of R67. -/
def decodeEnv (c : Command) : Except DecodeError Instr :=
  match opOf c.cw with
  | 0 => plain c.cw (.envSetall c.d0 c.d1 c.d2 c.d3)
  | 1 => decodeSetp c
  | 2 => decodeSetshape c
  | 3 => plain c.cw .envStart
  | 4 => plain c.cw (.envRun c.d0)
  | 5 => plain c.cw .envRelease
  | 6 => plain c.cw .envStop
  | 7 => plain c.cw .envGet
  | _ => .error .reservedOp

/-- Unit 2, OSC: the rows 0x20k0 to 0x2Ak0 of R67. -/
def decodeOsc (c : Command) : Except DecodeError Instr :=
  match opOf c.cw with
  | 0 => onOsc c.cw (.oscSetf · c.d0)
  | 1 => onOsc c.cw .oscGetf
  | 2 => decodeSetw c
  | 3 => onOsc c.cw (.oscSetps · c.d0)
  | 4 => onOsc c.cw .oscGetps
  | 5 => onOsc c.cw .oscStart
  | 6 => onOsc c.cw .oscStop
  | 7 => onOsc c.cw (.oscRun · c.d0)
  | 8 => onOsc c.cw .oscGetv
  | 9 => onOsc c.cw .oscGeti
  | 10 => onOsc c.cw .oscIsact
  | _ => .error .reservedOp

/-- Unit 3, FAD: the rows 0x30j0 to 0x33j0 of R67. -/
def decodeFad (c : Command) : Except DecodeError Instr :=
  match opOf c.cw with
  | 0 => onFad c.cw (.fadSet · c.d0)
  | 1 => onFad c.cw (.fadSet2 · c.d0 c.d1)
  | 2 => onFad c.cw .fadProceed
  | 3 => onFad c.cw .fadGet
  | _ => .error .reservedOp

/-- Unit 4, ENG: the row 0x4000 of R67. -/
def decodeEng (c : Command) : Except DecodeError Instr :=
  match opOf c.cw with
  | 0 => plain c.cw (.engSample c.d0 c.d1)
  | _ => .error .reservedOp

/-- Unit 5, SYS: the rows 0x50xx, 0x51xx, 0x5200 of R67. -/
def decodeSys (c : Command) : Except DecodeError Instr :=
  match opOf c.cw with
  | 0 => decodeCsrr c
  | 1 => decodeCsrw c
  | 2 => plain c.cw (.sysEvclr c.d0)
  | _ => .error .reservedOp

/-- The decoder of R67: read `unit` and `op`, look the pair up, check `sel`, `imm` or `idx` against the row; anything that
fails is illegal (R69). -/
def decode (c : Command) : Except DecodeError Instr :=
  match unitOf c.cw with
  | 1 => decodeEnv c
  | 2 => decodeOsc c
  | 3 => decodeFad c
  | 4 => decodeEng c
  | 5 => decodeSys c
  | _ => .error .reservedUnit

/-- A command word from its four fields, format U (R62). -/
def formatU (unit op sel imm : Nat) : CmdWord :=
  BitVec.ofNat 4 unit ++ BitVec.ofNat 4 op ++ BitVec.ofNat 4 sel ++ BitVec.ofNat 4 imm

/-- A command word from its three fields, format C (R62). -/
def formatC (op idx : Nat) : CmdWord :=
  BitVec.ofNat 4 5 ++ BitVec.ofNat 4 op ++ BitVec.ofNat 8 idx

/-- The command word of R67 with no lane in use; a lane the command does not name is ignored (R63), the encoder puts 0
there (log entry 16). -/
def bare (cw : CmdWord) : Command := ⟨cw, 0, 0, 0, 0⟩

/-- The encoder: the command of R67 for an instruction. -/
def encode : Instr → Command
  | .envSetall d0 d1 d2 d3 => ⟨formatU 1 0 0 0, d0, d1, d2, d3⟩
  | .envSetp id d0 => ⟨formatU 1 1 0 id.code, d0, 0, 0, 0⟩
  | .envSetshape sh => bare (formatU 1 2 0 sh.code)
  | .envStart => bare (formatU 1 3 0 0)
  | .envRun d0 => ⟨formatU 1 4 0 0, d0, 0, 0, 0⟩
  | .envRelease => bare (formatU 1 5 0 0)
  | .envStop => bare (formatU 1 6 0 0)
  | .envGet => bare (formatU 1 7 0 0)
  | .oscSetf k d0 => ⟨formatU 2 0 k.code 0, d0, 0, 0, 0⟩
  | .oscGetf k => bare (formatU 2 1 k.code 0)
  | .oscSetw k w => bare (formatU 2 2 k.code w.code)
  | .oscSetps k d0 => ⟨formatU 2 3 k.code 0, d0, 0, 0, 0⟩
  | .oscGetps k => bare (formatU 2 4 k.code 0)
  | .oscStart k => bare (formatU 2 5 k.code 0)
  | .oscStop k => bare (formatU 2 6 k.code 0)
  | .oscRun k d0 => ⟨formatU 2 7 k.code 0, d0, 0, 0, 0⟩
  | .oscGetv k => bare (formatU 2 8 k.code 0)
  | .oscGeti k => bare (formatU 2 9 k.code 0)
  | .oscIsact k => bare (formatU 2 10 k.code 0)
  | .fadSet j d0 => ⟨formatU 3 0 j.code 0, d0, 0, 0, 0⟩
  | .fadSet2 j d0 d1 => ⟨formatU 3 1 j.code 0, d0, d1, 0, 0⟩
  | .fadProceed j => bare (formatU 3 2 j.code 0)
  | .fadGet j => bare (formatU 3 3 j.code 0)
  | .engSample d0 d1 => ⟨formatU 4 0 0 0, d0, d1, 0, 0⟩
  | .sysCsrr r => bare (formatC 0 r.num)
  | .sysCsrw r d0 => ⟨formatC 1 r.num, d0, 0, 0, 0⟩
  | .sysEvclr d0 => ⟨formatU 5 2 0 0, d0, 0, 0, 0⟩

/-- The longest command in bits: the command word and four lanes (R62). -/
def commandBits : Nat := 144

/-- The command whose bits are `w`, numbered as the opcode table numbers them: bits 15:0 the command word, then the lanes
`d0` to `d3` in order, 32 bits each; every bit at or above `nbits` is 0. -/
def commandOfBits (nbits w : Nat) : Command :=
  let b := BitVec.ofNat commandBits (w % 2 ^ nbits)
  ⟨b.extractLsb' 0 16, b.extractLsb' 16 32, b.extractLsb' 48 32, b.extractLsb' 80 32, b.extractLsb' 112 32⟩

/-- The instruction the decoder reads from an instruction whose bits are `w`; none where it refuses. -/
def decodeTableWord (nbits w : Nat) : Option Instr :=
  match decode (commandOfBits nbits w) with
  | .ok i => some i
  | .error _ => none

end Sys2Proof
end

