-- ==== Sys2Proof/Config.lean ====
section
/-! DEFINITION. Config.lean: what the spec leaves to the implementation (spec/93_implementation_defined.md U3, U4, U7,
U9). Each opaque constant has no body: nothing in Lean can evaluate it, so what is proved holds for every value of it.
The laws the spec keeps (sine and cosine, R88; `CAP >= 1`, R4; exponent and quiet bit of a NaN pattern, R64) are put on
them where they are used. -/

namespace Sys2Proof

/-- `CAP - 1`, the largest readable delay (R4, U7). A free value (log entry 5). -/
opaque Config.maxDelay : Nat

/-- `CAP`, the number of words per channel of the history space, at least 1 (R4, R41). -/
def Config.cap : Nat := Config.maxDelay + 1

/-- The unconstrained part of `NUM.sin` (R88, U9). A free value (log entry 4); `F32.sin` puts the laws on it. -/
opaque Config.sinRaw : F32 → F32

/-- The unconstrained part of `NUM.cos` (R88, U9). A free value (log entry 4); `F32.cos` puts the laws on it. -/
opaque Config.cosRaw : F32 → F32

/-- The sign and payload of the n-th NaN pattern that leaves the block (R64, R81, U4). A free value (log entry 3). -/
opaque Config.nanBits : Nat → Word

/-- What the byte at an address of the history space holds before any push has written it (R44, R46, U3). A free value
of the address, so that two reads agree (log entry 6). -/
opaque Config.powerOnByte : Nat → Byte

end Sys2Proof
end

