-- ==== Sys2Proof/Machine/Numerics.lean ====
section
/-! DEFINITION. Machine/Numerics.lean: the numerics record `NUM` of spec/40_numerics.md, R80 to R90. Every finite
binary32 number is a whole number of units of 2^-149, so each operation is computed exactly on integers and then rounded
once (R82, R90). -/

namespace Sys2Proof

/-- The magnitude of a finite number in units of 2^-149 (R80): `f` for a subnormal (`e = 0`), otherwise
`(2^23 + f) 2^(e-1)`. -/
def F32.mag (e : Fin 255) (f : BitVec 23) : Nat :=
  if e.val = 0 then f.toNat else (2 ^ 23 + f.toNat) * 2 ^ (e.val - 1)

/-- A whole number with a sign. -/
def signed (neg : Bool) (n : Nat) : Int := if neg then -(n : Int) else (n : Int)

/-- The value in units of 2^-149, exact for a finite number. An infinity stands beyond every finite number, which is all
that a comparison needs (R83); a NaN has no value and no user of this function passes one. -/
def F32.units : F32 → Int
  | .nan => 0
  | .inf neg => signed neg (2 ^ 300)
  | .fin neg e f => signed neg (F32.mag e f)

/-- The number `m 2^k` units of 2^-149 with its sign, where `m <= 2^24` and `m >= 2^23` unless `k = 0`; an infinity where
the exponent field would pass 254 (R80, R82: too large in magnitude). -/
def F32.pack (neg : Bool) (m k : Nat) : F32 :=
  if m < 2 ^ 23 then .fin neg 0 (BitVec.ofNat 23 m)
  else
    let e := if m = 2 ^ 24 then k + 2 else k + 1
    if h : e < 255 then .fin neg ⟨e, h⟩ (BitVec.ofNat 23 m) else .inf neg

/-- The exponent `k` of the last place kept when `n / d` units are rounded: 24 significant bits, and never below one unit
(gradual underflow, R82). -/
def lastPlace (n d : Nat) : Nat := (n / d).log2 - 23

/-- `n / u` rounded to the nearest whole number, ties to even (R82). -/
def nearestEven (n u : Nat) : Nat :=
  let q := n / u
  let r := n % u
  if 2 * r < u then q else if u < 2 * r then q + 1 else q + q % 2

/-- The exact magnitude `n / d` units of 2^-149, `d > 0`, rounded once to binary32, round to nearest, ties to even
(R82). -/
def F32.round (neg : Bool) (n d : Nat) : F32 :=
  let k := lastPlace n d
  F32.pack neg (nearestEven n (d * 2 ^ k)) k

/-- `-a` (R84): flips the sign bit; NaN for NaN. -/
def F32.neg : F32 → F32
  | .nan => .nan
  | .inf s => .inf (!s)
  | .fin s e f => .fin (!s) e f

/-- `abs(a)` (R84): clears the sign bit; NaN for NaN. -/
def F32.abs : F32 → F32
  | .nan => .nan
  | .inf _ => .inf false
  | .fin _ e f => .fin false e f

/-- `a + b` (R82). An exact sum of zero is `+0` unless both operands are negative. -/
def F32.add : F32 → F32 → F32
  | .nan, _ => .nan
  | .inf _, .nan => .nan
  | .fin _ _ _, .nan => .nan
  | .inf s, .inf t => if s = t then .inf s else .nan
  | .inf s, .fin _ _ _ => .inf s
  | .fin _ _ _, .inf t => .inf t
  | .fin s e f, .fin t e' f' =>
    let z := signed s (F32.mag e f) + signed t (F32.mag e' f')
    if z = 0 then .fin (s && t) 0 0 else F32.round (decide (z < 0)) z.natAbs 1

/-- `a - b` (R82). -/
def F32.sub (a b : F32) : F32 := a.add b.neg

/-- `a * b` (R82): `0 * Inf` is NaN; the sign is the product of the signs. -/
def F32.mul : F32 → F32 → F32
  | .nan, _ => .nan
  | .inf _, .nan => .nan
  | .fin _ _ _, .nan => .nan
  | .inf s, .inf t => .inf (s != t)
  | .inf s, .fin t e f => if F32.mag e f = 0 then .nan else .inf (s != t)
  | .fin s e f, .inf t => if F32.mag e f = 0 then .nan else .inf (s != t)
  | .fin s e f, .fin t e' f' => F32.round (s != t) (F32.mag e f * F32.mag e' f') (2 ^ 149)

/-- `a / b` (R82): `0 / 0` and `Inf / Inf` are NaN, a nonzero number divided by zero is an infinity. -/
def F32.div : F32 → F32 → F32
  | .nan, _ => .nan
  | .inf _, .nan => .nan
  | .fin _ _ _, .nan => .nan
  | .inf _, .inf _ => .nan
  | .inf s, .fin t _ _ => .inf (s != t)
  | .fin s _ _, .inf t => .fin (s != t) 0 0
  | .fin s e f, .fin t e' f' =>
    if F32.mag e' f' = 0 then (if F32.mag e f = 0 then .nan else .inf (s != t))
    else F32.round (s != t) (F32.mag e f * 2 ^ 149) (F32.mag e' f')

/-- The bits of the whole-number square root of `n`, from bit `i - 1` down, added to the root `r` found so far. -/
def isqrtFrom : Nat → Nat → Nat → Nat
  | 0, _, r => r
  | i + 1, n, r => if (r + 2 ^ i) * (r + 2 ^ i) ≤ n then isqrtFrom i n (r + 2 ^ i) else isqrtFrom i n r

/-- The largest whole number whose square is at most `n`. -/
def isqrt (n : Nat) : Nat := isqrtFrom (n.log2 / 2 + 1) n 0

/-- `sqrt(a)` (R82). The root of `a` in units is that of `mag 2^149`; twice its whole part, plus one where a remainder is
left, rounds as the exact root does, since the last place kept lies far above the unit. -/
def F32.sqrt : F32 → F32
  | .nan => .nan
  | .inf s => if s then .nan else .inf false
  | .fin s e f =>
    if F32.mag e f = 0 then .fin s e f
    else if s then .nan
    else
      let n := F32.mag e f * 2 ^ 149
      let r := isqrt n
      F32.round false (2 * r + (if r * r = n then 0 else 1)) 2

/-- `isnan(a)` (R83). -/
def F32.isNan : F32 → Bool
  | .nan => true
  | .inf _ => false
  | .fin _ _ _ => false

/-- `isfinite(a)` (R83): false for infinities and NaN. -/
def F32.isFinite : F32 → Bool
  | .nan => false
  | .inf _ => false
  | .fin _ _ _ => true

/-- No operand is NaN: the comparisons are false otherwise (R83). -/
def ordered (a b : F32) : Bool := !a.isNan && !b.isNan

/-- `a < b` (R83). -/
def F32.lt (a b : F32) : Bool := ordered a b && decide (a.units < b.units)

/-- `a <= b` (R83). -/
def F32.le (a b : F32) : Bool := ordered a b && decide (a.units ≤ b.units)

/-- `a > b` (R83). -/
def F32.gt (a b : F32) : Bool := b.lt a

/-- `a >= b` (R83). -/
def F32.ge (a b : F32) : Bool := b.le a

/-- `a == b` (R83): `-0 == +0`, and NaN equals nothing. -/
def F32.eq (a b : F32) : Bool := ordered a b && decide (a.units = b.units)

/-- `a != b` (R83): true whenever an operand is NaN. -/
def F32.ne (a b : F32) : Bool := !a.eq b

/-- `sgn(a)` (R84): `+1`, `-1`, `a` itself where it is a zero, NaN for NaN. -/
def F32.sgn (a : F32) : F32 :=
  if a.gt .zero then .one else if a.lt .zero then F32.one.neg else a

/-- `floor(a)` (R85): the largest integer not above `a`, exact; an infinity, a NaN and a zero are themselves. -/
def F32.floor : F32 → F32
  | .nan => .nan
  | .inf s => .inf s
  | .fin s e f =>
    let u := F32.mag e f
    if s then F32.round true ((u + (2 ^ 149 - 1)) / 2 ^ 149 * 2 ^ 149) 1
    else F32.round false (u / 2 ^ 149 * 2 ^ 149) 1

/-- `frac(a) = a - floor(a)` (R86). -/
def F32.frac (a : F32) : F32 := a.sub a.floor

/-- `wrap(a) = a - floor(a)` (R86), the same function where the spec writes "wrapped into [0,1)". -/
def F32.wrap (a : F32) : F32 := a.sub a.floor

/-- `trunc(a)` (R87): the unbounded integer with the fractional part discarded, for finite `a` only. -/
def F32.trunc : F32 → Option Int
  | .nan => none
  | .inf _ => none
  | .fin s e f => some (signed s (F32.mag e f / 2 ^ 149))

/-- A result of `sin` or `cos` for a finite operand lies in [-1, 1] (R88 law c): a free value inside that range stands,
any other becomes `+0`. -/
def inUnitRange (v : F32) : F32 := if F32.one.neg.le v && v.le F32.one then v else .zero

/-- `NUM.sin` (R88): laws a and b fix NaN, the infinities and the zeros, law c the range; the rest is free (U9). -/
def F32.sin : F32 → F32
  | .nan => .nan
  | .inf _ => .nan
  | .fin s e f =>
    if F32.mag e f = 0 then .fin s e f else inUnitRange (Config.sinRaw (.fin s e f))

/-- `NUM.cos` (R88), as `F32.sin`; `cos` of a zero is 1. -/
def F32.cos : F32 → F32
  | .nan => .nan
  | .inf _ => .nan
  | .fin s e f =>
    if F32.mag e f = 0 then .one else inUnitRange (Config.cosRaw (.fin s e f))

/-- `real(w)` (R6, R80, R81): the value of a 32-bit pattern; every NaN pattern is the one NaN. -/
def F32.ofBits (w : Word) : F32 :=
  let s := w.getLsbD 31
  let e := (w.extractLsb' 23 8).toNat
  let f := w.extractLsb' 0 23
  if h : e < 255 then .fin s ⟨e, h⟩ f else if f = 0 then .inf s else .nan

/-- Sign, exponent and fraction put together (R80). -/
def packBits (s : Bool) (e : Nat) (f : BitVec 23) : Word := BitVec.ofBool s ++ BitVec.ofNat 8 e ++ f

/-- The n-th NaN pattern that leaves the block: a quiet NaN (R64), its sign and payload free (U4). -/
def nanPattern (n : Nat) : Word := (Config.nanBits n &&& 0x803FFFFF) ||| 0x7FC00000

/-- `bits(v)` (R6, R64), the inverse of `real`; for NaN some quiet NaN, here the n-th free one. -/
def F32.bits (n : Nat) : F32 → Word
  | .nan => nanPattern n
  | .inf s => packBits s 255 0
  | .fin s e f => packBits s e.val f

/-- `0.25` (R6: exact in binary32). -/
def F32.quarter : F32 := .fin false 125 0

/-- `0.5`. -/
def F32.half : F32 := .fin false 126 0

/-- `0.75`. -/
def F32.threeQuarters : F32 := .fin false 126 0x400000

/-- `2`. -/
def F32.two : F32 := .fin false 128 0

/-- `4`. -/
def F32.four : F32 := .fin false 129 0

/-- `HALF_PI`, pattern `0x3FC90FDB` (R89). -/
def F32.halfPi : F32 := .fin false 127 0x490FDB

/-- `TWO_PI`, pattern `0x40C90FDB` (R89). -/
def F32.twoPi : F32 := .fin false 129 0x490FDB

end Sys2Proof
end

