-- ==== Sys2Proof/Machine/State.lean ====
section
/-! DEFINITION. Machine/State.lean: the architectural state of spec/10_state.md R10 (envelope R11, oscillators R13,
faders R16, engine registers R18, system registers R21), the history space of spec/20_memory.md R40, R41, the command
port of spec/30_encoding.md R60, R61, its value at reset (R26, spec/70_reset_and_hazards.md R210), and the reasons a step
can stop. -/

namespace Sys2Proof.Machine

/-- The Envelope's eight items (R11). -/
structure Env where
  active : Bool
  phase : Phase
  t : F32
  attack : F32
  decay : F32
  sustain : F32
  release : F32
  shape : Shape
deriving DecidableEq, Repr

/-- An oscillator's six items (R13). -/
structure Osc where
  waveform : Waveform
  sched : Waveform
  freq : F32
  phase : F32
  shift : F32
  active : Bool
deriving DecidableEq, Repr

/-- A declick fader's three reals (R16). -/
structure Fader where
  target : F32
  step : F32
  value : F32
deriving DecidableEq, Repr

/-- The engine configuration registers (R18): `F[k]`, `A[2]`, `A[3]`, `M[k]`, and the seven named reals. `LATENCY` is an
alias of `bufofs` (R20) and has no storage. -/
structure EngCfg where
  f1 : F32
  f2 : F32
  f3 : F32
  a2 : F32
  a3 : F32
  m1 : Osc1Mode
  m2 : RouteMode
  m3 : RouteMode
  rate : F32
  depth : F32
  semi : F32
  trem : F32
  drywet : F32
  bypass : F32
  bufofs : F32
deriving DecidableEq, Repr

/-- The history space in bytes (R40, R41, R47): a list of (address, byte) pairs. Byte `b` (0 is bits 7:0) of
`HIST[ch][i]` is at address `8 i + 4 ch + b` (log entry 7). An address that is not listed holds no written byte. -/
abbrev Memory := List Host.Cell

/-- The canonical form: addresses strictly rising. An unlisted address has no byte of its own, so no entry can repeat
what an unlisted address reads as; what the machine then reads is a free value (R46, log entry 6). -/
abbrev Memory.wf (m : Memory) : Prop := m.Pairwise fun c d => c.1 < d.1

/-- The state of the block and of its command port. -/
structure State where
  /-- Envelope (R11). -/
  env : Env
  /-- Oscillators 1, 2, 3 (R13). -/
  osc1 : Osc
  osc2 : Osc
  osc3 : Osc
  /-- Faders `shift` 0, `amp` 1, `mix` 2 (R16). -/
  fad0 : Fader
  fad1 : Fader
  fad2 : Fader
  /-- Engine configuration registers (R18). -/
  cfg : EngCfg
  /-- `EVSTAT` (R21): sticky event flags. -/
  evstat : Word
  /-- `EVMASK` (R21): interrupt enable per event. -/
  evmask : Word
  /-- `FAULT` (R21): bit 0 `ILL`, bit 1 `IDX`. -/
  fault : Word
  /-- `HIST` (R41). -/
  hist : Memory
  /-- `WR` (R41): 0 .. CAP - 1. -/
  wr : Nat
  /-- The commands accepted and not yet answered, oldest first (R61, R210; log entries 1, 14). -/
  accepted : List Command
  /-- The level of the input pin `rst` at the coming clock edge (R60, R210; log entry 2). -/
  rst : Bool
  /-- `rsp_valid` with `rsp_r0`, `rsp_r1`; none while `rsp_valid` is low (R60; log entry 8). -/
  rsp : Option Response
  /-- The MODEL's own field, not the spec's: how many free NaN patterns have been taken (U4; log entry 3). -/
  draws : Nat
deriving DecidableEq, Repr

/-- The reasons a step stops with a fault: there are none. The spec gives every command word in every state exactly one
successor state (spec/93_implementation_defined.md section 1, after U18); its own faults are recorded in `FAULT` and the machine goes on
(R190). Nothing raises a `Fault`, so this is neither safe nor unsafe (log entry 12). -/
inductive Fault where
deriving DecidableEq, Repr

/-- The reasons a step is refused. -/
inductive Refusal where
  /-- Raised by an arm of `exec` whose instruction has no meaning yet. Safe. No arm of this model raises it. -/
  | notModelled (mnemonic : String)
deriving DecidableEq, Repr

/-- The envelope at reset (R26). -/
def Env.reset : Env :=
  { active := false, phase := .attack, t := .zero, attack := .zero, decay := .zero, sustain := .zero,
    release := .zero, shape := .linear }

/-- An oscillator at reset (R26). -/
def Osc.reset : Osc :=
  { waveform := .sine, sched := .sine, freq := .zero, phase := .zero, shift := .zero, active := false }

/-- A fader at reset (R26). -/
def Fader.reset : Fader := { target := .zero, step := .zero, value := .zero }

/-- The engine registers at reset (R26). -/
def EngCfg.reset : EngCfg :=
  { f1 := .zero, f2 := .zero, f3 := .zero, a2 := .zero, a3 := .zero, m1 := .user, m2 := .off, m3 := .off,
    rate := .zero, depth := .zero, semi := .zero, trem := .zero, drywet := .zero, bypass := .zero, bufofs := .zero }

/-- The machine right after reset (R26, R210): every register bit zero, `WR` 0, nothing accepted, `rsp_valid` low. No
history byte is listed: the contents are unspecified (R46; log entry 17). The pin `rst` is low again and `draws` is 0
(log entries 2, 3). -/
def State.reset : State :=
  { env := Env.reset
    osc1 := Osc.reset
    osc2 := Osc.reset
    osc3 := Osc.reset
    fad0 := Fader.reset
    fad1 := Fader.reset
    fad2 := Fader.reset
    cfg := EngCfg.reset
    evstat := 0
    evmask := 0
    fault := 0
    hist := []
    wr := 0
    accepted := []
    rst := false
    rsp := none
    draws := 0 }

end Sys2Proof.Machine
end

