-- ==== Sys2Proof/Machine/Operands.lean ====
section
/-! DEFINITION. Machine/Operands.lean: the operand and result lanes of spec/30_encoding.md R63 to R65, and the access to
the instance that `sel` selects (R62). -/

namespace Sys2Proof.Machine

/-- A lane read as a real (R63): every pattern is accepted, none is validated. -/
def laneReal (d : Word) : F32 := F32.ofBits d

/-- A lane read as an integer: an unsigned 32-bit number (R63). -/
def laneNat (d : Word) : Nat := d.toNat

/-- `zext_32` of a flag (R5). -/
def flagWord (b : Bool) : Word := if b then 1 else 0

/-- `zext_32` of an enumeration code (R5, R25). -/
def codeWord (n : Nat) : Word := BitVec.ofNat 32 n

/-- What a CSR holds: a real, transferred as its bit pattern, or a word (R25). -/
inductive CsrValue where
  | real (v : F32)
  | word (w : Word)
deriving DecidableEq, Repr

/-- `osc[k]` (R13). -/
def State.osc (s : State) : OscId → Osc
  | .osc1 => s.osc1
  | .osc2 => s.osc2
  | .osc3 => s.osc3

/-- `osc[k] <- o` (R13). -/
def State.setOsc (s : State) (k : OscId) (o : Osc) : State :=
  match k with
  | .osc1 => { s with osc1 := o }
  | .osc2 => { s with osc2 := o }
  | .osc3 => { s with osc3 := o }

/-- `fad[j]` (R16). -/
def State.fad (s : State) : FadId → Fader
  | .shift => s.fad0
  | .amp => s.fad1
  | .mix => s.fad2

/-- `fad[j] <- f` (R16). -/
def State.setFad (s : State) (j : FadId) (f : Fader) : State :=
  match j with
  | .shift => { s with fad0 := f }
  | .amp => { s with fad1 := f }
  | .mix => { s with fad2 := f }

/-- `env <- e` (R11). -/
def State.setEnv (s : State) (e : Env) : State := { s with env := e }

/-- `F[k]` (R18). -/
def State.baseFreq (s : State) : OscId → F32
  | .osc1 => s.cfg.f1
  | .osc2 => s.cfg.f2
  | .osc3 => s.cfg.f3

/-- `F[k] <- v` (R18). -/
def EngCfg.setBaseFreq (g : EngCfg) (k : OscId) (v : F32) : EngCfg :=
  match k with
  | .osc1 => { g with f1 := v }
  | .osc2 => { g with f2 := v }
  | .osc3 => { g with f3 := v }

/-- The code of `M[k]` (R18, R66). -/
def EngCfg.modeCode (g : EngCfg) : OscId → Nat
  | .osc1 => g.m1.code
  | .osc2 => g.m2.code
  | .osc3 => g.m3.code

/-- `M[k] <- d0` for a code that is an element of the register's enumeration (R19, R66); none for any other number. -/
def EngCfg.setMode (g : EngCfg) (k : OscId) (n : Nat) : Option EngCfg :=
  match k with
  | .osc1 => (Osc1Mode.ofCode n).map fun m => { g with m1 := m }
  | .osc2 => (RouteMode.ofCode n).map fun m => { g with m2 := m }
  | .osc3 => (RouteMode.ofCode n).map fun m => { g with m3 := m }

/-- The response with both lanes given (R64). -/
def respond (r0 r1 : Word) (s : State) : State := { s with rsp := some ⟨r0, r1⟩ }

/-- The response of a command whose rule assigns no lane: zeros (R64). -/
def respondNone (s : State) : State := respond 0 0 s

/-- The response of a command whose rule assigns `r0` a word (R64). -/
def respondWord (w : Word) (s : State) : State := respond w 0 s

/-- `r0 <- bits(v)` (R64). A NaN leaves as the next free pattern (log entry 3). -/
def respondReal (v : F32) (s : State) : State :=
  { s with rsp := some ⟨v.bits s.draws, 0⟩, draws := s.draws + 1 }

/-- `r0 <- bits(v)`, `r1 <- bits(w)` (R64); each NaN takes a free pattern of its own. -/
def respondReals (v w : F32) (s : State) : State :=
  { s with rsp := some ⟨v.bits s.draws, w.bits (s.draws + 1)⟩, draws := s.draws + 2 }

/-- `r0 <- csr` (R25, R180): a real as its pattern, a word as it is. -/
def respondCsr (v : CsrValue) (s : State) : State :=
  match v with
  | .real x => respondReal x s
  | .word w => respondWord w s

end Sys2Proof.Machine
end

