-- ==== Sys2Proof/Machine/Flags.lean ====
section
/-! DEFINITION. Machine/Flags.lean: the event flags (spec/10_state.md R21, spec/60_exceptions.md R193 to R196), the fault
flags (R190, R191), and the status words of the CSR map (R25). The block has no condition codes (R22). -/

namespace Sys2Proof.Machine

/-- The twelve events (R21). -/
inductive Event where
  | envStart
  | envPhase
  | envStop
  | oscStart (k : OscId)
  | oscRestart (k : OscId)
  | oscStop (k : OscId)
deriving DecidableEq, Repr

/-- The bit of `EVSTAT` (R21, R194, R195): 0, 1, 2, then `3k`, `3k+1`, `3k+2`. -/
def Event.bit : Event → Nat
  | .envStart => 0
  | .envPhase => 1
  | .envStop => 2
  | .oscStart k => 3 * k.code
  | .oscRestart k => 3 * k.code + 1
  | .oscStop k => 3 * k.code + 2

/-- The two faults (R191). -/
inductive FaultFlag where
  | ill
  | idx
deriving DecidableEq, Repr

/-- The bit of `FAULT` (R21, R191). -/
def FaultFlag.bit : FaultFlag → Nat
  | .ill => 0
  | .idx => 1

/-- A word with one bit set. -/
def oneBit (n : Nat) : Word := 1#32 <<< n

/-- `set_ev(NAME)` (R193): the bit becomes 1 and stays. -/
def setEv (e : Event) (s : State) : State := { s with evstat := s.evstat ||| oneBit e.bit }

/-- `EVSTAT <- EVSTAT AND NOT mask` (R182). -/
def clearEv (mask : Word) (s : State) : State := { s with evstat := s.evstat &&& ~~~mask }

/-- The bits of `EVSTAT` and `EVMASK` that exist (R21: 11:0). -/
def eventBits : Word := 0x00000FFF

/-- `EVMASK <- d0 AND 0x00000FFF` (R181). -/
def setEvmask (d : Word) (s : State) : State := { s with evmask := d &&& eventBits }

/-- `fault NAME` (R190), the one shared operation in the place of an exception entry: the sticky bit is set and nothing
else happens. There is no trap, so nothing is saved and there is no return (R198, R200). -/
def raiseFault (b : FaultFlag) (s : State) : State := { s with fault := s.fault ||| oneBit b.bit }

/-- The output `irq` (R196). -/
def State.irq (s : State) : Bool := (s.evstat &&& s.evmask) != 0

/-- The output `latency` (R20): the value of `BUFOFS` as a pattern; a NaN shows as some free pattern (log entry 20). -/
def State.latencyPort (s : State) : Word := s.cfg.bufofs.bits s.draws

/-- `ENV_STAT` (R25, R180). -/
def envStatWord (e : Env) : Word :=
  flagWord e.active ||| (codeWord e.phase.code <<< 1) ||| (codeWord e.shape.code <<< 4)

/-- `OSCk_STAT` (R25, R180). -/
def oscStatWord (o : Osc) : Word :=
  flagWord o.active ||| (codeWord o.waveform.code <<< 1) ||| (codeWord o.sched.code <<< 3)

end Sys2Proof.Machine
end

