-- ==== Sys2Proof/Machine/Ops.lean ====
section
/-! DEFINITION. Machine/Ops.lean: the named operations over memory, registers and the command port: the history space of
spec/20_memory.md (R42, R43), the register map of spec/10_state.md R25, the illegal command (spec/30_encoding.md R70), the
reset edge (spec/70_reset_and_hazards.md R210) and the host's acts (spec/60_exceptions.md R207). -/

namespace Sys2Proof.Machine

/-- The byte listed at an address, none where no push has written it (R46). -/
def Memory.byteAt : Memory → Nat → Option Byte
  | [], _ => none
  | c :: m, a => if c.1 = a then some c.2 else Memory.byteAt m a

/-- Store one byte, keeping the addresses strictly rising. -/
def Memory.put : Memory → Nat → Byte → Memory
  | [], a, v => [(a, v)]
  | c :: m, a, v =>
    if a < c.1 then (a, v) :: c :: m
    else if a = c.1 then (a, v) :: m
    else c :: Memory.put m a v

/-- What a read of one byte gives: the byte written, or the free value of an unwritten one (R44, R46, U3). -/
def Memory.read (m : Memory) (a : Nat) : Byte := (Memory.byteAt m a).getD (Config.powerOnByte a)

/-- Store a word, the byte of bits 7:0 at the lowest address (R47). -/
def Memory.putWord (m : Memory) (a : Nat) (w : Word) : Memory :=
  Memory.put (Memory.put (Memory.put (Memory.put m a (w.extractLsb' 0 8)) (a + 1) (w.extractLsb' 8 8))
    (a + 2) (w.extractLsb' 16 8)) (a + 3) (w.extractLsb' 24 8)

/-- Read a word (R47). -/
def Memory.readWord (m : Memory) (a : Nat) : Word :=
  Memory.read m (a + 3) ++ Memory.read m (a + 2) ++ Memory.read m (a + 1) ++ Memory.read m a

/-- The address of the lowest byte of `HIST[ch][i]` (R41, R47; log entry 7). -/
def histAddr (c : Channel) (i : Nat) : Nat := 8 * i + 4 * c.num

/-- `HistPush(v0, v1)` (R42), for a history of `cap` words per channel. -/
def histPush (cap : Nat) (v0 v1 : Word) (s : State) : State :=
  { s with
    hist := Memory.putWord (Memory.putWord s.hist (histAddr .ch0 s.wr) v0) (histAddr .ch1 s.wr) v1
    wr := (s.wr + 1) % cap }

/-- The slot of delay `n`, `(WR - 1 - n) mod CAP` (R43); `n <= CAP - 1` makes the subtraction one of naturals. -/
def histSlot (cap wr n : Nat) : Nat := (wr + (cap - 1 - n)) % cap

/-- `HistRead(ch, n)` (R43), for `0 <= n <= CAP - 1`. A read changes nothing. -/
def histRead (cap : Nat) (c : Channel) (n : Nat) (s : State) : Word :=
  Memory.readWord s.hist (histAddr c (histSlot cap s.wr n))

/-- `csr[idx]` (R25, R180). -/
def csrRead (r : Csr) (s : State) : CsrValue :=
  match r with
  | .envStat => .word (envStatWord s.env)
  | .envT => .real s.env.t
  | .envA => .real s.env.attack
  | .envD => .real s.env.decay
  | .envS => .real s.env.sustain
  | .envR => .real s.env.release
  | .oscStat k => .word (oscStatWord (s.osc k))
  | .oscFreq k => .real (s.osc k).freq
  | .oscPhase k => .real (s.osc k).phase
  | .oscShift k => .real (s.osc k).shift
  | .oscF k => .real (s.baseFreq k)
  | .osc2A => .real s.cfg.a2
  | .osc3A => .real s.cfg.a3
  | .oscMode k => .word (codeWord (s.cfg.modeCode k))
  | .fadTarget j => .real (s.fad j).target
  | .fadStep j => .real (s.fad j).step
  | .fadValue j => .real (s.fad j).value
  | .rate => .real s.cfg.rate
  | .depth => .real s.cfg.depth
  | .semi => .real s.cfg.semi
  | .trem => .real s.cfg.trem
  | .drywet => .real s.cfg.drywet
  | .bypass => .real s.cfg.bypass
  | .bufofs => .real s.cfg.bufofs
  | .latency => .real s.cfg.bufofs
  | .evstat => .word s.evstat
  | .evmask => .word s.evmask
  | .fault => .word s.fault

/-- The engine registers after `SYS.CSRW` of a real register or a mode register (R181); none where the write is illegal or
the register is not one of them. -/
def cfgWrite (r : Csr) (d : Word) (g : EngCfg) : Option EngCfg :=
  match r with
  | .oscF k => some (g.setBaseFreq k (laneReal d))
  | .osc2A => some { g with a2 := laneReal d }
  | .osc3A => some { g with a3 := laneReal d }
  | .oscMode k => if r.admits d then g.setMode k (laneNat d) else none
  | .rate => some { g with rate := laneReal d }
  | .depth => some { g with depth := laneReal d }
  | .semi => some { g with semi := laneReal d }
  | .trem => some { g with trem := laneReal d }
  | .drywet => some { g with drywet := laneReal d }
  | .bypass => some { g with bypass := laneReal d }
  | .bufofs => some { g with bufofs := laneReal d }
  | .envStat | .envT | .envA | .envD | .envS | .envR => none
  | .oscStat _ | .oscFreq _ | .oscPhase _ | .oscShift _ => none
  | .fadTarget _ | .fadStep _ | .fadValue _ => none
  | .latency | .evstat | .evmask | .fault => none

/-- An illegal command (R70): `fault ILL`, both lanes 0, and nothing else. -/
def illegal (s : State) : State := respondNone (raiseFault .ill s)

/-- `csr[idx] <- d0` (R181): the register written, or the illegal command where it is read-only or the code is not legal.
`EVMASK` is the only writable register outside the engine registers. -/
def csrWrite (r : Csr) (d : Word) (s : State) : State :=
  if r = .evmask then respondNone (setEvmask d s)
  else match cfgWrite r d s.cfg with
    | some g => respondNone { s with cfg := g }
    | none => illegal s

/-- A clock edge with `rst` high (R210): every register takes its reset value, `WR` becomes 0, accepted commands are
dropped unanswered, `rsp_valid` is low. The history contents are not changed; the pin keeps its level, which is the
host's. -/
def resetEdge (s : State) : State :=
  { State.reset with hist := s.hist, rst := s.rst, draws := s.draws }

/-- An edge at which no command completes: the block holds its state (R206), `rsp_valid` is low (R60). -/
def idleEdge (s : State) : State := { s with rsp := none }

/-- Take the oldest accepted command off the port (R61). -/
def takeCommand (rest : List Command) (s : State) : State := { s with accepted := rest }

/-- The host presents a command and holds it until it is taken (R61): it is accepted unless `rst` is high (R210). -/
def hostPresent (c : Command) (s : State) : State :=
  if s.rst then s else { s with accepted := s.accepted ++ [c] }

/-- The host drives the pin `rst` (R60, R207). -/
def hostRst (level : Bool) (s : State) : State := { s with rst := level }

/-- Put a command where the next step takes it from: the oldest place of the queue, with `rst` low. -/
def placeCommand (c : Command) (s : State) : State :=
  { s with accepted := c :: s.accepted.tail, rst := false }

end Sys2Proof.Machine
end

