-- ==== Sys2Proof/Machine/Envelope.lean ====
section
/-! DEFINITION. Machine/Envelope.lean: the ENV command family of spec/41_envelope.md, R100 to R113: the shared
sub-operations `env_value`, `shape` and `env_run`, then one meaning per command. -/

namespace Sys2Proof.Machine

/-- The outcome of a step of this model. -/
abbrev Result := Host.Outcome State Fault Refusal

/-- `dur(p)` of the current phase (R11); SUSTAIN has no duration. -/
def Env.dur (e : Env) : Option F32 :=
  match e.phase with
  | .attack => some e.attack
  | .decay => some e.decay
  | .sustain => none
  | .release => some e.release

/-- `shape(s, x)` (R102). -/
def shapeCurve (sh : Shape) (x : F32) : F32 :=
  match sh with
  | .linear => x
  | .invSquare => F32.one.sub ((F32.one.sub x).mul (F32.one.sub x))
  | .squareRoot => x.abs.sqrt
  | .quarterSine => (F32.halfPi.mul x).sin

/-- The value a timed phase starts from (R101). -/
def Env.startLevel (e : Env) : F32 :=
  match e.phase with
  | .attack => .zero
  | .decay => .one
  | .sustain => e.sustain
  | .release => e.sustain

/-- The value a timed phase goes to (R101). -/
def Env.endLevel (e : Env) : F32 :=
  match e.phase with
  | .attack => .one
  | .decay => e.sustain
  | .sustain => e.sustain
  | .release => .zero

/-- `env_value()` (R101). -/
def envValue (e : Env) : F32 :=
  if !e.active then .zero
  else match e.dur with
    | none => e.sustain
    | some d => e.startLevel.add ((e.endLevel.sub e.startLevel).mul (shapeCurve e.shape (e.t.div d)))

/-- `next(p)` (R100): ATTACK to DECAY, DECAY to SUSTAIN. The loop of R105 asks for no other. -/
def nextPhase : Phase → Phase
  | .attack => .decay
  | .decay => .sustain
  | .sustain => .sustain
  | .release => .release

/-- The `while` loop of `env_run` (R105), at most `fuel` turns of it. Three suffice: the phase only moves forward and
stops at SUSTAIN or at deactivation. -/
def envLoop : Nat → State → State
  | 0, s => s
  | fuel + 1, s =>
    match s.env.dur with
    | none => s
    | some d =>
      if !s.env.t.ge d then s
      else if s.env.phase = .release then
        setEv .envStop (s.setEnv { s.env with active := false })
      else
        envLoop fuel (setEv .envPhase
          (s.setEnv { s.env with t := s.env.t.sub d, phase := nextPhase s.env.phase }))

/-- `env_run(dt)` (R105). -/
def envRun (dt : F32) (s : State) : State :=
  if !s.env.active then s
  else envLoop 3 (s.setEnv { s.env with t := s.env.t.add dt })

/-- The parameter of `ENV.SETP id` replaced (R109). -/
def Env.setParam (e : Env) (id : Phase) (v : F32) : Env :=
  match id with
  | .attack => { e with attack := v }
  | .decay => { e with decay := v }
  | .sustain => { e with sustain := v }
  | .release => { e with release := v }

/-- The rescale of `ENV.SETP` (R109), `cur` the value before the edit: only for the phase that is active now, skipped in
DECAY where `sustain` is 1 and in RELEASE where it is 0. -/
def Env.rescale (e : Env) (id : Phase) (v cur : F32) : Env :=
  if !(e.active && id = e.phase) then e
  else match id with
    | .attack => { e with t := v.mul cur }
    | .decay =>
      if e.sustain.ne .one then { e with t := (v.mul (F32.one.sub cur)).div (F32.one.sub e.sustain) } else e
    | .sustain => e
    | .release =>
      if e.sustain.ne .zero then { e with t := (v.mul (e.sustain.sub cur)).div e.sustain } else e

/-- `ENV.SETALL` (R108). -/
def execEnvSetall (d0 d1 d2 d3 : Word) (s : State) : Result :=
  .next (respondNone (envRun .zero (s.setEnv
    { s.env with
      attack := laneReal d0, decay := laneReal d1, sustain := laneReal d2, release := laneReal d3 })))

/-- `ENV.SETP id` (R109). -/
def execEnvSetp (id : Phase) (d0 : Word) (s : State) : Result :=
  .next (respondNone (envRun .zero (s.setEnv
    ((s.env.setParam id (laneReal d0)).rescale id (laneReal d0) (envValue s.env)))))

/-- `ENV.SETSHAPE s` (R110). -/
def execEnvSetshape (sh : Shape) (s : State) : Result :=
  .next (respondNone (s.setEnv { s.env with shape := sh }))

/-- `ENV.START` (R104): no zero-time advance. -/
def execEnvStart (s : State) : Result :=
  .next (respondNone (setEv .envStart (s.setEnv { s.env with phase := .attack, t := .zero, active := true })))

/-- `ENV.RUN` (R106). -/
def execEnvRun (d0 : Word) (s : State) : Result :=
  .next (respondNone (envRun (laneReal d0) s))

/-- The envelope that `ENV.RELEASE` leaves before its zero-time advance (R107). -/
def Env.released (e : Env) : Env :=
  { e with t := (e.sustain.sub (envValue e)).mul e.release, phase := .release }

/-- `ENV.RELEASE` (R107): no effect on an inactive envelope. -/
def execEnvRelease (s : State) : Result :=
  .next (respondNone (if !s.env.active then s else envRun .zero (s.setEnv s.env.released)))

/-- `ENV.STOP` (R111). -/
def execEnvStop (s : State) : Result :=
  .next (respondNone (setEv .envStop (s.setEnv { s.env with active := false })))

/-- `ENV.GET` (R103). -/
def execEnvGet (s : State) : Result :=
  .next (respondReal (envValue s.env) s)

end Sys2Proof.Machine
end

