-- ==== Sys2Proof/Machine/Oscillator.lean ====
section
/-! DEFINITION. Machine/Oscillator.lean: the OSC command family of spec/42_oscillator.md, R120 to R137: the shared
sub-operations `osc_run`, `osc_x`, `osc_value`, `osc_integral`, then one meaning per command. -/

namespace Sys2Proof.Machine

/-- The increment of one advance, `dt * freq` (R128). -/
def Osc.inc (o : Osc) (dt : F32) : F32 := dt.mul o.freq

/-- The shifted phase, `phase + shift` (R128). -/
def Osc.shifted (o : Osc) : F32 := o.phase.add o.shift

/-- The crossing test of R128, on the shifted phase: `floor(b) != floor(a)`. -/
def Osc.crosses (o : Osc) (dt : F32) : Bool :=
  ((o.shifted.add (o.inc dt)).floor).ne o.shifted.floor

/-- The oscillator after one advance (R128): the pending waveform applied on a crossing, the phase accumulated unshifted
and wrapped. DESIGN CHOICE (log entry 21): the phase is the pseudocode's `wrap(o.phase + inc)`, which does not read
`o.shift`, so a NaN or infinite shift alone leaves it finite; the prose of R128 and R225 (c) say that it becomes NaN. -/
def Osc.advanced (o : Osc) (dt : F32) : Osc :=
  { o with
    waveform := if o.crosses dt then o.sched else o.waveform
    phase := (o.phase.add (o.inc dt)).wrap }

/-- `osc_run(k, dt)` (R128). -/
def oscRun (k : OscId) (dt : F32) (s : State) : State :=
  let o := s.osc k
  if !o.active then s
  else
    let s' := s.setOsc k (o.advanced dt)
    if o.crosses dt then setEv (.oscRestart k) s' else s'

/-- `osc_x(k)` (R130). -/
def Osc.x (o : Osc) : F32 := o.shifted.frac

/-- `tri(x)` (R131). -/
def tri (x : F32) : F32 :=
  if x.lt .quarter then F32.four.mul x
  else if x.lt .threeQuarters then F32.two.sub (F32.four.mul x)
  else (F32.four.mul x).sub .four

/-- `triint(x)` (R133). -/
def triint (x : F32) : F32 :=
  if x.lt .quarter then (F32.two.mul x).mul x
  else if x.lt .threeQuarters then
    F32.quarter.sub ((F32.two.mul (x.sub .half)).mul (x.sub .half))
  else (F32.two.mul (F32.one.sub x)).mul (F32.one.sub x)

/-- The SQUARE value at a position (R131). -/
def squareWave (x : F32) : F32 :=
  if x.isNan then .nan
  else if x.lt .quarter || x.ge .threeQuarters then .one
  else F32.one.neg

/-- `osc_value(k)` (R131): the active waveform, whether or not the oscillator is active (R130). -/
def oscValue (o : Osc) : F32 :=
  match o.waveform with
  | .sine => (F32.twoPi.mul o.x).cos.neg
  | .triangle => tri o.x
  | .square => squareWave o.x

/-- `osc_integral(k)` (R133). -/
def oscIntegral (o : Osc) : F32 :=
  match o.waveform with
  | .sine => (F32.twoPi.mul o.x).sin
  | .triangle => triint o.x
  | .square => tri o.x

/-- `OSC.SETF k` (R121). -/
def execOscSetf (k : OscId) (d0 : Word) (s : State) : Result :=
  .next (respondNone (s.setOsc k { s.osc k with freq := laneReal d0 }))

/-- `OSC.GETF k` (R122). -/
def execOscGetf (k : OscId) (s : State) : Result :=
  .next (respondReal (s.osc k).freq s)

/-- The oscillator after `OSC.SETW` (R123): at once where the shifted phase is an integer, else deferred. -/
def Osc.withWave (o : Osc) (w : Waveform) : Osc :=
  { o with
    sched := w
    waveform := if o.shifted.frac.eq .zero then w else o.waveform }

/-- `OSC.SETW k, w` (R123). -/
def execOscSetw (k : OscId) (w : Waveform) (s : State) : Result :=
  .next (respondNone (s.setOsc k ((s.osc k).withWave w)))

/-- `OSC.SETPS k` (R125). -/
def execOscSetps (k : OscId) (d0 : Word) (s : State) : Result :=
  .next (respondNone (s.setOsc k { s.osc k with shift := laneReal d0 }))

/-- `OSC.GETPS k` (R124). -/
def execOscGetps (k : OscId) (s : State) : Result :=
  .next (respondReal (s.osc k).shift s)

/-- The oscillator after `OSC.START` or `OSC.STOP` (R126, R127). -/
def Osc.restarted (o : Osc) (active : Bool) : Osc :=
  { o with phase := .zero, waveform := o.sched, active := active }

/-- `OSC.START k` (R126). -/
def execOscStart (k : OscId) (s : State) : Result :=
  .next (respondNone (setEv (.oscStart k) (s.setOsc k ((s.osc k).restarted true))))

/-- `OSC.STOP k` (R127). -/
def execOscStop (k : OscId) (s : State) : Result :=
  .next (respondNone (setEv (.oscStop k) (s.setOsc k ((s.osc k).restarted false))))

/-- `OSC.RUN k` (R129). -/
def execOscRun (k : OscId) (d0 : Word) (s : State) : Result :=
  .next (respondNone (oscRun k (laneReal d0) s))

/-- `OSC.GETV k` (R132). -/
def execOscGetv (k : OscId) (s : State) : Result :=
  .next (respondReal (oscValue (s.osc k)) s)

/-- `OSC.GETI k` (R134). -/
def execOscGeti (k : OscId) (s : State) : Result :=
  .next (respondReal (oscIntegral (s.osc k)) s)

/-- `OSC.ISACT k` (R135): the integer 1 or 0. -/
def execOscIsact (k : OscId) (s : State) : Result :=
  .next (respondWord (flagWord (s.osc k).active) s)

end Sys2Proof.Machine
end

