-- ==== Sys2Proof/Machine/Fader.lean ====
section
/-! DEFINITION. Machine/Fader.lean: the FAD command family of spec/43_fader.md, R140 to R145: the shared sub-operation
`fad_proceed`, then one meaning per command. -/

namespace Sys2Proof.Machine

/-- The fader after one step (R141): snap within `|step|`, otherwise move by it. DESIGN CHOICE (log entry 22): where `value`
and `target` are the same infinity the pseudocode's `d` is `Inf - Inf = NaN` and the value becomes NaN, whatever the step;
the prose of R141 and R225 (a) say that an infinite value stays infinite under a finite step. -/
def Fader.proceeded (f : Fader) : Fader :=
  let d := f.target.sub f.value
  let s := f.step.abs
  { f with value := if d.abs.le s then f.target else f.value.add (d.sgn.mul s) }

/-- `fad_proceed(j)` (R141). -/
def fadStep (j : FadId) (s : State) : State := s.setFad j (s.fad j).proceeded

/-- A new target and one step (R142; R163 to R165 for the engine). -/
def fadToward (j : FadId) (target : F32) (s : State) : State :=
  fadStep j (s.setFad j { s.fad j with target := target })

/-- `FAD.SET j` (R142). -/
def execFadSet (j : FadId) (d0 : Word) (s : State) : Result :=
  .next (respondNone (fadToward j (laneReal d0) s))

/-- `FAD.SET2 j` (R143): one step, with the new step size. -/
def execFadSet2 (j : FadId) (d0 d1 : Word) (s : State) : Result :=
  .next (respondNone (fadStep j (s.setFad j { s.fad j with target := laneReal d0, step := laneReal d1 })))

/-- `FAD.PROCEED j` (R144). -/
def execFadProceed (j : FadId) (s : State) : Result :=
  .next (respondNone (fadStep j s))

/-- `FAD.GET j` (R145). -/
def execFadGet (j : FadId) (s : State) : Result :=
  .next (respondReal (s.fad j).value s)

end Sys2Proof.Machine
end

