-- ==== Sys2Proof/Machine/Engine.lean ====
section
/-! DEFINITION. Machine/Engine.lean: the ENG command family of spec/44_engine.md, R150 to R172: the router, the combiner
and the delay reader of `ENG.SAMPLE`, in the ten steps of R150 and in their order (R151). The capacity of the history is
an argument of the steps that use it; the command itself takes `Config.cap`. -/

namespace Sys2Proof.Machine

/-- The per-sample accumulators (R152): local to one `ENG.SAMPLE`. -/
structure Mix where
  signal : F32
  integral : F32
  fm1 : F32
  fm2 : F32
  pm1 : F32
  pm2 : F32
  am1 : F32
  am2 : F32
deriving DecidableEq, Repr

/-- The start values (R152): sums at `+0.0`, products at 1. -/
def mixStart : Mix :=
  { signal := .zero, integral := .zero, fm1 := .one, fm2 := .one, pm1 := .zero, pm2 := .zero, am1 := .one, am2 := .one }

/-- `dt = 1 / RATE` (R152). -/
def samplePeriod (s : State) : F32 := F32.one.div s.cfg.rate

/-- The frequency factor `1 - a * v` (R155). -/
def fmFactor (a v : F32) : F32 := F32.one.sub (a.mul v)

/-- The amplitude factor `1 - (0.5 * a) * (1 + v)` (R155). -/
def amFactor (a v : F32) : F32 := F32.one.sub ((F32.half.mul a).mul (F32.one.add v))

/-- The contribution to `integral` of an additive oscillator (R158): `((a * I) * RATE) / F[k]`. -/
def displacement (a : F32) (k : OscId) (s : State) : F32 :=
  ((a.mul (oscIntegral (s.osc k))).mul s.cfg.rate).div (s.baseFreq k)

/-- `route(m, a, k)` (R155). -/
def route (m : RouteMode) (a : F32) (k : OscId) (s : State) (x : Mix) : Mix :=
  let v := oscValue (s.osc k)
  match m with
  | .off => x
  | .add =>
    { x with
      signal := x.signal.add (a.mul v)
      integral := x.integral.add (displacement a k s) }
  | .fm1 => { x with fm1 := x.fm1.mul (fmFactor a v) }
  | .fm2 => { x with fm2 := x.fm2.mul (fmFactor a v) }
  | .pm1 => { x with pm1 := x.pm1.add (a.mul v) }
  | .pm2 => { x with pm2 := x.pm2.add (a.mul v) }
  | .am1 => { x with am1 := x.am1.mul (amFactor a v) }
  | .am2 => { x with am2 := x.am2.mul (amFactor a v) }

/-- Step 1 (R153): osc3 at its base frequency, advanced; its shift is the host's. -/
def engOsc3 (dt : F32) (s : State) : State :=
  oscRun .osc3 dt (s.setOsc .osc3 { s.osc3 with freq := s.cfg.f3 })

/-- Step 3 (R159): osc2 takes its frequency multiplier and phase shift and is advanced. -/
def engOsc2 (dt : F32) (x : Mix) (s : State) : State :=
  oscRun .osc2 dt (s.setOsc .osc2 { s.osc2 with freq := s.cfg.f2.mul x.fm2, shift := x.pm2 })

/-- Step 4 (R161), in LFO mode: osc1 likewise. -/
def engOsc1 (dt : F32) (x : Mix) (s : State) : State :=
  oscRun .osc1 dt (s.setOsc .osc1 { s.osc1 with freq := s.cfg.f1.mul x.fm1, shift := x.pm1 })

/-- Steps 1 to 4 (R153, R154, R159, R161): the router. -/
def engRoute (dt : F32) (s : State) : State × Mix :=
  let s3 := engOsc3 dt s
  let x3 := route s3.cfg.m3 s3.cfg.a3 .osc3 s3 mixStart
  let s2 := engOsc2 dt x3 s3
  let x2 := route s2.cfg.m2 (s2.cfg.a2.mul x3.am2) .osc2 s2 x3
  match s2.cfg.m1 with
  | .user => (s2, x2)
  | .lfo =>
    let s1 := engOsc1 dt x2 s2
    (s1, route .add x2.am1 .osc1 s1 x2)

/-- The divisor of step 5 (R160): the static amplitudes of the additive oscillators, added in the order osc2, osc3. -/
def divisor (g : EngCfg) : F32 :=
  let n := if g.m2 = .add then F32.one.add g.a2 else .one
  if g.m3 = .add then n.add g.a3 else n

/-- Steps 6 to 9 (R162 to R165), on the normalised `signal` and `integral`: the envelope is advanced and then read, and
each fader gets its target and one step. -/
def engShape (dt signal integral : F32) (s : State) : State :=
  let s6 := envRun dt s
  let e := envValue s6.env
  let s7 := fadToward .shift ((s6.cfg.semi.sub .one).mul ((integral.mul e).mul s6.cfg.depth)) s6
  let s8 := fadToward .amp (F32.one.sub (s7.cfg.trem.mul (signal.mul e))) s7
  fadToward .mix ((F32.one.sub s8.cfg.bypass).mul s8.cfg.drywet) s8

/-- Steps 1 to 9 (R150). -/
def engModulate (s : State) : State :=
  let dt := samplePeriod s
  let r := engRoute dt s
  let n := divisor r.1.cfg
  engShape dt (r.2.signal.div n) (r.2.integral.div n) r.1

/-- `index(u)` (R167): the delay, none where the offset is not finite or its truncation is outside `0 .. CAP - 1`. -/
def delayIndex (cap : Nat) (u : F32) : Option Nat :=
  match u.trunc with
  | none => none
  | some n => if n < 0 ∨ (cap : Int) - 1 < n then none else some n.toNat

/-- One tap of the delay reader (R168, R169): the sample at the delay, NaN where there is no delay. -/
def tap (cap : Nat) (c : Channel) (n : Option Nat) (s : State) : F32 :=
  match n with
  | none => .nan
  | some n => F32.ofBits (histRead cap c n s)

/-- The dry delay (R167). -/
def dryDelay (cap : Nat) (s : State) : Option Nat := delayIndex cap s.cfg.bufofs

/-- The wet delay (R167): the truncation is applied to the sum. -/
def wetDelay (cap : Nat) (s : State) : Option Nat := delayIndex cap (s.cfg.bufofs.add s.fad0.value)

/-- `out[c]` (R169). -/
def outSample (cap : Nat) (c : Channel) (s : State) : F32 :=
  ((F32.one.sub s.fad2.value).mul (tap cap c (dryDelay cap s) s)).add
    (s.fad2.value.mul (s.fad1.value.mul (tap cap c (wetDelay cap s) s)))

/-- `fault IDX` where either index fails (R168). -/
def checkDelays (cap : Nat) (s : State) : State :=
  if (dryDelay cap s).isSome && (wetDelay cap s).isSome then s else raiseFault .idx s

/-- Step 10 (R166 to R169): push, check, read, respond. -/
def engOutput (cap : Nat) (d0 d1 : Word) (s : State) : State :=
  let s' := histPush cap d0 d1 s
  respondReals (outSample cap .ch0 s') (outSample cap .ch1 s') (checkDelays cap s')

/-- `ENG.SAMPLE` with a history of `cap` words per channel (R150). -/
def engSampleWith (cap : Nat) (d0 d1 : Word) (s : State) : State := engOutput cap d0 d1 (engModulate s)

/-- `ENG.SAMPLE` (R150). -/
def execEngSample (d0 d1 : Word) (s : State) : Result :=
  .next (engSampleWith Config.cap d0 d1 s)

end Sys2Proof.Machine
end

