-- ==== Sys2Proof/Machine/System.lean ====
section
/-! DEFINITION. Machine/System.lean: the SYS command family of spec/45_system.md, R180 to R182. -/

namespace Sys2Proof.Machine

/-- `SYS.CSRR idx` (R180): no side effect. An unmapped number is illegal at decode. -/
def execSysCsrr (r : Csr) (s : State) : Result :=
  .next (respondCsr (csrRead r s) s)

/-- `SYS.CSRW idx` (R181). -/
def execSysCsrw (r : Csr) (d0 : Word) (s : State) : Result :=
  .next (csrWrite r d0 s)

/-- `SYS.EVCLR` (R182). -/
def execSysEvclr (d0 : Word) (s : State) : Result :=
  .next (respondNone (clearEv d0 s))

end Sys2Proof.Machine
end

