-- ==== Sys2Proof/Machine/Dispatch.lean ====
section
/-! DEFINITION. Machine/Dispatch.lean: one arm per command of spec/30_encoding.md R67. -/

namespace Sys2Proof.Machine

def exec (i : Instr) (s : State) : Host.Outcome State Fault Refusal :=
  match i with
  | .envSetall d0 d1 d2 d3 => Sys2Proof.Machine.execEnvSetall d0 d1 d2 d3 s
  | .envSetp id d0 => Sys2Proof.Machine.execEnvSetp id d0 s
  | .envSetshape sh => Sys2Proof.Machine.execEnvSetshape sh s
  | .envStart => Sys2Proof.Machine.execEnvStart s
  | .envRun d0 => Sys2Proof.Machine.execEnvRun d0 s
  | .envRelease => Sys2Proof.Machine.execEnvRelease s
  | .envStop => Sys2Proof.Machine.execEnvStop s
  | .envGet => Sys2Proof.Machine.execEnvGet s
  | .oscSetf k d0 => Sys2Proof.Machine.execOscSetf k d0 s
  | .oscGetf k => Sys2Proof.Machine.execOscGetf k s
  | .oscSetw k w => Sys2Proof.Machine.execOscSetw k w s
  | .oscSetps k d0 => Sys2Proof.Machine.execOscSetps k d0 s
  | .oscGetps k => Sys2Proof.Machine.execOscGetps k s
  | .oscStart k => Sys2Proof.Machine.execOscStart k s
  | .oscStop k => Sys2Proof.Machine.execOscStop k s
  | .oscRun k d0 => Sys2Proof.Machine.execOscRun k d0 s
  | .oscGetv k => Sys2Proof.Machine.execOscGetv k s
  | .oscGeti k => Sys2Proof.Machine.execOscGeti k s
  | .oscIsact k => Sys2Proof.Machine.execOscIsact k s
  | .fadSet j d0 => Sys2Proof.Machine.execFadSet j d0 s
  | .fadSet2 j d0 d1 => Sys2Proof.Machine.execFadSet2 j d0 d1 s
  | .fadProceed j => Sys2Proof.Machine.execFadProceed j s
  | .fadGet j => Sys2Proof.Machine.execFadGet j s
  | .engSample d0 d1 => Sys2Proof.Machine.execEngSample d0 d1 s
  | .sysCsrr r => Sys2Proof.Machine.execSysCsrr r s
  | .sysCsrw r d0 => Sys2Proof.Machine.execSysCsrw r d0 s
  | .sysEvclr d0 => Sys2Proof.Machine.execSysEvclr d0 s

end Sys2Proof.Machine
end

