-- ==== Sys2Proof/Machine/Step.lean ====
section
/-! DEFINITION. Machine/Step.lean: one step of the machine: a reset edge, an idle edge, or one accepted command executed
to completion (spec/30_encoding.md R61, spec/70_reset_and_hazards.md R210, spec/60_exceptions.md R206). -/

namespace Sys2Proof.Machine

/-- One step. Reset has priority over everything (R197, R210). Otherwise the oldest accepted command is decoded and
executed, an illegal one as R70 says; with none, the block holds its state (R206). -/
def step (s : State) : Host.Outcome State Fault Refusal :=
  if s.rst then .next (resetEdge s)
  else match s.accepted with
    | [] => .next (idleEdge s)
    | c :: rest => match decode c with
      | .ok i => exec i (takeCommand rest s)
      | .error _ => .next (illegal (takeCommand rest s))

/-- `s` with the command whose bits are `w` (numbered as the opcode table numbers them, lanes above `nbits` zero) as the
oldest accepted command and `rst` low, so that the next step executes it (log entry 1). -/
def State.withFetchWord (s : State) (nbits w : Nat) : State := placeCommand (commandOfBits nbits w) s

end Sys2Proof.Machine
end

