-- ==== Sys2Proof/Safety.lean ====
section
/-! DEFINITION. Safety.lean: the invariant of the machine's state, and what counts as a run that has not failed
(spec/93_implementation_defined.md U1, U2). -/

namespace Sys2Proof.Machine

/-- The history is in canonical form, every written byte lies in the space of `CAP` words per channel (R40, R41), and the
write position is in `0 .. CAP - 1` (R41). -/
def State.historyOk (s : State) : Prop :=
  Memory.wf s.hist ∧ (∀ c ∈ s.hist, c.1 < 8 * Config.cap) ∧ s.wr < Config.cap

/-- The bits of the system registers that R21 does not list read zero. -/
def State.flagsOk (s : State) : Prop :=
  s.evstat &&& ~~~eventBits = 0 ∧ s.evmask &&& ~~~eventBits = 0 ∧ s.fault &&& ~~~(3#32) = 0

/-- The mode registers hold legal codes (R19). `M[1]` and `M[3]` cannot hold another by their type. -/
def State.modesOk (s : State) : Prop := s.cfg.m2.legalForOsc2 = true

/-- The invariant every step keeps. -/
def State.Inv (s : State) : Prop := s.historyOk ∧ s.flagsOk ∧ s.modesOk

/-- No command of the run so far was illegal and no delay index left the history (U1, U2): no fault flag is set. -/
def State.notFailed (s : State) : Prop := s.fault = 0

/-- The host's duty of spec/70_reset_and_hazards.md R216, on the state in which `ENG.SAMPLE` reads: both delays lie in the
history. -/
def State.delaysInside (s : State) : Prop :=
  (dryDelay Config.cap s).isSome = true ∧ (wetDelay Config.cap s).isSome = true

end Sys2Proof.Machine
end

