-- ==== Sys2Proof/Reference.lean ====
section
/-! DEFINITION. Reference.lean: the words of the statements of Certificates/Slice0/Obligations.lean that the machine does
not use: the value of a real as a rational number (spec/40_numerics.md R80), rounding to nearest even as a relation (R82),
the legal command words as a table of numbers (spec/30_encoding.md R67 to R69), and the longer sub-operations of
spec/41_envelope.md, spec/42_oscillator.md, spec/43_fader.md and spec/44_engine.md written out a second time, without the
machine's loops and accumulators. -/

namespace Sys2Proof.Reference

open Sys2Proof.Machine

/-- The number a finite real stands for, from the formulas of R80; 0 for the others, which no statement uses. -/
def value : F32 → ℚ
  | .nan => 0
  | .inf _ => 0
  | .fin s e f =>
    (if s then -1 else 1) *
      (if e.val = 0 then (2 : ℚ) ^ (-126 : ℤ) * (f.toNat / 2 ^ 23)
       else (2 : ℚ) ^ ((e.val : ℤ) - 127) * (1 + f.toNat / 2 ^ 23))

/-- The last fraction bit is 0. -/
def even : F32 → Bool
  | .nan => false
  | .inf _ => false
  | .fin _ _ f => !f.getLsbD 0

/-- `r` is the exact number `x` rounded to nearest, ties to even (R82): no finite real is nearer, and of two equally near
ones `r` is the one whose last fraction bit is 0. From half a last place above the largest finite number on, `r` is the
infinity of the sign of `x`. -/
def RoundsTo (x : ℝ) (r : F32) : Prop :=
  if |x| < 2 ^ 128 - 2 ^ 103 then
    r.isFinite = true ∧
      ∀ c : F32, c.isFinite = true →
        |(value r : ℝ) - x| ≤ |(value c : ℝ) - x| ∧
          (|(value r : ℝ) - x| = |(value c : ℝ) - x| → value r ≠ value c → even r = true)
  else (0 < x → r = .inf false) ∧ (x < 0 → r = .inf true)

/-- The lane `r` carries the real `v` (R64): its value is `v`, and the pattern of a NaN is a quiet one (bit 22). -/
def Carries (r : Word) (v : F32) : Prop := F32.ofBits r = v ∧ (v = .nan → r.getLsbD 22 = true)

/-- The CSR numbers of R25. -/
def mapped (idx : Nat) : Prop :=
  idx ≤ 0x05 ∨ (0x10 ≤ idx ∧ idx ≤ 0x16 ∧ idx ≠ 0x15) ∨ (0x20 ≤ idx ∧ idx ≤ 0x26) ∨ (0x30 ≤ idx ∧ idx ≤ 0x36) ∨
    (0x40 ≤ idx ∧ idx ≤ 0x4A ∧ idx % 4 ≠ 3) ∨ (0x50 ≤ idx ∧ idx ≤ 0x57) ∨ (0x60 ≤ idx ∧ idx ≤ 0x62)

/-- The CSR numbers R25 marks RW. -/
def writable (idx : Nat) : Prop :=
  idx = 0x14 ∨ idx = 0x16 ∨ (0x24 ≤ idx ∧ idx ≤ 0x26) ∨ (0x34 ≤ idx ∧ idx ≤ 0x36) ∨ (0x50 ≤ idx ∧ idx ≤ 0x56) ∨
    idx = 0x61

/-- The legal values of R19 for the mode registers; no other register restricts the value written. -/
def modeLegal (idx d0 : Nat) : Prop :=
  (idx = 0x16 → d0 ≤ 1) ∧ (idx = 0x26 → d0 = 0 ∨ d0 = 1 ∨ d0 = 2 ∨ d0 = 4 ∨ d0 = 6) ∧ (idx = 0x36 → d0 ≤ 7)

/-- The legal commands of R67 and R68, as conditions on the number of the command word and of the lane `d0`. -/
def legal (cw d0 : Nat) : Prop :=
  let unit := cw / 4096
  let op := cw / 256 % 16
  let sel := cw / 16 % 16
  let imm := cw % 16
  (unit = 1 ∧ (op = 1 ∨ op = 2) ∧ sel = 0 ∧ imm ≤ 3) ∨
    (unit = 1 ∧ (op = 0 ∨ (3 ≤ op ∧ op ≤ 7)) ∧ sel = 0 ∧ imm = 0) ∨
    (unit = 2 ∧ op = 2 ∧ 1 ≤ sel ∧ sel ≤ 3 ∧ imm ≤ 2) ∨
    (unit = 2 ∧ op ≤ 10 ∧ op ≠ 2 ∧ 1 ≤ sel ∧ sel ≤ 3 ∧ imm = 0) ∨
    (unit = 3 ∧ op ≤ 3 ∧ sel ≤ 2 ∧ imm = 0) ∨
    (unit = 4 ∧ op = 0 ∧ sel = 0 ∧ imm = 0) ∨
    (unit = 5 ∧ op = 0 ∧ mapped (cw % 256)) ∨
    (unit = 5 ∧ op = 1 ∧ writable (cw % 256) ∧ modeLegal (cw % 256) d0) ∨
    (unit = 5 ∧ op = 2 ∧ sel = 0 ∧ imm = 0)

/-- `HALF_PI` by its pattern (R89). -/
def halfPi : F32 := F32.ofBits 0x3FC90FDB

/-- `TWO_PI` by its pattern (R89). -/
def twoPi : F32 := F32.ofBits 0x40C90FDB

/-- `shape(s, x)` (R102). -/
def shape : Shape → F32 → F32
  | .linear, x => x
  | .invSquare, x => F32.one.sub ((F32.one.sub x).mul (F32.one.sub x))
  | .squareRoot, x => x.abs.sqrt
  | .quarterSine, x => (halfPi.mul x).sin

/-- `env_value()` (R101), one line a phase. -/
def envValue (e : Env) : F32 :=
  if e.active = false then .zero
  else match e.phase with
    | .attack => F32.zero.add ((F32.one.sub .zero).mul (shape e.shape (e.t.div e.attack)))
    | .decay => F32.one.add ((e.sustain.sub .one).mul (shape e.shape (e.t.div e.decay)))
    | .sustain => e.sustain
    | .release => e.sustain.add ((F32.zero.sub e.sustain).mul (shape e.shape (e.t.div e.release)))

/-- `env_run(dt)` (R105) with its loop written out: the envelope afterwards, and the bits it sets in `EVSTAT` (2 for
`ENV_PHASE`, 4 for `ENV_STOP`, R194). -/
def envRun (dt : F32) (e : Env) : Env × Word :=
  if e.active = false then (e, 0)
  else
    let t := e.t.add dt
    match e.phase with
    | .attack =>
      if t.ge e.attack then
        let t' := t.sub e.attack
        if t'.ge e.decay then ({ e with phase := .sustain, t := t'.sub e.decay }, 2)
        else ({ e with phase := .decay, t := t' }, 2)
      else ({ e with t := t }, 0)
    | .decay => if t.ge e.decay then ({ e with phase := .sustain, t := t.sub e.decay }, 2) else ({ e with t := t }, 0)
    | .sustain => ({ e with t := t }, 0)
    | .release => if t.ge e.release then ({ e with t := t, active := false }, 4) else ({ e with t := t }, 0)

/-- `frac(a) = a - floor(a)` (R86). -/
def frac (a : F32) : F32 := a.sub a.floor

/-- `tri(x)` (R131). -/
def tri (x : F32) : F32 :=
  if x.lt .quarter then F32.four.mul x
  else if x.lt .threeQuarters then F32.two.sub (F32.four.mul x)
  else (F32.four.mul x).sub .four

/-- `triint(x)` (R133). -/
def triint (x : F32) : F32 :=
  if x.lt .quarter then (F32.two.mul x).mul x
  else if x.lt .threeQuarters then F32.quarter.sub ((F32.two.mul (x.sub .half)).mul (x.sub .half))
  else (F32.two.mul (F32.one.sub x)).mul (F32.one.sub x)

/-- `osc_value(k)` (R131). -/
def oscValue (o : Osc) : F32 :=
  let x := frac (o.phase.add o.shift)
  match o.waveform with
  | .sine => ((twoPi.mul x).cos).neg
  | .triangle => tri x
  | .square =>
    if x = .nan then .nan
    else if x.lt .quarter = true ∨ x.ge .threeQuarters = true then .one
    else F32.one.neg

/-- `osc_integral(k)` (R133). -/
def oscIntegral (o : Osc) : F32 :=
  let x := frac (o.phase.add o.shift)
  match o.waveform with
  | .sine => (twoPi.mul x).sin
  | .square => tri x
  | .triangle => triint x

/-- `osc_run(k, dt)` (R128): the oscillator afterwards, and whether `OSCk_RESTART` is set. That a NaN or infinite shift
alone does not reach the phase is the model's choice (log entry 21). -/
def oscRun (dt : F32) (o : Osc) : Osc × Bool :=
  if o.active = false then (o, false)
  else
    let inc := dt.mul o.freq
    let a := o.phase.add o.shift
    let b := a.add inc
    if b.floor.ne a.floor then
      ({ o with waveform := o.sched, phase := frac (o.phase.add inc) }, true)
    else ({ o with phase := frac (o.phase.add inc) }, false)

/-- `fad_proceed(j)` (R141). That a value and a target of the same infinity give NaN is the model's choice (log entry 22). -/
def proceed (f : Fader) : Fader :=
  let d := f.target.sub f.value
  let s := f.step.abs
  if d.abs.le s then { f with value := f.target } else { f with value := f.value.add (d.sgn.mul s) }

/-- An event bit if it is set (R193). -/
def eventIf (b : Bool) (w : Word) : Word := if b then w else 0

/-- The router's result (R150, steps 1 to 4): the oscillators, the `EVSTAT` bits, the two sums. -/
structure Routed where
  osc3 : Osc
  osc2 : Osc
  osc1 : Osc
  events : Word
  signal : F32
  integral : F32

/-- The frequency factor of R155. -/
def fmTerm (a v : F32) : F32 := F32.one.sub (a.mul v)

/-- The amplitude factor of R155. -/
def amTerm (a v : F32) : F32 := F32.one.sub ((F32.half.mul a).mul (F32.one.add v))

/-- The displacement of R158. -/
def displaced (a i rate f : F32) : F32 := ((a.mul i).mul rate).div f

/-- Steps 1 to 4 of R150 (R153, R154, R159, R161), one local for each accumulator and each place it is written. -/
def router (g : EngCfg) (p3 p2 p1 : Osc) : Routed :=
  let dt := F32.one.div g.rate
  -- step 1
  let r3 := oscRun dt { p3 with freq := g.f3 }
  let v3 := oscValue r3.1
  -- step 2
  let fm1 := if g.m3 = .fm1 then F32.one.mul (fmTerm g.a3 v3) else .one
  let fm2 := if g.m3 = .fm2 then F32.one.mul (fmTerm g.a3 v3) else .one
  let pm1 := if g.m3 = .pm1 then F32.zero.add (g.a3.mul v3) else .zero
  let pm2 := if g.m3 = .pm2 then F32.zero.add (g.a3.mul v3) else .zero
  let am1 := if g.m3 = .am1 then F32.one.mul (amTerm g.a3 v3) else .one
  let am2 := if g.m3 = .am2 then F32.one.mul (amTerm g.a3 v3) else .one
  let signal := if g.m3 = .add then F32.zero.add (g.a3.mul v3) else .zero
  let integral := if g.m3 = .add then F32.zero.add (displaced g.a3 (oscIntegral r3.1) g.rate g.f3) else .zero
  -- step 3
  let r2 := oscRun dt { p2 with freq := g.f2.mul fm2, shift := pm2 }
  let v2 := oscValue r2.1
  let a2 := g.a2.mul am2
  let fm1' := if g.m2 = .fm1 then fm1.mul (fmTerm a2 v2) else fm1
  let pm1' := if g.m2 = .pm1 then pm1.add (a2.mul v2) else pm1
  let am1' := if g.m2 = .am1 then am1.mul (amTerm a2 v2) else am1
  let signal' := if g.m2 = .add then signal.add (a2.mul v2) else signal
  let integral' := if g.m2 = .add then integral.add (displaced a2 (oscIntegral r2.1) g.rate g.f2) else integral
  let events := eventIf r3.2 0x400 ||| eventIf r2.2 0x080
  -- step 4
  match g.m1 with
  | .user => ⟨r3.1, r2.1, p1, events, signal', integral'⟩
  | .lfo =>
    let r1 := oscRun dt { p1 with freq := g.f1.mul fm1', shift := pm1' }
    ⟨r3.1, r2.1, r1.1, events ||| eventIf r1.2 0x010, signal'.add (am1'.mul (oscValue r1.1)),
      integral'.add (displaced am1' (oscIntegral r1.1) g.rate g.f1)⟩

/-- `n` of step 5 (R160). -/
def divisor (g : EngCfg) : F32 :=
  if g.m2 = .add then (if g.m3 = .add then (F32.one.add g.a2).add g.a3 else F32.one.add g.a2)
  else (if g.m3 = .add then F32.one.add g.a3 else .one)

/-- `index(u)` succeeds (R167). -/
def inRange (u : F32) : Prop := ∃ n : ℤ, u.trunc = some n ∧ 0 ≤ n ∧ n ≤ (Config.cap : ℤ) - 1

/-- The tap at the offset `u` of channel `c` is the real `x` (R168, R169): the sample at the truncated delay, or NaN. -/
def IsTap (u : F32) (c : Channel) (s : State) (x : F32) : Prop :=
  (∀ n : Nat, u.trunc = some (n : ℤ) → n ≤ Config.cap - 1 → x = F32.ofBits (histRead Config.cap c n s)) ∧
    (¬inRange u → x = .nan)

end Sys2Proof.Reference
end

