-- ==== Sys2Proof/Certificates/Slice0/Obligations.lean ====
section
/-! DEFINITION. Certificates/Slice0/Obligations.lean: the statements for the provers. Each docstring names the rules of
spec/ the statement formalises; a statement that rests on a choice of the model names the log entry. -/

open Sys2Proof Sys2Proof.Machine

/-! ## Encoding -/

/-- Decoding the encoding of a command gives the command back (R62, R66 to R68). -/
def Obligations.DecodeOfEncode : Prop :=
  ∀ i : Instr, i.wellFormed = true → decode (encode i) = .ok i

/-- What the decoder accepts is a command of the set, and its command word is the one the encoder writes, so every accepted
word is a row of R67 with every field in place; each lane is either carried whole or ignored (R63). That the encoder writes
zero on an ignored lane is the model's choice (log entry 16). -/
def Obligations.EncodeOfDecode : Prop :=
  ∀ (c : Command) (i : Instr), decode c = .ok i →
    i.wellFormed = true ∧ (encode i).cw = c.cw ∧
    ((encode i).d0 = c.d0 ∨ (encode i).d0 = 0 ∧ ∀ x, decode { c with d0 := x } = .ok i) ∧
    ((encode i).d1 = c.d1 ∨ (encode i).d1 = 0 ∧ ∀ x, decode { c with d1 := x } = .ok i) ∧
    ((encode i).d2 = c.d2 ∨ (encode i).d2 = 0 ∧ ∀ x, decode { c with d2 := x } = .ok i) ∧
    ((encode i).d3 = c.d3 ∨ (encode i).d3 = 0 ∧ ∀ x, decode { c with d3 := x } = .ok i)

/-- The legal commands are exactly those of R67 and R68 (R69). -/
def Obligations.LegalCommandsExactly : Prop :=
  ∀ c : Command, (∃ i, decode c = .ok i) ↔ Reference.legal c.cw.toNat c.d0.toNat

/-- The example commands of R72 decode to the commands they stand for, and the register numbers of R25, row by row, to
their registers. -/
def Obligations.WordsAndRegisterNumbersDecode : Prop :=
  decode ⟨0x1000, 0x3F000000, 0x3E800000, 0x3F000000, 0x3F800000⟩ =
      .ok (.envSetall 0x3F000000 0x3E800000 0x3F000000 0x3F800000) ∧
    decode ⟨0x1101, 0x3F000000, 0, 0, 0⟩ = .ok (.envSetp .decay 0x3F000000) ∧
    decode ⟨0x2221, 0, 0, 0, 0⟩ = .ok (.oscSetw .osc2 .triangle) ∧
    decode ⟨0x2710, 0x3E800000, 0, 0, 0⟩ = .ok (.oscRun .osc1 0x3E800000) ∧
    decode ⟨0x3110, 0x3F800000, 0x3E000000, 0, 0⟩ = .ok (.fadSet2 .amp 0x3F800000 0x3E000000) ∧
    decode ⟨0x4000, 0x3F000000, 0xBF000000, 0, 0⟩ = .ok (.engSample 0x3F000000 0xBF000000) ∧
    decode ⟨0x5136, 2, 0, 0, 0⟩ = .ok (.sysCsrw (.oscMode .osc3) 2) ∧
    decode ⟨0x5060, 0, 0, 0, 0⟩ = .ok (.sysCsrr .evstat) ∧
    ∀ p ∈ [(0x00, Csr.envStat), (0x01, .envT), (0x02, .envA), (0x03, .envD), (0x04, .envS), (0x05, .envR),
        (0x10, .oscStat .osc1), (0x11, .oscFreq .osc1), (0x12, .oscPhase .osc1), (0x13, .oscShift .osc1),
        (0x14, .oscF .osc1), (0x16, .oscMode .osc1),
        (0x20, .oscStat .osc2), (0x21, .oscFreq .osc2), (0x22, .oscPhase .osc2), (0x23, .oscShift .osc2),
        (0x24, .oscF .osc2), (0x25, .osc2A), (0x26, .oscMode .osc2),
        (0x30, .oscStat .osc3), (0x31, .oscFreq .osc3), (0x32, .oscPhase .osc3), (0x33, .oscShift .osc3),
        (0x34, .oscF .osc3), (0x35, .osc3A), (0x36, .oscMode .osc3),
        (0x40, .fadTarget .shift), (0x41, .fadStep .shift), (0x42, .fadValue .shift),
        (0x44, .fadTarget .amp), (0x45, .fadStep .amp), (0x46, .fadValue .amp),
        (0x48, .fadTarget .mix), (0x49, .fadStep .mix), (0x4A, .fadValue .mix),
        (0x50, .rate), (0x51, .depth), (0x52, .semi), (0x53, .trem), (0x54, .drywet), (0x55, .bypass),
        (0x56, .bufofs), (0x57, .latency), (0x60, .evstat), (0x61, .evmask), (0x62, .fault)],
      decode ⟨BitVec.ofNat 16 (0x5000 + p.1), 0, 0, 0, 0⟩ = .ok (.sysCsrr p.2)

/-! ## The step and reset -/

/-- A step runs the oldest accepted command that decodes, on the state without it (R61; the queue is log entry 1). -/
def Obligations.StepRunsTheDecodedCommand : Prop :=
  ∀ (s : State) (c : Command) (rest : List Command) (i : Instr),
    s.rst = false → s.accepted = c :: rest → decode c = .ok i → step s = exec i { s with accepted := rest }

/-- An illegal command sets `FAULT.ILL`, answers zeros, and does nothing else (R70, R190). -/
def Obligations.IllegalCommandOnlySetsIll : Prop :=
  ∀ (s : State) (c : Command) (rest : List Command),
    s.rst = false → s.accepted = c :: rest → (∀ i, decode c ≠ .ok i) →
      step s = .next { s with accepted := rest, fault := s.fault ||| 1, rsp := some ⟨0, 0⟩ }

/-- With no command the block holds its state (R206), and `rsp_valid` is low (R60). -/
def Obligations.IdleHoldsTheState : Prop :=
  ∀ s : State, s.rst = false → s.accepted = [] → step s = .next { s with rsp := none }

/-- A clock edge with `rst` high: every register takes its reset value, `WR` is 0, accepted commands are dropped, a command
presented is not accepted, `rsp_valid` and `irq` are low, `latency` reads 0, the history is unchanged (R210, R26). -/
def Obligations.ResetEdge : Prop :=
  ∀ s : State, s.rst = true →
    (∀ c, hostPresent c s = s) ∧
    ∃ t, step s = .next t ∧
      t.env = ⟨false, .attack, .zero, .zero, .zero, .zero, .zero, .linear⟩ ∧
      (∀ k, t.osc k = ⟨.sine, .sine, .zero, .zero, .zero, false⟩) ∧
      (∀ j, t.fad j = ⟨.zero, .zero, .zero⟩) ∧
      t.cfg = ⟨.zero, .zero, .zero, .zero, .zero, .user, .off, .off, .zero, .zero, .zero, .zero, .zero, .zero, .zero⟩ ∧
      t.evstat = 0 ∧ t.evmask = 0 ∧ t.fault = 0 ∧ t.wr = 0 ∧ t.accepted = [] ∧ t.rsp = none ∧
      t.irq = false ∧ t.latencyPort = 0 ∧ t.hist = s.hist

/-- Each accepted command is answered exactly once, in order (R61): whatever it is, the step takes it off the queue and
leaves one response. -/
def Obligations.EveryCommandIsAnswered : Prop :=
  ∀ (s : State) (c : Command) (rest : List Command), s.rst = false → s.accepted = c :: rest →
    ∃ t r, step s = .next t ∧ t.accepted = rest ∧ t.rsp = some r ∧ t.rst = false

/-- The invariant holds at reset (R19, R21, R41). -/
def Obligations.InvAtReset : Prop := State.reset.Inv

/-- Every step keeps the invariant: the history in canonical form and inside `CAP` words per channel, `WR` below `CAP`
(R41), the unlisted bits of the system registers zero (R21), no illegal mode code (R19). -/
def Obligations.StepKeepsInv : Prop :=
  ∀ s t : State, s.Inv → step s = .next t → t.Inv

/-- After reset every register of the map reads as zeros and `WR` is 0 (R26, R41). -/
def Obligations.EveryRegisterReadsZeroAtReset : Prop :=
  State.reset.wr = 0 ∧ ∀ r : Csr, ∃ t, exec (.sysCsrr r) State.reset = .next t ∧ t.rsp = some ⟨0, 0⟩

/-! ## Unit ENV -/

/-- `ENV.START` (R104) and `ENV.STOP` (R111). -/
def Obligations.EnvStartStopResult : Prop :=
  (∀ d0 d1 d2 d3, decode ⟨0x1300, d0, d1, d2, d3⟩ = .ok .envStart ∧
    decode ⟨0x1600, d0, d1, d2, d3⟩ = .ok .envStop) ∧
  ∀ s : State,
    exec .envStart s = .next
      { s with
        env := { s.env with phase := .attack, t := .zero, active := true }
        evstat := s.evstat ||| 0x001, rsp := some ⟨0, 0⟩ } ∧
    exec .envStop s = .next
      { s with env := { s.env with active := false }, evstat := s.evstat ||| 0x004, rsp := some ⟨0, 0⟩ }

/-- `ENV.SETSHAPE` (R110). -/
def Obligations.EnvSetshapeResult : Prop :=
  (∀ (sh : Shape) (d0 d1 d2 d3 : Word),
      decode ⟨BitVec.ofNat 16 (0x1200 + sh.code), d0, d1, d2, d3⟩ = .ok (.envSetshape sh)) ∧
    ∀ (sh : Shape) (s : State), exec (.envSetshape sh) s = .next
      { s with env := { s.env with shape := sh }, rsp := some ⟨0, 0⟩ }

/-- `ENV.GET` (R103) answers `env_value()` (R101, R102) and changes nothing; `draws` is the model's own field (log
entry 3). -/
def Obligations.EnvGetResult : Prop :=
  (∀ d0 d1 d2 d3, decode ⟨0x1700, d0, d1, d2, d3⟩ = .ok .envGet) ∧
  ∀ s : State, ∃ r0 n, exec .envGet s = .next { s with rsp := some ⟨r0, 0⟩, draws := n } ∧
    Reference.Carries r0 (Reference.envValue s.env)

/-- `ENV.RUN` (R106): `env_run(dt)` of R105, its loop written out. -/
def Obligations.EnvRunResult : Prop :=
  (∀ d0 d1 d2 d3, decode ⟨0x1400, d0, d1, d2, d3⟩ = .ok (.envRun d0)) ∧
  ∀ (d0 : Word) (s : State),
    let r := Reference.envRun (F32.ofBits d0) s.env
    exec (.envRun d0) s = .next { s with env := r.1, evstat := s.evstat ||| r.2, rsp := some ⟨0, 0⟩ }

/-- `ENV.RELEASE` (R107). -/
def Obligations.EnvReleaseResult : Prop :=
  (∀ d0 d1 d2 d3, decode ⟨0x1500, d0, d1, d2, d3⟩ = .ok .envRelease) ∧
  ∀ s : State,
    (s.env.active = false → exec .envRelease s = .next { s with rsp := some ⟨0, 0⟩ }) ∧
    (s.env.active = true →
      let cur := Reference.envValue s.env
      let r := Reference.envRun .zero
        { s.env with t := (s.env.sustain.sub cur).mul s.env.release, phase := .release }
      exec .envRelease s = .next { s with env := r.1, evstat := s.evstat ||| r.2, rsp := some ⟨0, 0⟩ })

/-- `ENV.SETALL` (R108). -/
def Obligations.EnvSetallResult : Prop :=
  (∀ d0 d1 d2 d3, decode ⟨0x1000, d0, d1, d2, d3⟩ = .ok (.envSetall d0 d1 d2 d3)) ∧
  ∀ (d0 d1 d2 d3 : Word) (s : State),
    let r := Reference.envRun .zero
      { s.env with
        attack := F32.ofBits d0, decay := F32.ofBits d1, sustain := F32.ofBits d2, release := F32.ofBits d3 }
    exec (.envSetall d0 d1 d2 d3) s =
      .next { s with env := r.1, evstat := s.evstat ||| r.2, rsp := some ⟨0, 0⟩ }

/-- `ENV.SETP id` (R109), the four parameters one after the other. -/
def Obligations.EnvSetpResult : Prop :=
  (∀ (id : Phase) (d0 d1 d2 d3 : Word),
    decode ⟨BitVec.ofNat 16 (0x1100 + id.code), d0, d1, d2, d3⟩ = .ok (.envSetp id d0)) ∧
  ∀ (d0 : Word) (s : State),
    let v := F32.ofBits d0
    let cur := Reference.envValue s.env
    let after (e : Env) : State :=
      let r := Reference.envRun .zero e
      { s with env := r.1, evstat := s.evstat ||| r.2, rsp := some ⟨0, 0⟩ }
    exec (.envSetp .attack d0) s = .next (after
      (if s.env.active = true ∧ s.env.phase = .attack then { s.env with attack := v, t := v.mul cur }
       else { s.env with attack := v })) ∧
    exec (.envSetp .decay d0) s = .next (after
      (if s.env.active = true ∧ s.env.phase = .decay ∧ s.env.sustain.ne .one = true then
        { s.env with decay := v, t := (v.mul (F32.one.sub cur)).div (F32.one.sub s.env.sustain) }
       else { s.env with decay := v })) ∧
    exec (.envSetp .sustain d0) s = .next (after { s.env with sustain := v }) ∧
    exec (.envSetp .release d0) s = .next (after
      (if s.env.active = true ∧ s.env.phase = .release ∧ s.env.sustain.ne .zero = true then
        { s.env with release := v, t := (v.mul (s.env.sustain.sub cur)).div s.env.sustain }
       else { s.env with release := v }))

/-- `env_run(0)` is idempotent (R105, R112 c): a second `ENV.RUN +0.0` changes nothing. -/
def Obligations.EnvRunZeroIsIdempotent : Prop :=
  ∀ s t : State, exec (.envRun 0) s = .next t → exec (.envRun 0) t = .next t

/-- SUSTAIN is left only by `ENV.RELEASE`, `ENV.START` or `ENV.STOP` (R100). -/
def Obligations.SustainIsLeftOnlyByThree : Prop :=
  ∀ (i : Instr) (s t : State), exec i s = .next t → s.env.active = true → s.env.phase = .sustain →
    (t.env.active = true ∧ t.env.phase = .sustain) ∨ i = .envRelease ∨ i = .envStart ∨ i = .envStop

/-- Which commands write the envelope's items (R11). -/
def Obligations.EnvelopeWriters : Prop :=
  ∀ (i : Instr) (s t : State), exec i s = .next t →
    (((t.env.attack = s.env.attack ∧ t.env.decay = s.env.decay ∧ t.env.sustain = s.env.sustain ∧
        t.env.release = s.env.release) ∨
      (∃ d0 d1 d2 d3, i = .envSetall d0 d1 d2 d3) ∨ ∃ id d0, i = .envSetp id d0) ∧
    (t.env.shape = s.env.shape ∨ ∃ sh, i = .envSetshape sh) ∧
    ((t.env.active = s.env.active ∧ t.env.phase = s.env.phase ∧ t.env.t = s.env.t) ∨
      i = .envStart ∨ (∃ d0, i = .envRun d0) ∨ i = .envRelease ∨ i = .envStop ∨
      (∃ d0 d1 d2 d3, i = .envSetall d0 d1 d2 d3) ∨ (∃ id d0, i = .envSetp id d0) ∨
      ∃ d0 d1, i = .engSample d0 d1))

/-- The value at the start of each timed phase (R101, R112 a): with elapsed time `+0.0` and a finite positive duration an
active envelope of any shape reads 0 in ATTACK, 1 in DECAY and, for a finite sustain level, that level in RELEASE. -/
def Obligations.PhaseStartValues : Prop :=
  ∀ s : State, s.env.active = true → s.env.t = .zero → s.env.sustain.isFinite = true →
    ∃ t r0, exec .envGet s = .next t ∧ t.rsp = some ⟨r0, 0⟩ ∧
      (s.env.phase = .attack → s.env.attack.isFinite = true → s.env.attack.gt .zero = true →
        F32.ofBits r0 = .zero) ∧
      (s.env.phase = .decay → s.env.decay.isFinite = true → s.env.decay.gt .zero = true →
        F32.ofBits r0 = .one) ∧
      (s.env.phase = .release → s.env.release.isFinite = true → s.env.release.gt .zero = true →
        (F32.ofBits r0).eq s.env.sustain = true)

/-- The window of R219: `ENV.START` with a zero attack leaves a state in which `ENV.GET` answers NaN, `ENV.RELEASE` enters
RELEASE with `env.t` NaN and stays active, and `ENV.SETP ATTACK` leaves ATTACK frozen with `env.t` NaN. -/
def Obligations.ZeroAttackWindow : Prop :=
  ∀ s t : State, s.env.attack.eq .zero = true → exec .envStart s = .next t →
    (∃ u r0, exec .envGet t = .next u ∧ u.rsp = some ⟨r0, 0⟩ ∧ F32.ofBits r0 = .nan) ∧
    (∃ u, exec .envRelease t = .next u ∧ u.env.active = true ∧ u.env.phase = .release ∧ u.env.t = .nan) ∧
    ∀ d0, ∃ u, exec (.envSetp .attack d0) t = .next u ∧ u.env.active = true ∧ u.env.phase = .attack ∧ u.env.t = .nan

/-! ## Unit OSC -/

/-- `OSC.SETF k` (R121) and `OSC.SETPS k` (R125). -/
def Obligations.OscSetfSetpsResult : Prop :=
  ∀ (k : OscId) (d0 d1 d2 d3 : Word) (s : State),
    decode ⟨BitVec.ofNat 16 (0x2000 + 16 * k.code), d0, d1, d2, d3⟩ = .ok (.oscSetf k d0) ∧
    decode ⟨BitVec.ofNat 16 (0x2300 + 16 * k.code), d0, d1, d2, d3⟩ = .ok (.oscSetps k d0) ∧
    exec (.oscSetf k d0) s =
      .next { s.setOsc k { s.osc k with freq := F32.ofBits d0 } with rsp := some ⟨0, 0⟩ } ∧
    exec (.oscSetps k d0) s =
      .next { s.setOsc k { s.osc k with shift := F32.ofBits d0 } with rsp := some ⟨0, 0⟩ }

/-- `OSC.GETF k` (R122), `OSC.GETPS k` (R124), `OSC.ISACT k` (R135). -/
def Obligations.OscGetfGetpsIsactResult : Prop :=
  ∀ (k : OscId) (d0 d1 d2 d3 : Word) (s : State),
    decode ⟨BitVec.ofNat 16 (0x2100 + 16 * k.code), d0, d1, d2, d3⟩ = .ok (.oscGetf k) ∧
    decode ⟨BitVec.ofNat 16 (0x2400 + 16 * k.code), d0, d1, d2, d3⟩ = .ok (.oscGetps k) ∧
    decode ⟨BitVec.ofNat 16 (0x2A00 + 16 * k.code), d0, d1, d2, d3⟩ = .ok (.oscIsact k) ∧
    (∃ r0 n, exec (.oscGetf k) s = .next { s with rsp := some ⟨r0, 0⟩, draws := n } ∧
      Reference.Carries r0 (s.osc k).freq) ∧
    (∃ r0 n, exec (.oscGetps k) s = .next { s with rsp := some ⟨r0, 0⟩, draws := n } ∧
      Reference.Carries r0 (s.osc k).shift) ∧
    exec (.oscIsact k) s = .next { s with rsp := some ⟨if (s.osc k).active then 1 else 0, 0⟩ }

/-- `OSC.SETW k, w` (R123). -/
def Obligations.OscSetwResult : Prop :=
  (∀ (k : OscId) (w : Waveform) (d0 d1 d2 d3 : Word),
    decode ⟨BitVec.ofNat 16 (0x2200 + 16 * k.code + w.code), d0, d1, d2, d3⟩ = .ok (.oscSetw k w)) ∧
  ∀ (k : OscId) (w : Waveform) (s : State),
    let o := s.osc k
    exec (.oscSetw k w) s = .next
      { s.setOsc k
          (if (Reference.frac (o.phase.add o.shift)).eq .zero then { o with sched := w, waveform := w }
           else { o with sched := w }) with
        rsp := some ⟨0, 0⟩ }

/-- `OSC.START k` (R126) and `OSC.STOP k` (R127). -/
def Obligations.OscStartStopResult : Prop :=
  ∀ (k : OscId) (d0 d1 d2 d3 : Word) (s : State),
    let o := s.osc k
    decode ⟨BitVec.ofNat 16 (0x2500 + 16 * k.code), d0, d1, d2, d3⟩ = .ok (.oscStart k) ∧
    decode ⟨BitVec.ofNat 16 (0x2600 + 16 * k.code), d0, d1, d2, d3⟩ = .ok (.oscStop k) ∧
    exec (.oscStart k) s = .next
      { s.setOsc k { o with phase := .zero, waveform := o.sched, active := true } with
        evstat := s.evstat ||| BitVec.ofNat 32 (2 ^ (3 * k.code)), rsp := some ⟨0, 0⟩ } ∧
    exec (.oscStop k) s = .next
      { s.setOsc k { o with phase := .zero, waveform := o.sched, active := false } with
        evstat := s.evstat ||| BitVec.ofNat 32 (2 ^ (3 * k.code + 2)), rsp := some ⟨0, 0⟩ }

/-- `OSC.RUN k` (R129): `osc_run(k, dt)` of R128. That a NaN or infinite shift alone leaves the phase finite, as the
pseudocode of R128 has it, is the model's choice against its prose and R225 (c) (log entry 21). -/
def Obligations.OscRunResult : Prop :=
  (∀ (k : OscId) (d0 d1 d2 d3 : Word),
    decode ⟨BitVec.ofNat 16 (0x2700 + 16 * k.code), d0, d1, d2, d3⟩ = .ok (.oscRun k d0)) ∧
  ∀ (k : OscId) (d0 : Word) (s : State),
    let r := Reference.oscRun (F32.ofBits d0) (s.osc k)
    exec (.oscRun k d0) s = .next
      { s.setOsc k r.1 with
        evstat := s.evstat ||| Reference.eventIf r.2 (BitVec.ofNat 32 (2 ^ (3 * k.code + 1)))
        rsp := some ⟨0, 0⟩ }

/-- `OSC.GETV k` (R130 to R132) and `OSC.GETI k` (R133, R134): the value and the integral of the active waveform at
`frac(phase + shift)`, for a running oscillator and for a stopped one. -/
def Obligations.OscGetvGetiResult : Prop :=
  (∀ (k : OscId) (d0 d1 d2 d3 : Word),
    decode ⟨BitVec.ofNat 16 (0x2800 + 16 * k.code), d0, d1, d2, d3⟩ = .ok (.oscGetv k) ∧
    decode ⟨BitVec.ofNat 16 (0x2900 + 16 * k.code), d0, d1, d2, d3⟩ = .ok (.oscGeti k)) ∧
  ∀ (k : OscId) (s : State),
    (∃ r0 n, exec (.oscGetv k) s = .next { s with rsp := some ⟨r0, 0⟩, draws := n } ∧
      Reference.Carries r0 (Reference.oscValue (s.osc k))) ∧
    ∃ r0 n, exec (.oscGeti k) s = .next { s with rsp := some ⟨r0, 0⟩, draws := n } ∧
      Reference.Carries r0 (Reference.oscIntegral (s.osc k))

/-- For a finite shifted phase the value and the integral that an oscillator answers lie in [-1, 1], and the position is
in [0, 1] (R86, R88 c, R130, R131). -/
def Obligations.OscRanges : Prop :=
  ∀ (k : OscId) (s : State), ((s.osc k).phase.add (s.osc k).shift).isFinite = true →
    let x := Reference.frac ((s.osc k).phase.add (s.osc k).shift)
    F32.zero.le x = true ∧ x.le .one = true ∧
    (∃ t r0, exec (.oscGetv k) s = .next t ∧ t.rsp = some ⟨r0, 0⟩ ∧
      F32.one.neg.le (F32.ofBits r0) = true ∧ (F32.ofBits r0).le .one = true) ∧
    ∃ t r0, exec (.oscGeti k) s = .next t ∧ t.rsp = some ⟨r0, 0⟩ ∧
      F32.one.neg.le (F32.ofBits r0) = true ∧ (F32.ofBits r0).le .one = true

/-- Which commands write an oscillator's items (R13), and that a command that changes the waveform leaves it at the
scheduled one (R14). -/
def Obligations.OscillatorWriters : Prop :=
  ∀ (i : Instr) (s t : State) (k : OscId), exec i s = .next t →
    let sampled := ∃ d0 d1, i = Instr.engSample d0 d1
    ((t.osc k).freq = (s.osc k).freq ∨ (∃ d0, i = .oscSetf k d0) ∨ sampled) ∧
    ((t.osc k).shift = (s.osc k).shift ∨ (∃ d0, i = .oscSetps k d0) ∨ sampled) ∧
    ((t.osc k).sched = (s.osc k).sched ∨ ∃ w, i = .oscSetw k w) ∧
    ((t.osc k).active = (s.osc k).active ∨ i = .oscStart k ∨ i = .oscStop k) ∧
    ((t.osc k).phase = (s.osc k).phase ∨ i = .oscStart k ∨ i = .oscStop k ∨ (∃ d0, i = .oscRun k d0) ∨ sampled) ∧
    ((t.osc k).waveform = (s.osc k).waveform ∨
      (t.osc k).waveform = (t.osc k).sched ∧
        ((∃ w, i = .oscSetw k w) ∨ i = .oscStart k ∨ i = .oscStop k ∨ (∃ d0, i = .oscRun k d0) ∨ sampled))

/-! ## Unit FAD -/

/-- `FAD.SET j` (R142), `FAD.SET2 j` (R143), `FAD.PROCEED j` (R144): the target and step written, then one step of R141;
and `FAD.GET j` (R145), which answers the value. That a value and a target of the same infinity give NaN, as the pseudocode of
R141 has it, is the model's choice against its prose and R225 (a) (log entry 22). -/
def Obligations.FadCommandResults : Prop :=
  (∀ (j : FadId) (d0 d1 d2 d3 : Word),
    decode ⟨BitVec.ofNat 16 (0x3000 + 16 * j.code), d0, d1, d2, d3⟩ = .ok (.fadSet j d0) ∧
    decode ⟨BitVec.ofNat 16 (0x3100 + 16 * j.code), d0, d1, d2, d3⟩ = .ok (.fadSet2 j d0 d1) ∧
    decode ⟨BitVec.ofNat 16 (0x3200 + 16 * j.code), d0, d1, d2, d3⟩ = .ok (.fadProceed j) ∧
    decode ⟨BitVec.ofNat 16 (0x3300 + 16 * j.code), d0, d1, d2, d3⟩ = .ok (.fadGet j)) ∧
  ∀ (j : FadId) (d0 d1 : Word) (s : State),
    let f := s.fad j
    exec (.fadSet j d0) s = .next
      { s.setFad j (Reference.proceed { f with target := F32.ofBits d0 }) with rsp := some ⟨0, 0⟩ } ∧
    exec (.fadSet2 j d0 d1) s = .next
      { s.setFad j (Reference.proceed { f with target := F32.ofBits d0, step := F32.ofBits d1 }) with
        rsp := some ⟨0, 0⟩ } ∧
    exec (.fadProceed j) s = .next { s.setFad j (Reference.proceed f) with rsp := some ⟨0, 0⟩ } ∧
    ∃ r0 n, exec (.fadGet j) s = .next { s with rsp := some ⟨r0, 0⟩, draws := n } ∧ Reference.Carries r0 f.value

/-- For finite operands a fader moves monotonically toward its target, never past it, and lands on it exactly from within
`|step|` (R17). -/
def Obligations.FaderNeverOvershoots : Prop :=
  ∀ (j : FadId) (s : State), (s.fad j).target.isFinite = true → (s.fad j).step.isFinite = true →
    (s.fad j).value.isFinite = true →
    ∃ t, exec (.fadProceed j) s = .next t ∧
      let a := Reference.value (s.fad j).value
      let b := Reference.value (t.fad j).value
      let z := Reference.value (s.fad j).target
      (t.fad j).value.isFinite = true ∧
      (a ≤ z → a ≤ b ∧ b ≤ z) ∧ (z ≤ a → z ≤ b ∧ b ≤ a) ∧
      (|z - a| ≤ |Reference.value (s.fad j).step| → (t.fad j).value = (s.fad j).target)

/-- Non-finite values stick (R225): (a) no command frees a fader whose value is NaN; (b) a NaN `env.t` of an active
envelope stays, with its phase, under `ENV.RUN` and `ENG.SAMPLE`; (c) a NaN oscillator phase stays under every command
but `OSC.START` and `OSC.STOP` of that oscillator. -/
def Obligations.NanSticks : Prop :=
  ∀ (i : Instr) (s t : State), exec i s = .next t →
    (∀ j, (s.fad j).value = .nan → (t.fad j).value = .nan) ∧
    (s.env.active = true → s.env.t = .nan → ((∃ d0, i = .envRun d0) ∨ ∃ d0 d1, i = .engSample d0 d1) →
      t.env.active = true ∧ t.env.t = .nan ∧ t.env.phase = s.env.phase) ∧
    ∀ k, (s.osc k).phase = .nan → i ≠ .oscStart k → i ≠ .oscStop k → (t.osc k).phase = .nan

/-- Which commands write a fader's items (R16, R143). -/
def Obligations.FaderWriters : Prop :=
  ∀ (i : Instr) (s t : State) (j : FadId), exec i s = .next t →
    (((t.fad j).target = (s.fad j).target ∧ (t.fad j).value = (s.fad j).value) ∨
      (∃ d0, i = .fadSet j d0) ∨ (∃ d0 d1, i = .fadSet2 j d0 d1) ∨ i = .fadProceed j ∨
      ∃ d0 d1, i = .engSample d0 d1) ∧
    ((t.fad j).step = (s.fad j).step ∨ ∃ d0 d1, i = .fadSet2 j d0 d1)

/-! ## Unit ENG -/

/-- `ENG.SAMPLE`, steps 1 to 9 of R150 (R152 to R155, R158 to R165): the oscillators, the envelope, the faders and the
event flags after the command. That a NaN or infinite shift alone leaves an oscillator's phase finite, and that a fader's
value and target of the same infinity give NaN, are the model's choices (log entries 21 and 22). -/
def Obligations.EngModulationResult : Prop :=
  ∀ (d0 d1 : Word) (s : State),
    let g := s.cfg
    let r := Reference.router g s.osc3 s.osc2 s.osc1
    let n := Reference.divisor g
    let v := Reference.envRun (F32.one.div g.rate) s.env
    let e := Reference.envValue v.1
    let signal := (r.signal.div n).mul e
    let integral := (r.integral.div n).mul e
    ∃ t, exec (.engSample d0 d1) s = .next t ∧
      t.osc3 = r.osc3 ∧ t.osc2 = r.osc2 ∧ t.osc1 = r.osc1 ∧ t.env = v.1 ∧
      t.fad0 = Reference.proceed { s.fad0 with target := (g.semi.sub .one).mul (integral.mul g.depth) } ∧
      t.fad1 = Reference.proceed { s.fad1 with target := F32.one.sub (g.trem.mul signal) } ∧
      t.fad2 = Reference.proceed { s.fad2 with target := (F32.one.sub g.bypass).mul g.drywet } ∧
      t.evstat = s.evstat ||| r.events ||| v.2 ∧
      t.cfg = s.cfg ∧ t.evmask = s.evmask ∧ t.accepted = s.accepted ∧ t.rst = s.rst

/-- `ENG.SAMPLE`, the outputs and the index fault of step 10 (R167 to R169): with the faders as the command leaves them
and the history as it leaves it, each channel answers `((1 - mix) * dry) + (mix * (amp * wet))`, a tap whose index fails
being NaN; `FAULT.IDX` is set exactly when an index fails. -/
def Obligations.EngOutputResult : Prop :=
  ∀ (d0 d1 : Word) (s : State),
    ∃ t r0 r1, exec (.engSample d0 d1) s = .next t ∧ t.rsp = some ⟨r0, r1⟩ ∧
      let u := s.cfg.bufofs
      let w := s.cfg.bufofs.add t.fad0.value
      let out (dry wet : F32) : F32 :=
        ((F32.one.sub t.fad2.value).mul dry).add (t.fad2.value.mul (t.fad1.value.mul wet))
      (∀ dry wet, Reference.IsTap u .ch0 t dry → Reference.IsTap w .ch0 t wet → Reference.Carries r0 (out dry wet)) ∧
      (∀ dry wet, Reference.IsTap u .ch1 t dry → Reference.IsTap w .ch1 t wet → Reference.Carries r1 (out dry wet)) ∧
      (Reference.inRange u → Reference.inRange w → t.fault = s.fault) ∧
      (¬(Reference.inRange u ∧ Reference.inRange w) → t.fault = s.fault ||| 2)

/-- `ENG.SAMPLE`, the push of step 10 (R166, R42): the two input lanes bit for bit into the slots at `WR`, `WR` advanced
modulo `CAP`, every other byte of the history as before, and the pushed words read back at delay 0. -/
def Obligations.EngHistoryResult : Prop :=
  ∀ (d0 d1 : Word) (s : State), ∃ t, exec (.engSample d0 d1) s = .next t ∧
    t.wr = (s.wr + 1) % Config.cap ∧
    Memory.readWord t.hist (histAddr .ch0 s.wr) = d0 ∧
    Memory.readWord t.hist (histAddr .ch1 s.wr) = d1 ∧
    (∀ a, (a < histAddr .ch0 s.wr ∨ histAddr .ch0 s.wr + 4 ≤ a) →
      (a < histAddr .ch1 s.wr ∨ histAddr .ch1 s.wr + 4 ≤ a) → Memory.read t.hist a = Memory.read s.hist a) ∧
    (s.wr < Config.cap → histRead Config.cap .ch0 0 t = d0 ∧ histRead Config.cap .ch1 0 t = d1)

/-- Only `ENG.SAMPLE` reaches the history space (R40, R51). -/
def Obligations.HistoryOnlyBySample : Prop :=
  ∀ (i : Instr) (s t : State), exec i s = .next t → (∀ d0 d1, i ≠ .engSample d0 d1) →
    t.wr = s.wr ∧ ∀ a, Memory.read t.hist a = Memory.read s.hist a

/-- What `ENG.SAMPLE` never writes (R171), with osc1 whole in USER mode (R161). -/
def Obligations.EngSampleNeverWrites : Prop :=
  ∀ (d0 d1 : Word) (s : State), ∃ t, exec (.engSample d0 d1) s = .next t ∧
    t.cfg = s.cfg ∧ (∀ j, (t.fad j).step = (s.fad j).step) ∧
    (∀ k, (t.osc k).sched = (s.osc k).sched ∧ (t.osc k).active = (s.osc k).active) ∧
    t.osc3.shift = s.osc3.shift ∧ (s.cfg.m1 = .user → t.osc1 = s.osc1) ∧
    t.env.attack = s.env.attack ∧ t.env.decay = s.env.decay ∧ t.env.sustain = s.env.sustain ∧
    t.env.release = s.env.release ∧ t.env.shape = s.env.shape ∧
    t.evmask = s.evmask ∧ t.fault.getLsbD 0 = s.fault.getLsbD 0

/-- On the reset state `ENG.SAMPLE` is a wire for finite inputs, up to the sign of a zero, and raises no fault (R150
example, R211). -/
def Obligations.SampleAtResetIsAWire : Prop :=
  ∀ d0 d1 : Word, (F32.ofBits d0).isFinite = true → (F32.ofBits d1).isFinite = true →
    ∃ t r0 r1, exec (.engSample d0 d1) State.reset = .next t ∧ t.rsp = some ⟨r0, r1⟩ ∧
      (F32.ofBits r0).eq (F32.ofBits d0) = true ∧ (F32.ofBits r1).eq (F32.ofBits d1) = true ∧ t.fault = 0

/-- The engine scenario of R170: osc3 and osc2 OFF, osc1 in LFO mode with TRIANGLE, the envelope sustained at 1: the
signal is the raw triangle wave at osc1's position after the advance, seen in the target of the amplitude fader. -/
def Obligations.TriangleReachesTheGain : Prop :=
  ∀ (d0 d1 : Word) (s : State), s.cfg.m3 = .off → s.cfg.m2 = .off → s.cfg.m1 = .lfo →
    s.osc1.waveform = .triangle → s.osc1.sched = .triangle →
    s.env.active = true → s.env.phase = .sustain → s.env.sustain = .one →
    ∃ t, exec (.engSample d0 d1) s = .next t ∧
      t.fad1.target =
        F32.one.sub (s.cfg.trem.mul (Reference.tri (Reference.frac (t.osc1.phase.add t.osc1.shift))))

/-- No command's result depends on `EVSTAT` or `EVMASK` (R193), but for the two reads of those registers. -/
def Obligations.EventsAreNeverRead : Prop :=
  ∀ (i : Instr) (s t : State) (a b : Word), i ≠ .sysCsrr .evstat → i ≠ .sysCsrr .evmask → exec i s = .next t →
    ∃ u, exec i { s with evstat := a, evmask := b } = .next u ∧
      { u with evstat := t.evstat, evmask := t.evmask } = t

/-! ## Unit SYS -/

/-- `SYS.CSRR` (R180): the register named, as a pattern, a packed status word, a code or the word itself; nothing else
changes but the model's own `draws` (log entry 3). -/
def Obligations.CsrrResult : Prop :=
  ∀ (r : Csr) (s : State), ∃ r0 n, exec (.sysCsrr r) s = .next { s with rsp := some ⟨r0, 0⟩, draws := n } ∧
    match r with
    | .envStat => r0.toNat = (if s.env.active then 1 else 0) + 2 * s.env.phase.code + 16 * s.env.shape.code
    | .envT => Reference.Carries r0 s.env.t
    | .envA => Reference.Carries r0 s.env.attack
    | .envD => Reference.Carries r0 s.env.decay
    | .envS => Reference.Carries r0 s.env.sustain
    | .envR => Reference.Carries r0 s.env.release
    | .oscStat k =>
      r0.toNat = (if (s.osc k).active then 1 else 0) + 2 * (s.osc k).waveform.code + 8 * (s.osc k).sched.code
    | .oscFreq k => Reference.Carries r0 (s.osc k).freq
    | .oscPhase k => Reference.Carries r0 (s.osc k).phase
    | .oscShift k => Reference.Carries r0 (s.osc k).shift
    | .oscF .osc1 => Reference.Carries r0 s.cfg.f1
    | .oscF .osc2 => Reference.Carries r0 s.cfg.f2
    | .oscF .osc3 => Reference.Carries r0 s.cfg.f3
    | .osc2A => Reference.Carries r0 s.cfg.a2
    | .osc3A => Reference.Carries r0 s.cfg.a3
    | .oscMode .osc1 => r0.toNat = s.cfg.m1.code
    | .oscMode .osc2 => r0.toNat = s.cfg.m2.code
    | .oscMode .osc3 => r0.toNat = s.cfg.m3.code
    | .fadTarget j => Reference.Carries r0 (s.fad j).target
    | .fadStep j => Reference.Carries r0 (s.fad j).step
    | .fadValue j => Reference.Carries r0 (s.fad j).value
    | .rate => Reference.Carries r0 s.cfg.rate
    | .depth => Reference.Carries r0 s.cfg.depth
    | .semi => Reference.Carries r0 s.cfg.semi
    | .trem => Reference.Carries r0 s.cfg.trem
    | .drywet => Reference.Carries r0 s.cfg.drywet
    | .bypass => Reference.Carries r0 s.cfg.bypass
    | .bufofs => Reference.Carries r0 s.cfg.bufofs
    | .latency => Reference.Carries r0 s.cfg.bufofs
    | .evstat => r0 = s.evstat
    | .evmask => r0 = s.evmask
    | .fault => r0 = s.fault

/-- `SYS.CSRW` (R181, R19, R25): the word of each of the sixteen RW numbers, with a legal value on its lane, is the write of
that register; each writable register takes the value of its lane, each legal code of a mode register its mode, `EVMASK` the
low twelve bits. -/
def Obligations.CsrwResult : Prop :=
  (∀ p ∈ [(0x14, Csr.oscF .osc1), (0x16, .oscMode .osc1), (0x24, .oscF .osc2), (0x25, .osc2A), (0x26, .oscMode .osc2),
      (0x34, .oscF .osc3), (0x35, .osc3A), (0x36, .oscMode .osc3), (0x50, .rate), (0x51, .depth), (0x52, .semi),
      (0x53, .trem), (0x54, .drywet), (0x55, .bypass), (0x56, .bufofs), (0x61, .evmask)],
    ∀ d d1 d2 d3 : Word, Reference.modeLegal p.1 d.toNat →
      decode ⟨BitVec.ofNat 16 (0x5100 + p.1), d, d1, d2, d3⟩ = .ok (.sysCsrw p.2 d)) ∧
  ∀ (d : Word) (s : State),
    let put (g : EngCfg) : State := { s with cfg := g, rsp := some ⟨0, 0⟩ }
    let v := F32.ofBits d
    exec (.sysCsrw (.oscF .osc1) d) s = .next (put { s.cfg with f1 := v }) ∧
    exec (.sysCsrw (.oscF .osc2) d) s = .next (put { s.cfg with f2 := v }) ∧
    exec (.sysCsrw (.oscF .osc3) d) s = .next (put { s.cfg with f3 := v }) ∧
    exec (.sysCsrw .osc2A d) s = .next (put { s.cfg with a2 := v }) ∧
    exec (.sysCsrw .osc3A d) s = .next (put { s.cfg with a3 := v }) ∧
    exec (.sysCsrw .rate d) s = .next (put { s.cfg with rate := v }) ∧
    exec (.sysCsrw .depth d) s = .next (put { s.cfg with depth := v }) ∧
    exec (.sysCsrw .semi d) s = .next (put { s.cfg with semi := v }) ∧
    exec (.sysCsrw .trem d) s = .next (put { s.cfg with trem := v }) ∧
    exec (.sysCsrw .drywet d) s = .next (put { s.cfg with drywet := v }) ∧
    exec (.sysCsrw .bypass d) s = .next (put { s.cfg with bypass := v }) ∧
    exec (.sysCsrw .bufofs d) s = .next (put { s.cfg with bufofs := v }) ∧
    (∀ m : RouteMode, d.toNat = m.code →
      exec (.sysCsrw (.oscMode .osc3) d) s = .next (put { s.cfg with m3 := m })) ∧
    (∀ m : RouteMode, m ∈ [RouteMode.off, .add, .fm1, .pm1, .am1] → d.toNat = m.code →
      exec (.sysCsrw (.oscMode .osc2) d) s = .next (put { s.cfg with m2 := m })) ∧
    (∀ m : Osc1Mode, d.toNat = m.code →
      exec (.sysCsrw (.oscMode .osc1) d) s = .next (put { s.cfg with m1 := m })) ∧
    exec (.sysCsrw .evmask d) s = .next { s with evmask := d &&& 0x00000FFF, rsp := some ⟨0, 0⟩ }

/-- The illegal writes of R181 (R19, R25): through the port, a command word of `SYS.CSRW` whose register is unmapped or
read-only, or whose lane is no legal code of the mode register it names, sets `FAULT.ILL` and leaves every register. -/
def Obligations.IllegalCsrwChangesNoRegister : Prop :=
  ∀ (s : State) (idx : Nat) (d0 d1 d2 d3 : Word) (rest : List Command), idx < 256 → s.rst = false →
    s.accepted = ⟨BitVec.ofNat 16 (0x5100 + idx), d0, d1, d2, d3⟩ :: rest →
    ¬(Reference.writable idx ∧ Reference.modeLegal idx d0.toNat) →
    step s = .next { s with accepted := rest, fault := s.fault ||| 1, rsp := some ⟨0, 0⟩ }

/-- A register write is seen by the very next command (R223, R181, R20): what `SYS.CSRR` answers after a legal `SYS.CSRW`
of the same register, and what `LATENCY` and the `latency` port show after a write of `BUFOFS`. That the port shows a quiet
pattern for a NaN `BUFOFS` is the model's choice (log entry 20). -/
def Obligations.CsrrReadsWhatCsrwWrote : Prop :=
  ∀ (r : Csr) (d : Word) (s t : State), r.writable = true → r.admits d = true → exec (.sysCsrw r d) s = .next t →
    ∃ u r0, exec (.sysCsrr r) t = .next u ∧ u.rsp = some ⟨r0, 0⟩ ∧
      (r = .evmask → r0 = d &&& 0x00000FFF) ∧
      ((∃ k, r = .oscMode k) → r0 = d) ∧
      (r ≠ .evmask → (∀ k, r ≠ .oscMode k) → Reference.Carries r0 (F32.ofBits d)) ∧
      (r = .bufofs → Reference.Carries t.latencyPort (F32.ofBits d) ∧
        ∃ u' r0', exec (.sysCsrr .latency) t = .next u' ∧ u'.rsp = some ⟨r0', 0⟩ ∧
          Reference.Carries r0' (F32.ofBits d))

/-- The configuration registers are written by `SYS.CSRW` only (R18, R171, R181), and so is `EVMASK` (R200). -/
def Obligations.ConfigurationOnlyByCsrw : Prop :=
  ∀ (i : Instr) (s t : State), exec i s = .next t → (∀ r d, i ≠ .sysCsrw r d) →
    t.cfg = s.cfg ∧ t.evmask = s.evmask

/-- `SYS.EVCLR` (R182). -/
def Obligations.EvclrResult : Prop :=
  (∀ d0 d1 d2 d3, decode ⟨0x5200, d0, d1, d2, d3⟩ = .ok (.sysEvclr d0)) ∧
    ∀ (d0 : Word) (s : State), ∃ t, exec (.sysEvclr d0) s = .next t ∧
      (∀ n, t.evstat.getLsbD n = (s.evstat.getLsbD n && !d0.getLsbD n)) ∧
      t = { s with evstat := t.evstat, rsp := some ⟨0, 0⟩ }

/-- The sticky flags (R190, R191, R193): no command clears a fault flag, only `SYS.EVCLR` clears an event flag, and a
command of the set sets no fault flag but `IDX`, which only `ENG.SAMPLE` sets. -/
def Obligations.FlagsAreSticky : Prop :=
  ∀ (i : Instr) (s t : State), exec i s = .next t →
    (∀ n, s.fault.getLsbD n = true → t.fault.getLsbD n = true) ∧
    ((∀ d0, i ≠ .sysEvclr d0) → ∀ n, s.evstat.getLsbD n = true → t.evstat.getLsbD n = true) ∧
    (i.wellFormed = true → ∀ n, t.fault.getLsbD n = true → s.fault.getLsbD n = true ∨
      (n = 1 ∧ ∃ d0 d1, i = .engSample d0 d1))

/-- The set points of the events (R194, R195): a command that sets an event flag is one of those listed for it. -/
def Obligations.EventSetPoints : Prop :=
  ∀ (i : Instr) (s t : State) (n : Nat), exec i s = .next t → t.evstat.getLsbD n = true →
    s.evstat.getLsbD n = true ∨
    (n = 0 ∧ i = .envStart) ∨
    (n = 1 ∧ ((∃ d0, i = .envRun d0) ∨ (∃ d0 d1, i = .engSample d0 d1) ∨ i = .envRelease ∨
      (∃ d0 d1 d2 d3, i = .envSetall d0 d1 d2 d3) ∨ ∃ id d0, i = .envSetp id d0)) ∨
    (n = 2 ∧ (i = .envStop ∨ (∃ d0, i = .envRun d0) ∨ (∃ d0 d1, i = .engSample d0 d1) ∨ i = .envRelease ∨
      (∃ d0 d1 d2 d3, i = .envSetall d0 d1 d2 d3) ∨ ∃ id d0, i = .envSetp id d0)) ∨
    ∃ k, (n = 3 * k.code ∧ i = .oscStart k) ∨
      (n = 3 * k.code + 1 ∧ ((∃ d0, i = .oscRun k d0) ∨ ∃ d0 d1, i = .engSample d0 d1)) ∨
      (n = 3 * k.code + 2 ∧ i = .oscStop k)

/-- The outputs `irq` (R196) and `latency` (R20). That `latency` shows a quiet pattern for a NaN `BUFOFS` is the model's
choice (log entry 20). -/
def Obligations.IrqAndLatencyOutputs : Prop :=
  ∀ s : State, (s.irq = true ↔ ∃ n, s.evstat.getLsbD n = true ∧ s.evmask.getLsbD n = true) ∧
    Reference.Carries s.latencyPort s.cfg.bufofs

/-! ## History -/

/-- The history holds the pushes (R40 to R44, R51): after any list of pushes into a history of any capacity, the read at
delay `n` is the push `n` places before the last, and further back what it was before. -/
def Obligations.HistoryHoldsThePushes : Prop :=
  ∀ (cap : Nat) (s : State) (ps : List (Word × Word)) (n : Nat), s.wr < cap → n < cap →
    let t := ps.foldl (fun u p => histPush cap p.1 p.2 u) s
    (∀ h : n < ps.length, histRead cap .ch0 n t = (ps[ps.length - 1 - n]'(by omega)).1 ∧
      histRead cap .ch1 n t = (ps[ps.length - 1 - n]'(by omega)).2) ∧
    (ps.length ≤ n → ∀ c, histRead cap c n t = histRead cap c (n - ps.length) s)

/-! ## Numerics -/

/-- The five arithmetic operations on finite operands return the exact result rounded once, to nearest, ties to even
(R82). -/
def Obligations.ArithmeticRoundsToNearestEven : Prop :=
  ∀ a b : F32, a.isFinite = true → b.isFinite = true →
    let x : ℝ := Reference.value a
    let y : ℝ := Reference.value b
    Reference.RoundsTo (x + y) (a.add b) ∧
    Reference.RoundsTo (x - y) (a.sub b) ∧
    Reference.RoundsTo (x * y) (a.mul b) ∧
    (y ≠ 0 → Reference.RoundsTo (x / y) (a.div b)) ∧
    (0 ≤ x → Reference.RoundsTo (Real.sqrt x) a.sqrt)

/-- The special cases of R82. -/
def Obligations.ArithmeticSpecialCases : Prop :=
  (∀ a : F32, F32.nan.add a = .nan ∧ a.add .nan = .nan ∧ F32.nan.sub a = .nan ∧ a.sub .nan = .nan ∧
    F32.nan.mul a = .nan ∧ a.mul .nan = .nan ∧ F32.nan.div a = .nan ∧ a.div .nan = .nan) ∧
  F32.nan.sqrt = .nan ∧
  (∀ s, (F32.inf s).sub (.inf s) = .nan ∧ (F32.inf s).add (.inf !s) = .nan) ∧
  (∀ s u, (F32.inf s).mul (.fin u 0 0) = .nan ∧ (F32.fin u 0 0).mul (.inf s) = .nan ∧
    (F32.fin s 0 0).div (.fin u 0 0) = .nan ∧ (F32.inf s).div (.inf u) = .nan) ∧
  (∀ a : F32, a.isFinite = true → Reference.value a < 0 → a.sqrt = .nan) ∧
  (∀ (a : F32) (s : Bool), a.isFinite = true →
    (0 < Reference.value a → a.div (.fin s 0 0) = .inf s) ∧
    (Reference.value a < 0 → a.div (.fin s 0 0) = .inf !s)) ∧
  (F32.fin true 0 0).sqrt = .fin true 0 0 ∧ (F32.inf false).sqrt = .inf false ∧ (F32.inf true).sqrt = .nan ∧
  (∀ a : F32, a.isFinite = true → a.sub a = .zero) ∧
  F32.zero.add (.fin true 0 0) = .zero ∧ (F32.fin true 0 0).add .zero = .zero

/-- Comparisons (R83) and signs (R84): the comparisons of finite numbers by their values, of an infinity with a finite number
and with an infinity by its sign, and with NaN; `-a` and `abs` on the sign bit of every pattern; `sgn` of every real. -/
def Obligations.ComparisonsAndSigns : Prop :=
  (∀ a : F32, (a.isNan = true ↔ a = .nan) ∧ (a.isFinite = true ↔ a ≠ .nan ∧ ∀ s, a ≠ .inf s)) ∧
  (∀ a b : F32, a.isFinite = true → b.isFinite = true →
    (a.lt b = true ↔ Reference.value a < Reference.value b) ∧
    (a.le b = true ↔ Reference.value a ≤ Reference.value b) ∧
    (a.gt b = true ↔ Reference.value b < Reference.value a) ∧
    (a.ge b = true ↔ Reference.value b ≤ Reference.value a) ∧
    (a.eq b = true ↔ Reference.value a = Reference.value b) ∧
    (a.ne b = true ↔ Reference.value a ≠ Reference.value b)) ∧
  (∀ a : F32, ∀ p ∈ [(a, F32.nan), (F32.nan, a)],
    p.1.lt p.2 = false ∧ p.1.le p.2 = false ∧ p.1.gt p.2 = false ∧ p.1.ge p.2 = false ∧ p.1.eq p.2 = false ∧
      p.1.ne p.2 = true) ∧
  (∀ (s : Bool) (a : F32), a.isFinite = true →
    (F32.inf s).lt a = s ∧ (F32.inf s).le a = s ∧ (F32.inf s).gt a = !s ∧ (F32.inf s).ge a = !s ∧
    (F32.inf s).eq a = false ∧ (F32.inf s).ne a = true ∧
    a.lt (.inf s) = !s ∧ a.le (.inf s) = !s ∧ a.gt (.inf s) = s ∧ a.ge (.inf s) = s ∧
    a.eq (.inf s) = false ∧ a.ne (.inf s) = true) ∧
  (∀ s u : Bool,
    (F32.inf s).lt (.inf u) = (s && !u) ∧ (F32.inf s).le (.inf u) = (s || !u) ∧
    (F32.inf s).gt (.inf u) = (u && !s) ∧ (F32.inf s).ge (.inf u) = (u || !s) ∧
    (F32.inf s).eq (.inf u) = (s == u) ∧ (F32.inf s).ne (.inf u) = (s != u)) ∧
  (∀ w : Word, (F32.ofBits w).neg = F32.ofBits (w ^^^ 0x80000000) ∧
    (F32.ofBits w).abs = F32.ofBits (w &&& 0x7FFFFFFF)) ∧
  (∀ a : F32, (a.gt .zero = true → a.sgn = .one) ∧ (a.lt .zero = true → a.sgn = F32.ofBits 0xBF800000) ∧
    (a.eq .zero = true → a.sgn = a)) ∧
  (∀ a : F32, a.isFinite = true →
    Reference.value a.neg = -Reference.value a ∧ Reference.value a.abs = |Reference.value a| ∧
    (0 < Reference.value a → a.sgn = .one) ∧ (Reference.value a < 0 → a.sgn = F32.one.neg) ∧
    (Reference.value a = 0 → a.sgn = a)) ∧
  F32.nan.neg = .nan ∧ F32.nan.abs = .nan ∧ F32.nan.sgn = .nan

/-- `floor` (R85), `frac` and `wrap` (R86), `trunc` (R87). The range of `frac`, where it is exact, and that it is 1 exactly for
`-2^-25 <= a < 0` are the spec's own inference (R86: "[derived: from rule R82 and rule R85]"); that `trunc` has no value for
NaN and the infinities says R87's "for finite `a` only". -/
def Obligations.FloorFracTruncLaws : Prop :=
  (∀ a : F32, a.frac = a.sub a.floor ∧ a.wrap = a.sub a.floor) ∧
  (∀ a : F32, a.isFinite = true →
    (a.floor.isFinite = true ∧ Reference.value a.floor = ⌊Reference.value a⌋) ∧
    (2 ^ 23 ≤ |Reference.value a| → a.floor = a) ∧
    (F32.zero.le a.frac = true ∧ a.frac.le .one = true) ∧
    (¬(-1 < Reference.value a ∧ Reference.value a < 0) →
      Reference.value a.frac = Reference.value a - ⌊Reference.value a⌋) ∧
    (-1 < Reference.value a → Reference.value a < 0 → Reference.RoundsTo (1 + (Reference.value a : ℝ)) a.frac) ∧
    a.wrap = a.frac ∧
    (a.frac = .one ↔ -(2 : ℚ) ^ (-25 : ℤ) ≤ Reference.value a ∧ Reference.value a < 0) ∧
    (0 ≤ Reference.value a → a.trunc = some ⌊Reference.value a⌋) ∧
    (Reference.value a ≤ 0 → a.trunc = some ⌈Reference.value a⌉)) ∧
  (∀ s, (F32.inf s).floor = .inf s ∧ (F32.inf s).frac = .nan ∧ (F32.inf s).wrap = .nan ∧ (F32.inf s).trunc = none) ∧
  F32.nan.floor = .nan ∧ F32.nan.frac = .nan ∧ F32.nan.wrap = .nan ∧ F32.nan.trunc = none ∧
  (F32.fin true 0 0).floor = .fin true 0 0 ∧ (F32.fin true 0 0).frac = .zero

/-- The laws of `sin` and `cos` (R88): a to c; d is that they are functions. -/
def Obligations.SineAndCosineLaws : Prop :=
  (F32.nan.sin = .nan ∧ F32.nan.cos = .nan ∧ ∀ s, (F32.inf s).sin = .nan ∧ (F32.inf s).cos = .nan) ∧
  (∀ s, (F32.fin s 0 0).sin = .fin s 0 0 ∧ (F32.fin s 0 0).cos = .one) ∧
  ∀ a : F32, a.isFinite = true →
    (F32.one.neg.le a.sin = true ∧ a.sin.le .one = true) ∧ F32.one.neg.le a.cos = true ∧ a.cos.le .one = true

/-- `real` and `bits` (R81, R64): a finite or infinite value moves bit-exactly in both directions; a NaN pattern is read as
the one NaN, and the pattern that leaves for a NaN, whichever the free value is (log entry 3), is a quiet NaN. The machine's
constants are the reals of these patterns: the literals of R6, and `HALF_PI` and `TWO_PI` of R89. -/
def Obligations.RealsMoveBitExactly : Prop :=
  (∀ (n : Nat) (v : F32), Reference.Carries (v.bits n) v) ∧
  (∀ (n : Nat) (w : Word), F32.ofBits w ≠ .nan → (F32.ofBits w).bits n = w) ∧
  (∀ w : Word, F32.ofBits w = .nan ↔ (w.toNat / 2 ^ 23 % 256 = 255 ∧ w.toNat % 2 ^ 23 ≠ 0)) ∧
  F32.zero = F32.ofBits 0x00000000 ∧ F32.quarter = F32.ofBits 0x3E800000 ∧ F32.half = F32.ofBits 0x3F000000 ∧
  F32.threeQuarters = F32.ofBits 0x3F400000 ∧ F32.one = F32.ofBits 0x3F800000 ∧ F32.two = F32.ofBits 0x40000000 ∧
  F32.four = F32.ofBits 0x40800000 ∧ F32.halfPi = F32.ofBits 0x3FC90FDB ∧ F32.twoPi = F32.ofBits 0x40C90FDB
end

