-- ==== Sys2Proof/Laws/Decode.lean ====
section
/-! SUPPORT. Laws/Decode.lean: the fields of a command word as numbers (spec/30_encoding.md R62), of a word and of what the
encoder writes, and the register numbers both ways (spec/10_state.md R25). -/

set_option Elab.async false

namespace Sys2Proof

/-- The fields of a command word are the digits of its number. -/
theorem fields_toNat (cw : CmdWord) :
    unitOf cw = cw.toNat / 4096 ∧ opOf cw = cw.toNat / 256 % 16 ∧ selOf cw = cw.toNat / 16 % 16 ∧
      immOf cw = cw.toNat % 16 ∧ idxOf cw = cw.toNat % 256 := by
  have h := cw.isLt
  unfold unitOf opOf selOf immOf idxOf
  simp only [BitVec.extractLsb'_toNat, Nat.shiftRight_eq_div_pow] at h ⊢
  norm_num at h ⊢
  omega

/-- The number of a format U word. -/
theorem formatU_toNat (u o s i : Nat) (hu : u < 16) (ho : o < 16) (hs : s < 16) (hi : i < 16) :
    (formatU u o s i).toNat = 4096 * u + 256 * o + 16 * s + i := by
  unfold formatU
  simp only [BitVec.toNat_append, BitVec.toNat_ofNat]
  rw [Nat.mod_eq_of_lt (by omega : u < 2 ^ 4), Nat.mod_eq_of_lt (by omega : o < 2 ^ 4),
    Nat.mod_eq_of_lt (by omega : s < 2 ^ 4), Nat.mod_eq_of_lt (by omega : i < 2 ^ 4),
    ← Nat.shiftLeft_add_eq_or_of_lt (by omega), ← Nat.shiftLeft_add_eq_or_of_lt (by omega),
    ← Nat.shiftLeft_add_eq_or_of_lt (by omega)]
  simp only [Nat.shiftLeft_eq]
  omega

/-- The number of a format C word. -/
theorem formatC_toNat (o x : Nat) (ho : o < 16) (hi : x < 256) : (formatC o x).toNat = 4096 * 5 + 256 * o + x := by
  unfold formatC
  simp only [BitVec.toNat_append, BitVec.toNat_ofNat]
  rw [Nat.mod_eq_of_lt (by omega : o < 2 ^ 4), Nat.mod_eq_of_lt (by omega : x < 2 ^ 8),
    ← Nat.shiftLeft_add_eq_or_of_lt (by omega), ← Nat.shiftLeft_add_eq_or_of_lt (by omega)]
  simp only [Nat.shiftLeft_eq]
  omega

/-- The fields of a format U word. -/
theorem formatU_fields (u o s i : Nat) (hu : u < 16) (ho : o < 16) (hs : s < 16) (hi : i < 16) :
    unitOf (formatU u o s i) = u ∧ opOf (formatU u o s i) = o ∧ selOf (formatU u o s i) = s ∧
      immOf (formatU u o s i) = i := by
  have h := fields_toNat (formatU u o s i)
  rw [formatU_toNat u o s i hu ho hs hi] at h
  omega

/-- The fields of a format C word. -/
theorem formatC_fields (o x : Nat) (ho : o < 16) (hx : x < 256) :
    unitOf (formatC o x) = 5 ∧ opOf (formatC o x) = o ∧ idxOf (formatC o x) = x := by
  have h := fields_toNat (formatC o x)
  rw [formatC_toNat o x ho hx] at h
  omega

/-- A register's number names that register. -/
theorem Csr.ofNum_of_num (r : Csr) : Csr.ofNum r.num = some r := by
  cases r <;> (try rfl) <;> rename_i k <;> cases k <;> rfl

/-- A register's number fits the field `idx`. -/
theorem Csr.num_lt (r : Csr) : r.num < 256 := by
  cases r <;> (try decide) <;> rename_i k <;> cases k <;> decide

/-- A number names the register whose number it is. -/
theorem Csr.num_of_ofNum : ∀ n, n < 256 → ∀ r, Csr.ofNum n = some r → r.num = n := by decide +kernel

/-- A `SYS.CSRW` word decodes by the register its low byte names: the write where the register is writable and admits the
lane, a refusal by name otherwise (R68, R69). -/
theorem decode_csrwWord (n : Nat) (hn : n < 256) (d d1 d2 d3 : Word) :
    decode ⟨BitVec.ofNat 16 (0x5100 + n), d, d1, d2, d3⟩ =
      match Csr.ofNum n with
      | none => .error .unmappedCsr
      | some r =>
        if !r.writable then .error .readOnlyCsr
        else if !r.admits d then .error .illegalMode
        else .ok (.sysCsrw r d) := by
  have hw : (BitVec.ofNat 16 (0x5100 + n)).toNat = 0x5100 + n := by rw [BitVec.toNat_ofNat]; omega
  obtain ⟨hu, ho, -, -, hi⟩ := fields_toNat (BitVec.ofNat 16 (0x5100 + n))
  rw [hw] at hu ho hi
  have hu' : (0x5100 + n) / 4096 = 5 := by omega
  have ho' : (0x5100 + n) / 256 % 16 = 1 := by omega
  have hi' : (0x5100 + n) % 256 = n := by omega
  simp only [decode, decodeSys, decodeCsrw, hu, ho, hi, hu', ho', hi'] <;> cases Csr.ofNum n <;> rfl

/-- An oscillator's number names it. -/
theorem OscId.ofCode_code (k : OscId) : OscId.ofCode k.code = some k := by cases k <;> rfl

/-- A fader's number names it. -/
theorem FadId.ofCode_code (j : FadId) : FadId.ofCode j.code = some j := by cases j <;> rfl

end Sys2Proof
end

