-- ==== Sys2Proof/Laws/State.lean ====
section
/-! SUPPORT. Laws/State.lean: what each update of the state does to each field, and to the instances that `sel` selects.
Every lemma holds by unfolding one update, so that no later proof has to. -/

set_option Elab.async false

namespace Sys2Proof.Machine

@[simp] theorem setEnv_env (s : State) (e : Env) : (s.setEnv e).env = e := rfl
@[simp] theorem setEnv_osc1 (s : State) (e : Env) : (s.setEnv e).osc1 = s.osc1 := rfl
@[simp] theorem setEnv_osc2 (s : State) (e : Env) : (s.setEnv e).osc2 = s.osc2 := rfl
@[simp] theorem setEnv_osc3 (s : State) (e : Env) : (s.setEnv e).osc3 = s.osc3 := rfl
@[simp] theorem setEnv_fad0 (s : State) (e : Env) : (s.setEnv e).fad0 = s.fad0 := rfl
@[simp] theorem setEnv_fad1 (s : State) (e : Env) : (s.setEnv e).fad1 = s.fad1 := rfl
@[simp] theorem setEnv_fad2 (s : State) (e : Env) : (s.setEnv e).fad2 = s.fad2 := rfl
@[simp] theorem setEnv_cfg (s : State) (e : Env) : (s.setEnv e).cfg = s.cfg := rfl
@[simp] theorem setEnv_evstat (s : State) (e : Env) : (s.setEnv e).evstat = s.evstat := rfl
@[simp] theorem setEnv_evmask (s : State) (e : Env) : (s.setEnv e).evmask = s.evmask := rfl
@[simp] theorem setEnv_fault (s : State) (e : Env) : (s.setEnv e).fault = s.fault := rfl
@[simp] theorem setEnv_hist (s : State) (e : Env) : (s.setEnv e).hist = s.hist := rfl
@[simp] theorem setEnv_wr (s : State) (e : Env) : (s.setEnv e).wr = s.wr := rfl
@[simp] theorem setEnv_accepted (s : State) (e : Env) : (s.setEnv e).accepted = s.accepted := rfl
@[simp] theorem setEnv_rst (s : State) (e : Env) : (s.setEnv e).rst = s.rst := rfl
@[simp] theorem setEnv_rsp (s : State) (e : Env) : (s.setEnv e).rsp = s.rsp := rfl
@[simp] theorem setEnv_draws (s : State) (e : Env) : (s.setEnv e).draws = s.draws := rfl
@[simp] theorem setEnv_osc (s : State) (e : Env) (k : OscId) : (s.setEnv e).osc k = s.osc k := by cases k <;> rfl
@[simp] theorem setEnv_fad (s : State) (e : Env) (k : FadId) : (s.setEnv e).fad k = s.fad k := by cases k <;> rfl
@[simp] theorem setEnv_baseFreq (s : State) (e : Env) (k : OscId) : (s.setEnv e).baseFreq k = s.baseFreq k := by cases k <;> rfl

@[simp] theorem respond_env (s : State) (a b : Word) : (respond a b s).env = s.env := rfl
@[simp] theorem respond_osc1 (s : State) (a b : Word) : (respond a b s).osc1 = s.osc1 := rfl
@[simp] theorem respond_osc2 (s : State) (a b : Word) : (respond a b s).osc2 = s.osc2 := rfl
@[simp] theorem respond_osc3 (s : State) (a b : Word) : (respond a b s).osc3 = s.osc3 := rfl
@[simp] theorem respond_fad0 (s : State) (a b : Word) : (respond a b s).fad0 = s.fad0 := rfl
@[simp] theorem respond_fad1 (s : State) (a b : Word) : (respond a b s).fad1 = s.fad1 := rfl
@[simp] theorem respond_fad2 (s : State) (a b : Word) : (respond a b s).fad2 = s.fad2 := rfl
@[simp] theorem respond_cfg (s : State) (a b : Word) : (respond a b s).cfg = s.cfg := rfl
@[simp] theorem respond_evstat (s : State) (a b : Word) : (respond a b s).evstat = s.evstat := rfl
@[simp] theorem respond_evmask (s : State) (a b : Word) : (respond a b s).evmask = s.evmask := rfl
@[simp] theorem respond_fault (s : State) (a b : Word) : (respond a b s).fault = s.fault := rfl
@[simp] theorem respond_hist (s : State) (a b : Word) : (respond a b s).hist = s.hist := rfl
@[simp] theorem respond_wr (s : State) (a b : Word) : (respond a b s).wr = s.wr := rfl
@[simp] theorem respond_accepted (s : State) (a b : Word) : (respond a b s).accepted = s.accepted := rfl
@[simp] theorem respond_rst (s : State) (a b : Word) : (respond a b s).rst = s.rst := rfl
@[simp] theorem respond_rsp (s : State) (a b : Word) : (respond a b s).rsp = some ⟨a, b⟩ := rfl
@[simp] theorem respond_draws (s : State) (a b : Word) : (respond a b s).draws = s.draws := rfl
@[simp] theorem respond_osc (s : State) (a b : Word) (k : OscId) : (respond a b s).osc k = s.osc k := by cases k <;> rfl
@[simp] theorem respond_fad (s : State) (a b : Word) (k : FadId) : (respond a b s).fad k = s.fad k := by cases k <;> rfl
@[simp] theorem respond_baseFreq (s : State) (a b : Word) (k : OscId) : (respond a b s).baseFreq k = s.baseFreq k := by cases k <;> rfl

@[simp] theorem respondNone_env (s : State) : (respondNone s).env = s.env := rfl
@[simp] theorem respondNone_osc1 (s : State) : (respondNone s).osc1 = s.osc1 := rfl
@[simp] theorem respondNone_osc2 (s : State) : (respondNone s).osc2 = s.osc2 := rfl
@[simp] theorem respondNone_osc3 (s : State) : (respondNone s).osc3 = s.osc3 := rfl
@[simp] theorem respondNone_fad0 (s : State) : (respondNone s).fad0 = s.fad0 := rfl
@[simp] theorem respondNone_fad1 (s : State) : (respondNone s).fad1 = s.fad1 := rfl
@[simp] theorem respondNone_fad2 (s : State) : (respondNone s).fad2 = s.fad2 := rfl
@[simp] theorem respondNone_cfg (s : State) : (respondNone s).cfg = s.cfg := rfl
@[simp] theorem respondNone_evstat (s : State) : (respondNone s).evstat = s.evstat := rfl
@[simp] theorem respondNone_evmask (s : State) : (respondNone s).evmask = s.evmask := rfl
@[simp] theorem respondNone_fault (s : State) : (respondNone s).fault = s.fault := rfl
@[simp] theorem respondNone_hist (s : State) : (respondNone s).hist = s.hist := rfl
@[simp] theorem respondNone_wr (s : State) : (respondNone s).wr = s.wr := rfl
@[simp] theorem respondNone_accepted (s : State) : (respondNone s).accepted = s.accepted := rfl
@[simp] theorem respondNone_rst (s : State) : (respondNone s).rst = s.rst := rfl
@[simp] theorem respondNone_rsp (s : State) : (respondNone s).rsp = some ⟨0, 0⟩ := rfl
@[simp] theorem respondNone_draws (s : State) : (respondNone s).draws = s.draws := rfl
@[simp] theorem respondNone_osc (s : State) (k : OscId) : (respondNone s).osc k = s.osc k := by cases k <;> rfl
@[simp] theorem respondNone_fad (s : State) (k : FadId) : (respondNone s).fad k = s.fad k := by cases k <;> rfl
@[simp] theorem respondNone_baseFreq (s : State) (k : OscId) : (respondNone s).baseFreq k = s.baseFreq k := by cases k <;> rfl

@[simp] theorem respondWord_env (s : State) (w : Word) : (respondWord w s).env = s.env := rfl
@[simp] theorem respondWord_osc1 (s : State) (w : Word) : (respondWord w s).osc1 = s.osc1 := rfl
@[simp] theorem respondWord_osc2 (s : State) (w : Word) : (respondWord w s).osc2 = s.osc2 := rfl
@[simp] theorem respondWord_osc3 (s : State) (w : Word) : (respondWord w s).osc3 = s.osc3 := rfl
@[simp] theorem respondWord_fad0 (s : State) (w : Word) : (respondWord w s).fad0 = s.fad0 := rfl
@[simp] theorem respondWord_fad1 (s : State) (w : Word) : (respondWord w s).fad1 = s.fad1 := rfl
@[simp] theorem respondWord_fad2 (s : State) (w : Word) : (respondWord w s).fad2 = s.fad2 := rfl
@[simp] theorem respondWord_cfg (s : State) (w : Word) : (respondWord w s).cfg = s.cfg := rfl
@[simp] theorem respondWord_evstat (s : State) (w : Word) : (respondWord w s).evstat = s.evstat := rfl
@[simp] theorem respondWord_evmask (s : State) (w : Word) : (respondWord w s).evmask = s.evmask := rfl
@[simp] theorem respondWord_fault (s : State) (w : Word) : (respondWord w s).fault = s.fault := rfl
@[simp] theorem respondWord_hist (s : State) (w : Word) : (respondWord w s).hist = s.hist := rfl
@[simp] theorem respondWord_wr (s : State) (w : Word) : (respondWord w s).wr = s.wr := rfl
@[simp] theorem respondWord_accepted (s : State) (w : Word) : (respondWord w s).accepted = s.accepted := rfl
@[simp] theorem respondWord_rst (s : State) (w : Word) : (respondWord w s).rst = s.rst := rfl
@[simp] theorem respondWord_rsp (s : State) (w : Word) : (respondWord w s).rsp = some ⟨w, 0⟩ := rfl
@[simp] theorem respondWord_draws (s : State) (w : Word) : (respondWord w s).draws = s.draws := rfl
@[simp] theorem respondWord_osc (s : State) (w : Word) (k : OscId) : (respondWord w s).osc k = s.osc k := by cases k <;> rfl
@[simp] theorem respondWord_fad (s : State) (w : Word) (k : FadId) : (respondWord w s).fad k = s.fad k := by cases k <;> rfl
@[simp] theorem respondWord_baseFreq (s : State) (w : Word) (k : OscId) : (respondWord w s).baseFreq k = s.baseFreq k := by cases k <;> rfl

@[simp] theorem respondReal_env (s : State) (v : F32) : (respondReal v s).env = s.env := rfl
@[simp] theorem respondReal_osc1 (s : State) (v : F32) : (respondReal v s).osc1 = s.osc1 := rfl
@[simp] theorem respondReal_osc2 (s : State) (v : F32) : (respondReal v s).osc2 = s.osc2 := rfl
@[simp] theorem respondReal_osc3 (s : State) (v : F32) : (respondReal v s).osc3 = s.osc3 := rfl
@[simp] theorem respondReal_fad0 (s : State) (v : F32) : (respondReal v s).fad0 = s.fad0 := rfl
@[simp] theorem respondReal_fad1 (s : State) (v : F32) : (respondReal v s).fad1 = s.fad1 := rfl
@[simp] theorem respondReal_fad2 (s : State) (v : F32) : (respondReal v s).fad2 = s.fad2 := rfl
@[simp] theorem respondReal_cfg (s : State) (v : F32) : (respondReal v s).cfg = s.cfg := rfl
@[simp] theorem respondReal_evstat (s : State) (v : F32) : (respondReal v s).evstat = s.evstat := rfl
@[simp] theorem respondReal_evmask (s : State) (v : F32) : (respondReal v s).evmask = s.evmask := rfl
@[simp] theorem respondReal_fault (s : State) (v : F32) : (respondReal v s).fault = s.fault := rfl
@[simp] theorem respondReal_hist (s : State) (v : F32) : (respondReal v s).hist = s.hist := rfl
@[simp] theorem respondReal_wr (s : State) (v : F32) : (respondReal v s).wr = s.wr := rfl
@[simp] theorem respondReal_accepted (s : State) (v : F32) : (respondReal v s).accepted = s.accepted := rfl
@[simp] theorem respondReal_rst (s : State) (v : F32) : (respondReal v s).rst = s.rst := rfl
@[simp] theorem respondReal_rsp (s : State) (v : F32) : (respondReal v s).rsp = some ⟨v.bits s.draws, 0⟩ := rfl
@[simp] theorem respondReal_draws (s : State) (v : F32) : (respondReal v s).draws = s.draws + 1 := rfl
@[simp] theorem respondReal_osc (s : State) (v : F32) (k : OscId) : (respondReal v s).osc k = s.osc k := by cases k <;> rfl
@[simp] theorem respondReal_fad (s : State) (v : F32) (k : FadId) : (respondReal v s).fad k = s.fad k := by cases k <;> rfl
@[simp] theorem respondReal_baseFreq (s : State) (v : F32) (k : OscId) : (respondReal v s).baseFreq k = s.baseFreq k := by cases k <;> rfl

@[simp] theorem respondReals_env (s : State) (v w : F32) : (respondReals v w s).env = s.env := rfl
@[simp] theorem respondReals_osc1 (s : State) (v w : F32) : (respondReals v w s).osc1 = s.osc1 := rfl
@[simp] theorem respondReals_osc2 (s : State) (v w : F32) : (respondReals v w s).osc2 = s.osc2 := rfl
@[simp] theorem respondReals_osc3 (s : State) (v w : F32) : (respondReals v w s).osc3 = s.osc3 := rfl
@[simp] theorem respondReals_fad0 (s : State) (v w : F32) : (respondReals v w s).fad0 = s.fad0 := rfl
@[simp] theorem respondReals_fad1 (s : State) (v w : F32) : (respondReals v w s).fad1 = s.fad1 := rfl
@[simp] theorem respondReals_fad2 (s : State) (v w : F32) : (respondReals v w s).fad2 = s.fad2 := rfl
@[simp] theorem respondReals_cfg (s : State) (v w : F32) : (respondReals v w s).cfg = s.cfg := rfl
@[simp] theorem respondReals_evstat (s : State) (v w : F32) : (respondReals v w s).evstat = s.evstat := rfl
@[simp] theorem respondReals_evmask (s : State) (v w : F32) : (respondReals v w s).evmask = s.evmask := rfl
@[simp] theorem respondReals_fault (s : State) (v w : F32) : (respondReals v w s).fault = s.fault := rfl
@[simp] theorem respondReals_hist (s : State) (v w : F32) : (respondReals v w s).hist = s.hist := rfl
@[simp] theorem respondReals_wr (s : State) (v w : F32) : (respondReals v w s).wr = s.wr := rfl
@[simp] theorem respondReals_accepted (s : State) (v w : F32) : (respondReals v w s).accepted = s.accepted := rfl
@[simp] theorem respondReals_rst (s : State) (v w : F32) : (respondReals v w s).rst = s.rst := rfl
@[simp] theorem respondReals_rsp (s : State) (v w : F32) : (respondReals v w s).rsp = some ⟨v.bits s.draws, w.bits (s.draws + 1)⟩ := rfl
@[simp] theorem respondReals_draws (s : State) (v w : F32) : (respondReals v w s).draws = s.draws + 2 := rfl
@[simp] theorem respondReals_osc (s : State) (v w : F32) (k : OscId) : (respondReals v w s).osc k = s.osc k := by cases k <;> rfl
@[simp] theorem respondReals_fad (s : State) (v w : F32) (k : FadId) : (respondReals v w s).fad k = s.fad k := by cases k <;> rfl
@[simp] theorem respondReals_baseFreq (s : State) (v w : F32) (k : OscId) : (respondReals v w s).baseFreq k = s.baseFreq k := by cases k <;> rfl

@[simp] theorem setEv_env (s : State) (e : Event) : (setEv e s).env = s.env := rfl
@[simp] theorem setEv_osc1 (s : State) (e : Event) : (setEv e s).osc1 = s.osc1 := rfl
@[simp] theorem setEv_osc2 (s : State) (e : Event) : (setEv e s).osc2 = s.osc2 := rfl
@[simp] theorem setEv_osc3 (s : State) (e : Event) : (setEv e s).osc3 = s.osc3 := rfl
@[simp] theorem setEv_fad0 (s : State) (e : Event) : (setEv e s).fad0 = s.fad0 := rfl
@[simp] theorem setEv_fad1 (s : State) (e : Event) : (setEv e s).fad1 = s.fad1 := rfl
@[simp] theorem setEv_fad2 (s : State) (e : Event) : (setEv e s).fad2 = s.fad2 := rfl
@[simp] theorem setEv_cfg (s : State) (e : Event) : (setEv e s).cfg = s.cfg := rfl
@[simp] theorem setEv_evstat (s : State) (e : Event) : (setEv e s).evstat = s.evstat ||| oneBit e.bit := rfl
@[simp] theorem setEv_evmask (s : State) (e : Event) : (setEv e s).evmask = s.evmask := rfl
@[simp] theorem setEv_fault (s : State) (e : Event) : (setEv e s).fault = s.fault := rfl
@[simp] theorem setEv_hist (s : State) (e : Event) : (setEv e s).hist = s.hist := rfl
@[simp] theorem setEv_wr (s : State) (e : Event) : (setEv e s).wr = s.wr := rfl
@[simp] theorem setEv_accepted (s : State) (e : Event) : (setEv e s).accepted = s.accepted := rfl
@[simp] theorem setEv_rst (s : State) (e : Event) : (setEv e s).rst = s.rst := rfl
@[simp] theorem setEv_rsp (s : State) (e : Event) : (setEv e s).rsp = s.rsp := rfl
@[simp] theorem setEv_draws (s : State) (e : Event) : (setEv e s).draws = s.draws := rfl
@[simp] theorem setEv_osc (s : State) (e : Event) (k : OscId) : (setEv e s).osc k = s.osc k := by cases k <;> rfl
@[simp] theorem setEv_fad (s : State) (e : Event) (k : FadId) : (setEv e s).fad k = s.fad k := by cases k <;> rfl
@[simp] theorem setEv_baseFreq (s : State) (e : Event) (k : OscId) : (setEv e s).baseFreq k = s.baseFreq k := by cases k <;> rfl

@[simp] theorem clearEv_env (s : State) (m : Word) : (clearEv m s).env = s.env := rfl
@[simp] theorem clearEv_osc1 (s : State) (m : Word) : (clearEv m s).osc1 = s.osc1 := rfl
@[simp] theorem clearEv_osc2 (s : State) (m : Word) : (clearEv m s).osc2 = s.osc2 := rfl
@[simp] theorem clearEv_osc3 (s : State) (m : Word) : (clearEv m s).osc3 = s.osc3 := rfl
@[simp] theorem clearEv_fad0 (s : State) (m : Word) : (clearEv m s).fad0 = s.fad0 := rfl
@[simp] theorem clearEv_fad1 (s : State) (m : Word) : (clearEv m s).fad1 = s.fad1 := rfl
@[simp] theorem clearEv_fad2 (s : State) (m : Word) : (clearEv m s).fad2 = s.fad2 := rfl
@[simp] theorem clearEv_cfg (s : State) (m : Word) : (clearEv m s).cfg = s.cfg := rfl
@[simp] theorem clearEv_evstat (s : State) (m : Word) : (clearEv m s).evstat = s.evstat &&& ~~~m := rfl
@[simp] theorem clearEv_evmask (s : State) (m : Word) : (clearEv m s).evmask = s.evmask := rfl
@[simp] theorem clearEv_fault (s : State) (m : Word) : (clearEv m s).fault = s.fault := rfl
@[simp] theorem clearEv_hist (s : State) (m : Word) : (clearEv m s).hist = s.hist := rfl
@[simp] theorem clearEv_wr (s : State) (m : Word) : (clearEv m s).wr = s.wr := rfl
@[simp] theorem clearEv_accepted (s : State) (m : Word) : (clearEv m s).accepted = s.accepted := rfl
@[simp] theorem clearEv_rst (s : State) (m : Word) : (clearEv m s).rst = s.rst := rfl
@[simp] theorem clearEv_rsp (s : State) (m : Word) : (clearEv m s).rsp = s.rsp := rfl
@[simp] theorem clearEv_draws (s : State) (m : Word) : (clearEv m s).draws = s.draws := rfl
@[simp] theorem clearEv_osc (s : State) (m : Word) (k : OscId) : (clearEv m s).osc k = s.osc k := by cases k <;> rfl
@[simp] theorem clearEv_fad (s : State) (m : Word) (k : FadId) : (clearEv m s).fad k = s.fad k := by cases k <;> rfl
@[simp] theorem clearEv_baseFreq (s : State) (m : Word) (k : OscId) : (clearEv m s).baseFreq k = s.baseFreq k := by cases k <;> rfl

@[simp] theorem setEvmask_env (s : State) (d : Word) : (setEvmask d s).env = s.env := rfl
@[simp] theorem setEvmask_osc1 (s : State) (d : Word) : (setEvmask d s).osc1 = s.osc1 := rfl
@[simp] theorem setEvmask_osc2 (s : State) (d : Word) : (setEvmask d s).osc2 = s.osc2 := rfl
@[simp] theorem setEvmask_osc3 (s : State) (d : Word) : (setEvmask d s).osc3 = s.osc3 := rfl
@[simp] theorem setEvmask_fad0 (s : State) (d : Word) : (setEvmask d s).fad0 = s.fad0 := rfl
@[simp] theorem setEvmask_fad1 (s : State) (d : Word) : (setEvmask d s).fad1 = s.fad1 := rfl
@[simp] theorem setEvmask_fad2 (s : State) (d : Word) : (setEvmask d s).fad2 = s.fad2 := rfl
@[simp] theorem setEvmask_cfg (s : State) (d : Word) : (setEvmask d s).cfg = s.cfg := rfl
@[simp] theorem setEvmask_evstat (s : State) (d : Word) : (setEvmask d s).evstat = s.evstat := rfl
@[simp] theorem setEvmask_evmask (s : State) (d : Word) : (setEvmask d s).evmask = d &&& eventBits := rfl
@[simp] theorem setEvmask_fault (s : State) (d : Word) : (setEvmask d s).fault = s.fault := rfl
@[simp] theorem setEvmask_hist (s : State) (d : Word) : (setEvmask d s).hist = s.hist := rfl
@[simp] theorem setEvmask_wr (s : State) (d : Word) : (setEvmask d s).wr = s.wr := rfl
@[simp] theorem setEvmask_accepted (s : State) (d : Word) : (setEvmask d s).accepted = s.accepted := rfl
@[simp] theorem setEvmask_rst (s : State) (d : Word) : (setEvmask d s).rst = s.rst := rfl
@[simp] theorem setEvmask_rsp (s : State) (d : Word) : (setEvmask d s).rsp = s.rsp := rfl
@[simp] theorem setEvmask_draws (s : State) (d : Word) : (setEvmask d s).draws = s.draws := rfl
@[simp] theorem setEvmask_osc (s : State) (d : Word) (k : OscId) : (setEvmask d s).osc k = s.osc k := by cases k <;> rfl
@[simp] theorem setEvmask_fad (s : State) (d : Word) (k : FadId) : (setEvmask d s).fad k = s.fad k := by cases k <;> rfl
@[simp] theorem setEvmask_baseFreq (s : State) (d : Word) (k : OscId) : (setEvmask d s).baseFreq k = s.baseFreq k := by cases k <;> rfl

@[simp] theorem raiseFault_env (s : State) (b : FaultFlag) : (raiseFault b s).env = s.env := rfl
@[simp] theorem raiseFault_osc1 (s : State) (b : FaultFlag) : (raiseFault b s).osc1 = s.osc1 := rfl
@[simp] theorem raiseFault_osc2 (s : State) (b : FaultFlag) : (raiseFault b s).osc2 = s.osc2 := rfl
@[simp] theorem raiseFault_osc3 (s : State) (b : FaultFlag) : (raiseFault b s).osc3 = s.osc3 := rfl
@[simp] theorem raiseFault_fad0 (s : State) (b : FaultFlag) : (raiseFault b s).fad0 = s.fad0 := rfl
@[simp] theorem raiseFault_fad1 (s : State) (b : FaultFlag) : (raiseFault b s).fad1 = s.fad1 := rfl
@[simp] theorem raiseFault_fad2 (s : State) (b : FaultFlag) : (raiseFault b s).fad2 = s.fad2 := rfl
@[simp] theorem raiseFault_cfg (s : State) (b : FaultFlag) : (raiseFault b s).cfg = s.cfg := rfl
@[simp] theorem raiseFault_evstat (s : State) (b : FaultFlag) : (raiseFault b s).evstat = s.evstat := rfl
@[simp] theorem raiseFault_evmask (s : State) (b : FaultFlag) : (raiseFault b s).evmask = s.evmask := rfl
@[simp] theorem raiseFault_fault (s : State) (b : FaultFlag) : (raiseFault b s).fault = s.fault ||| oneBit b.bit := rfl
@[simp] theorem raiseFault_hist (s : State) (b : FaultFlag) : (raiseFault b s).hist = s.hist := rfl
@[simp] theorem raiseFault_wr (s : State) (b : FaultFlag) : (raiseFault b s).wr = s.wr := rfl
@[simp] theorem raiseFault_accepted (s : State) (b : FaultFlag) : (raiseFault b s).accepted = s.accepted := rfl
@[simp] theorem raiseFault_rst (s : State) (b : FaultFlag) : (raiseFault b s).rst = s.rst := rfl
@[simp] theorem raiseFault_rsp (s : State) (b : FaultFlag) : (raiseFault b s).rsp = s.rsp := rfl
@[simp] theorem raiseFault_draws (s : State) (b : FaultFlag) : (raiseFault b s).draws = s.draws := rfl
@[simp] theorem raiseFault_osc (s : State) (b : FaultFlag) (k : OscId) : (raiseFault b s).osc k = s.osc k := by cases k <;> rfl
@[simp] theorem raiseFault_fad (s : State) (b : FaultFlag) (k : FadId) : (raiseFault b s).fad k = s.fad k := by cases k <;> rfl
@[simp] theorem raiseFault_baseFreq (s : State) (b : FaultFlag) (k : OscId) : (raiseFault b s).baseFreq k = s.baseFreq k := by cases k <;> rfl

@[simp] theorem histPush_env (s : State) (cap : Nat) (v w : Word) : (histPush cap v w s).env = s.env := rfl
@[simp] theorem histPush_osc1 (s : State) (cap : Nat) (v w : Word) : (histPush cap v w s).osc1 = s.osc1 := rfl
@[simp] theorem histPush_osc2 (s : State) (cap : Nat) (v w : Word) : (histPush cap v w s).osc2 = s.osc2 := rfl
@[simp] theorem histPush_osc3 (s : State) (cap : Nat) (v w : Word) : (histPush cap v w s).osc3 = s.osc3 := rfl
@[simp] theorem histPush_fad0 (s : State) (cap : Nat) (v w : Word) : (histPush cap v w s).fad0 = s.fad0 := rfl
@[simp] theorem histPush_fad1 (s : State) (cap : Nat) (v w : Word) : (histPush cap v w s).fad1 = s.fad1 := rfl
@[simp] theorem histPush_fad2 (s : State) (cap : Nat) (v w : Word) : (histPush cap v w s).fad2 = s.fad2 := rfl
@[simp] theorem histPush_cfg (s : State) (cap : Nat) (v w : Word) : (histPush cap v w s).cfg = s.cfg := rfl
@[simp] theorem histPush_evstat (s : State) (cap : Nat) (v w : Word) : (histPush cap v w s).evstat = s.evstat := rfl
@[simp] theorem histPush_evmask (s : State) (cap : Nat) (v w : Word) : (histPush cap v w s).evmask = s.evmask := rfl
@[simp] theorem histPush_fault (s : State) (cap : Nat) (v w : Word) : (histPush cap v w s).fault = s.fault := rfl
@[simp] theorem histPush_hist (s : State) (cap : Nat) (v w : Word) : (histPush cap v w s).hist = Memory.putWord (Memory.putWord s.hist (histAddr .ch0 s.wr) v) (histAddr .ch1 s.wr) w := rfl
@[simp] theorem histPush_wr (s : State) (cap : Nat) (v w : Word) : (histPush cap v w s).wr = (s.wr + 1) % cap := rfl
@[simp] theorem histPush_accepted (s : State) (cap : Nat) (v w : Word) : (histPush cap v w s).accepted = s.accepted := rfl
@[simp] theorem histPush_rst (s : State) (cap : Nat) (v w : Word) : (histPush cap v w s).rst = s.rst := rfl
@[simp] theorem histPush_rsp (s : State) (cap : Nat) (v w : Word) : (histPush cap v w s).rsp = s.rsp := rfl
@[simp] theorem histPush_draws (s : State) (cap : Nat) (v w : Word) : (histPush cap v w s).draws = s.draws := rfl
@[simp] theorem histPush_osc (s : State) (cap : Nat) (v w : Word) (k : OscId) : (histPush cap v w s).osc k = s.osc k := by cases k <;> rfl
@[simp] theorem histPush_fad (s : State) (cap : Nat) (v w : Word) (k : FadId) : (histPush cap v w s).fad k = s.fad k := by cases k <;> rfl
@[simp] theorem histPush_baseFreq (s : State) (cap : Nat) (v w : Word) (k : OscId) : (histPush cap v w s).baseFreq k = s.baseFreq k := by cases k <;> rfl

@[simp] theorem illegal_env (s : State) : (illegal s).env = s.env := rfl
@[simp] theorem illegal_osc1 (s : State) : (illegal s).osc1 = s.osc1 := rfl
@[simp] theorem illegal_osc2 (s : State) : (illegal s).osc2 = s.osc2 := rfl
@[simp] theorem illegal_osc3 (s : State) : (illegal s).osc3 = s.osc3 := rfl
@[simp] theorem illegal_fad0 (s : State) : (illegal s).fad0 = s.fad0 := rfl
@[simp] theorem illegal_fad1 (s : State) : (illegal s).fad1 = s.fad1 := rfl
@[simp] theorem illegal_fad2 (s : State) : (illegal s).fad2 = s.fad2 := rfl
@[simp] theorem illegal_cfg (s : State) : (illegal s).cfg = s.cfg := rfl
@[simp] theorem illegal_evstat (s : State) : (illegal s).evstat = s.evstat := rfl
@[simp] theorem illegal_evmask (s : State) : (illegal s).evmask = s.evmask := rfl
@[simp] theorem illegal_fault (s : State) : (illegal s).fault = s.fault ||| oneBit FaultFlag.ill.bit := rfl
@[simp] theorem illegal_hist (s : State) : (illegal s).hist = s.hist := rfl
@[simp] theorem illegal_wr (s : State) : (illegal s).wr = s.wr := rfl
@[simp] theorem illegal_accepted (s : State) : (illegal s).accepted = s.accepted := rfl
@[simp] theorem illegal_rst (s : State) : (illegal s).rst = s.rst := rfl
@[simp] theorem illegal_rsp (s : State) : (illegal s).rsp = some ⟨0, 0⟩ := rfl
@[simp] theorem illegal_draws (s : State) : (illegal s).draws = s.draws := rfl
@[simp] theorem illegal_osc (s : State) (k : OscId) : (illegal s).osc k = s.osc k := by cases k <;> rfl
@[simp] theorem illegal_fad (s : State) (k : FadId) : (illegal s).fad k = s.fad k := by cases k <;> rfl
@[simp] theorem illegal_baseFreq (s : State) (k : OscId) : (illegal s).baseFreq k = s.baseFreq k := by cases k <;> rfl

@[simp] theorem takeCommand_env (s : State) (cs : List Command) : (takeCommand cs s).env = s.env := rfl
@[simp] theorem takeCommand_osc1 (s : State) (cs : List Command) : (takeCommand cs s).osc1 = s.osc1 := rfl
@[simp] theorem takeCommand_osc2 (s : State) (cs : List Command) : (takeCommand cs s).osc2 = s.osc2 := rfl
@[simp] theorem takeCommand_osc3 (s : State) (cs : List Command) : (takeCommand cs s).osc3 = s.osc3 := rfl
@[simp] theorem takeCommand_fad0 (s : State) (cs : List Command) : (takeCommand cs s).fad0 = s.fad0 := rfl
@[simp] theorem takeCommand_fad1 (s : State) (cs : List Command) : (takeCommand cs s).fad1 = s.fad1 := rfl
@[simp] theorem takeCommand_fad2 (s : State) (cs : List Command) : (takeCommand cs s).fad2 = s.fad2 := rfl
@[simp] theorem takeCommand_cfg (s : State) (cs : List Command) : (takeCommand cs s).cfg = s.cfg := rfl
@[simp] theorem takeCommand_evstat (s : State) (cs : List Command) : (takeCommand cs s).evstat = s.evstat := rfl
@[simp] theorem takeCommand_evmask (s : State) (cs : List Command) : (takeCommand cs s).evmask = s.evmask := rfl
@[simp] theorem takeCommand_fault (s : State) (cs : List Command) : (takeCommand cs s).fault = s.fault := rfl
@[simp] theorem takeCommand_hist (s : State) (cs : List Command) : (takeCommand cs s).hist = s.hist := rfl
@[simp] theorem takeCommand_wr (s : State) (cs : List Command) : (takeCommand cs s).wr = s.wr := rfl
@[simp] theorem takeCommand_accepted (s : State) (cs : List Command) : (takeCommand cs s).accepted = cs := rfl
@[simp] theorem takeCommand_rst (s : State) (cs : List Command) : (takeCommand cs s).rst = s.rst := rfl
@[simp] theorem takeCommand_rsp (s : State) (cs : List Command) : (takeCommand cs s).rsp = s.rsp := rfl
@[simp] theorem takeCommand_draws (s : State) (cs : List Command) : (takeCommand cs s).draws = s.draws := rfl
@[simp] theorem takeCommand_osc (s : State) (cs : List Command) (k : OscId) : (takeCommand cs s).osc k = s.osc k := by cases k <;> rfl
@[simp] theorem takeCommand_fad (s : State) (cs : List Command) (k : FadId) : (takeCommand cs s).fad k = s.fad k := by cases k <;> rfl
@[simp] theorem takeCommand_baseFreq (s : State) (cs : List Command) (k : OscId) : (takeCommand cs s).baseFreq k = s.baseFreq k := by cases k <;> rfl

@[simp] theorem idleEdge_env (s : State) : (idleEdge s).env = s.env := rfl
@[simp] theorem idleEdge_osc1 (s : State) : (idleEdge s).osc1 = s.osc1 := rfl
@[simp] theorem idleEdge_osc2 (s : State) : (idleEdge s).osc2 = s.osc2 := rfl
@[simp] theorem idleEdge_osc3 (s : State) : (idleEdge s).osc3 = s.osc3 := rfl
@[simp] theorem idleEdge_fad0 (s : State) : (idleEdge s).fad0 = s.fad0 := rfl
@[simp] theorem idleEdge_fad1 (s : State) : (idleEdge s).fad1 = s.fad1 := rfl
@[simp] theorem idleEdge_fad2 (s : State) : (idleEdge s).fad2 = s.fad2 := rfl
@[simp] theorem idleEdge_cfg (s : State) : (idleEdge s).cfg = s.cfg := rfl
@[simp] theorem idleEdge_evstat (s : State) : (idleEdge s).evstat = s.evstat := rfl
@[simp] theorem idleEdge_evmask (s : State) : (idleEdge s).evmask = s.evmask := rfl
@[simp] theorem idleEdge_fault (s : State) : (idleEdge s).fault = s.fault := rfl
@[simp] theorem idleEdge_hist (s : State) : (idleEdge s).hist = s.hist := rfl
@[simp] theorem idleEdge_wr (s : State) : (idleEdge s).wr = s.wr := rfl
@[simp] theorem idleEdge_accepted (s : State) : (idleEdge s).accepted = s.accepted := rfl
@[simp] theorem idleEdge_rst (s : State) : (idleEdge s).rst = s.rst := rfl
@[simp] theorem idleEdge_rsp (s : State) : (idleEdge s).rsp = none := rfl
@[simp] theorem idleEdge_draws (s : State) : (idleEdge s).draws = s.draws := rfl
@[simp] theorem idleEdge_osc (s : State) (k : OscId) : (idleEdge s).osc k = s.osc k := by cases k <;> rfl
@[simp] theorem idleEdge_fad (s : State) (k : FadId) : (idleEdge s).fad k = s.fad k := by cases k <;> rfl
@[simp] theorem idleEdge_baseFreq (s : State) (k : OscId) : (idleEdge s).baseFreq k = s.baseFreq k := by cases k <;> rfl

@[simp] theorem hostRst_env (s : State) (b : Bool) : (hostRst b s).env = s.env := rfl
@[simp] theorem hostRst_osc1 (s : State) (b : Bool) : (hostRst b s).osc1 = s.osc1 := rfl
@[simp] theorem hostRst_osc2 (s : State) (b : Bool) : (hostRst b s).osc2 = s.osc2 := rfl
@[simp] theorem hostRst_osc3 (s : State) (b : Bool) : (hostRst b s).osc3 = s.osc3 := rfl
@[simp] theorem hostRst_fad0 (s : State) (b : Bool) : (hostRst b s).fad0 = s.fad0 := rfl
@[simp] theorem hostRst_fad1 (s : State) (b : Bool) : (hostRst b s).fad1 = s.fad1 := rfl
@[simp] theorem hostRst_fad2 (s : State) (b : Bool) : (hostRst b s).fad2 = s.fad2 := rfl
@[simp] theorem hostRst_cfg (s : State) (b : Bool) : (hostRst b s).cfg = s.cfg := rfl
@[simp] theorem hostRst_evstat (s : State) (b : Bool) : (hostRst b s).evstat = s.evstat := rfl
@[simp] theorem hostRst_evmask (s : State) (b : Bool) : (hostRst b s).evmask = s.evmask := rfl
@[simp] theorem hostRst_fault (s : State) (b : Bool) : (hostRst b s).fault = s.fault := rfl
@[simp] theorem hostRst_hist (s : State) (b : Bool) : (hostRst b s).hist = s.hist := rfl
@[simp] theorem hostRst_wr (s : State) (b : Bool) : (hostRst b s).wr = s.wr := rfl
@[simp] theorem hostRst_accepted (s : State) (b : Bool) : (hostRst b s).accepted = s.accepted := rfl
@[simp] theorem hostRst_rst (s : State) (b : Bool) : (hostRst b s).rst = b := rfl
@[simp] theorem hostRst_rsp (s : State) (b : Bool) : (hostRst b s).rsp = s.rsp := rfl
@[simp] theorem hostRst_draws (s : State) (b : Bool) : (hostRst b s).draws = s.draws := rfl
@[simp] theorem hostRst_osc (s : State) (b : Bool) (k : OscId) : (hostRst b s).osc k = s.osc k := by cases k <;> rfl
@[simp] theorem hostRst_fad (s : State) (b : Bool) (k : FadId) : (hostRst b s).fad k = s.fad k := by cases k <;> rfl
@[simp] theorem hostRst_baseFreq (s : State) (b : Bool) (k : OscId) : (hostRst b s).baseFreq k = s.baseFreq k := by cases k <;> rfl

@[simp] theorem placeCommand_env (s : State) (c : Command) : (placeCommand c s).env = s.env := rfl
@[simp] theorem placeCommand_osc1 (s : State) (c : Command) : (placeCommand c s).osc1 = s.osc1 := rfl
@[simp] theorem placeCommand_osc2 (s : State) (c : Command) : (placeCommand c s).osc2 = s.osc2 := rfl
@[simp] theorem placeCommand_osc3 (s : State) (c : Command) : (placeCommand c s).osc3 = s.osc3 := rfl
@[simp] theorem placeCommand_fad0 (s : State) (c : Command) : (placeCommand c s).fad0 = s.fad0 := rfl
@[simp] theorem placeCommand_fad1 (s : State) (c : Command) : (placeCommand c s).fad1 = s.fad1 := rfl
@[simp] theorem placeCommand_fad2 (s : State) (c : Command) : (placeCommand c s).fad2 = s.fad2 := rfl
@[simp] theorem placeCommand_cfg (s : State) (c : Command) : (placeCommand c s).cfg = s.cfg := rfl
@[simp] theorem placeCommand_evstat (s : State) (c : Command) : (placeCommand c s).evstat = s.evstat := rfl
@[simp] theorem placeCommand_evmask (s : State) (c : Command) : (placeCommand c s).evmask = s.evmask := rfl
@[simp] theorem placeCommand_fault (s : State) (c : Command) : (placeCommand c s).fault = s.fault := rfl
@[simp] theorem placeCommand_hist (s : State) (c : Command) : (placeCommand c s).hist = s.hist := rfl
@[simp] theorem placeCommand_wr (s : State) (c : Command) : (placeCommand c s).wr = s.wr := rfl
@[simp] theorem placeCommand_accepted (s : State) (c : Command) : (placeCommand c s).accepted = c :: s.accepted.tail := rfl
@[simp] theorem placeCommand_rst (s : State) (c : Command) : (placeCommand c s).rst = false := rfl
@[simp] theorem placeCommand_rsp (s : State) (c : Command) : (placeCommand c s).rsp = s.rsp := rfl
@[simp] theorem placeCommand_draws (s : State) (c : Command) : (placeCommand c s).draws = s.draws := rfl
@[simp] theorem placeCommand_osc (s : State) (c : Command) (k : OscId) : (placeCommand c s).osc k = s.osc k := by cases k <;> rfl
@[simp] theorem placeCommand_fad (s : State) (c : Command) (k : FadId) : (placeCommand c s).fad k = s.fad k := by cases k <;> rfl
@[simp] theorem placeCommand_baseFreq (s : State) (c : Command) (k : OscId) : (placeCommand c s).baseFreq k = s.baseFreq k := by cases k <;> rfl

@[simp] theorem setOsc_env (s : State) (k : OscId) (o : Osc) : (s.setOsc k o).env = s.env := by cases k <;> rfl
@[simp] theorem setOsc_fad0 (s : State) (k : OscId) (o : Osc) : (s.setOsc k o).fad0 = s.fad0 := by cases k <;> rfl
@[simp] theorem setOsc_fad1 (s : State) (k : OscId) (o : Osc) : (s.setOsc k o).fad1 = s.fad1 := by cases k <;> rfl
@[simp] theorem setOsc_fad2 (s : State) (k : OscId) (o : Osc) : (s.setOsc k o).fad2 = s.fad2 := by cases k <;> rfl
@[simp] theorem setOsc_cfg (s : State) (k : OscId) (o : Osc) : (s.setOsc k o).cfg = s.cfg := by cases k <;> rfl
@[simp] theorem setOsc_evstat (s : State) (k : OscId) (o : Osc) : (s.setOsc k o).evstat = s.evstat := by cases k <;> rfl
@[simp] theorem setOsc_evmask (s : State) (k : OscId) (o : Osc) : (s.setOsc k o).evmask = s.evmask := by cases k <;> rfl
@[simp] theorem setOsc_fault (s : State) (k : OscId) (o : Osc) : (s.setOsc k o).fault = s.fault := by cases k <;> rfl
@[simp] theorem setOsc_hist (s : State) (k : OscId) (o : Osc) : (s.setOsc k o).hist = s.hist := by cases k <;> rfl
@[simp] theorem setOsc_wr (s : State) (k : OscId) (o : Osc) : (s.setOsc k o).wr = s.wr := by cases k <;> rfl
@[simp] theorem setOsc_accepted (s : State) (k : OscId) (o : Osc) : (s.setOsc k o).accepted = s.accepted := by cases k <;> rfl
@[simp] theorem setOsc_rst (s : State) (k : OscId) (o : Osc) : (s.setOsc k o).rst = s.rst := by cases k <;> rfl
@[simp] theorem setOsc_rsp (s : State) (k : OscId) (o : Osc) : (s.setOsc k o).rsp = s.rsp := by cases k <;> rfl
@[simp] theorem setOsc_draws (s : State) (k : OscId) (o : Osc) : (s.setOsc k o).draws = s.draws := by cases k <;> rfl
@[simp] theorem setOsc_fad (s : State) (k : OscId) (o : Osc) (j : FadId) : (s.setOsc k o).fad j = s.fad j := by
  cases k <;> cases j <;> rfl
@[simp] theorem setOsc_osc_same (s : State) (k : OscId) (o : Osc) : (s.setOsc k o).osc k = o := by cases k <;> rfl
theorem setOsc_osc (s : State) (k j : OscId) (o : Osc) : (s.setOsc k o).osc j = if j = k then o else s.osc j := by
  cases k <;> cases j <;> rfl
@[simp] theorem setOsc_osc_other (s : State) (k j : OscId) (o : Osc) (h : j ≠ k) : (s.setOsc k o).osc j = s.osc j := by
  simp [setOsc_osc, h]
@[simp] theorem setOsc_baseFreq (s : State) (k : OscId) (o : Osc) (j : OscId) : (s.setOsc k o).baseFreq j = s.baseFreq j := by
  cases k <;> cases j <;> rfl
@[simp] theorem setOsc_self (s : State) (k : OscId) : s.setOsc k (s.osc k) = s := by cases k <;> rfl
@[simp] theorem setOsc_twice (s : State) (k : OscId) (o p : Osc) : (s.setOsc k o).setOsc k p = s.setOsc k p := by cases k <;> rfl
theorem osc_osc1 (s : State) : s.osc .osc1 = s.osc1 := rfl
@[simp] theorem setOsc_osc1_osc1 (s : State) (o : Osc) : (s.setOsc .osc1 o).osc1 = o := rfl
@[simp] theorem setOsc_osc2_osc1 (s : State) (o : Osc) : (s.setOsc .osc2 o).osc1 = s.osc1 := rfl
@[simp] theorem setOsc_osc3_osc1 (s : State) (o : Osc) : (s.setOsc .osc3 o).osc1 = s.osc1 := rfl
theorem osc_osc2 (s : State) : s.osc .osc2 = s.osc2 := rfl
@[simp] theorem setOsc_osc1_osc2 (s : State) (o : Osc) : (s.setOsc .osc1 o).osc2 = s.osc2 := rfl
@[simp] theorem setOsc_osc2_osc2 (s : State) (o : Osc) : (s.setOsc .osc2 o).osc2 = o := rfl
@[simp] theorem setOsc_osc3_osc2 (s : State) (o : Osc) : (s.setOsc .osc3 o).osc2 = s.osc2 := rfl
theorem osc_osc3 (s : State) : s.osc .osc3 = s.osc3 := rfl
@[simp] theorem setOsc_osc1_osc3 (s : State) (o : Osc) : (s.setOsc .osc1 o).osc3 = s.osc3 := rfl
@[simp] theorem setOsc_osc2_osc3 (s : State) (o : Osc) : (s.setOsc .osc2 o).osc3 = s.osc3 := rfl
@[simp] theorem setOsc_osc3_osc3 (s : State) (o : Osc) : (s.setOsc .osc3 o).osc3 = o := rfl

@[simp] theorem setFad_env (s : State) (k : FadId) (o : Fader) : (s.setFad k o).env = s.env := by cases k <;> rfl
@[simp] theorem setFad_osc1 (s : State) (k : FadId) (o : Fader) : (s.setFad k o).osc1 = s.osc1 := by cases k <;> rfl
@[simp] theorem setFad_osc2 (s : State) (k : FadId) (o : Fader) : (s.setFad k o).osc2 = s.osc2 := by cases k <;> rfl
@[simp] theorem setFad_osc3 (s : State) (k : FadId) (o : Fader) : (s.setFad k o).osc3 = s.osc3 := by cases k <;> rfl
@[simp] theorem setFad_cfg (s : State) (k : FadId) (o : Fader) : (s.setFad k o).cfg = s.cfg := by cases k <;> rfl
@[simp] theorem setFad_evstat (s : State) (k : FadId) (o : Fader) : (s.setFad k o).evstat = s.evstat := by cases k <;> rfl
@[simp] theorem setFad_evmask (s : State) (k : FadId) (o : Fader) : (s.setFad k o).evmask = s.evmask := by cases k <;> rfl
@[simp] theorem setFad_fault (s : State) (k : FadId) (o : Fader) : (s.setFad k o).fault = s.fault := by cases k <;> rfl
@[simp] theorem setFad_hist (s : State) (k : FadId) (o : Fader) : (s.setFad k o).hist = s.hist := by cases k <;> rfl
@[simp] theorem setFad_wr (s : State) (k : FadId) (o : Fader) : (s.setFad k o).wr = s.wr := by cases k <;> rfl
@[simp] theorem setFad_accepted (s : State) (k : FadId) (o : Fader) : (s.setFad k o).accepted = s.accepted := by cases k <;> rfl
@[simp] theorem setFad_rst (s : State) (k : FadId) (o : Fader) : (s.setFad k o).rst = s.rst := by cases k <;> rfl
@[simp] theorem setFad_rsp (s : State) (k : FadId) (o : Fader) : (s.setFad k o).rsp = s.rsp := by cases k <;> rfl
@[simp] theorem setFad_draws (s : State) (k : FadId) (o : Fader) : (s.setFad k o).draws = s.draws := by cases k <;> rfl
@[simp] theorem setFad_osc (s : State) (k : FadId) (o : Fader) (j : OscId) : (s.setFad k o).osc j = s.osc j := by
  cases k <;> cases j <;> rfl
@[simp] theorem setFad_fad_same (s : State) (k : FadId) (o : Fader) : (s.setFad k o).fad k = o := by cases k <;> rfl
theorem setFad_fad (s : State) (k j : FadId) (o : Fader) : (s.setFad k o).fad j = if j = k then o else s.fad j := by
  cases k <;> cases j <;> rfl
@[simp] theorem setFad_fad_other (s : State) (k j : FadId) (o : Fader) (h : j ≠ k) : (s.setFad k o).fad j = s.fad j := by
  simp [setFad_fad, h]
@[simp] theorem setFad_baseFreq (s : State) (k : FadId) (o : Fader) (j : OscId) : (s.setFad k o).baseFreq j = s.baseFreq j := by
  cases k <;> cases j <;> rfl
@[simp] theorem setFad_self (s : State) (k : FadId) : s.setFad k (s.fad k) = s := by cases k <;> rfl
@[simp] theorem setFad_twice (s : State) (k : FadId) (o p : Fader) : (s.setFad k o).setFad k p = s.setFad k p := by cases k <;> rfl
theorem fad_shift (s : State) : s.fad .shift = s.fad0 := rfl
@[simp] theorem setFad_shift_fad0 (s : State) (o : Fader) : (s.setFad .shift o).fad0 = o := rfl
@[simp] theorem setFad_amp_fad0 (s : State) (o : Fader) : (s.setFad .amp o).fad0 = s.fad0 := rfl
@[simp] theorem setFad_mix_fad0 (s : State) (o : Fader) : (s.setFad .mix o).fad0 = s.fad0 := rfl
theorem fad_amp (s : State) : s.fad .amp = s.fad1 := rfl
@[simp] theorem setFad_shift_fad1 (s : State) (o : Fader) : (s.setFad .shift o).fad1 = s.fad1 := rfl
@[simp] theorem setFad_amp_fad1 (s : State) (o : Fader) : (s.setFad .amp o).fad1 = o := rfl
@[simp] theorem setFad_mix_fad1 (s : State) (o : Fader) : (s.setFad .mix o).fad1 = s.fad1 := rfl
theorem fad_mix (s : State) : s.fad .mix = s.fad2 := rfl
@[simp] theorem setFad_shift_fad2 (s : State) (o : Fader) : (s.setFad .shift o).fad2 = s.fad2 := rfl
@[simp] theorem setFad_amp_fad2 (s : State) (o : Fader) : (s.setFad .amp o).fad2 = s.fad2 := rfl
@[simp] theorem setFad_mix_fad2 (s : State) (o : Fader) : (s.setFad .mix o).fad2 = o := rfl

/-- `EVSTAT` with the bits of a word set: several `set_ev` at once (spec/60_exceptions.md R193). -/
def orEvents (w : Word) (s : State) : State := { s with evstat := s.evstat ||| w }

@[simp] theorem orEvents_env (s : State) (w : Word) : (orEvents w s).env = s.env := rfl
@[simp] theorem orEvents_osc1 (s : State) (w : Word) : (orEvents w s).osc1 = s.osc1 := rfl
@[simp] theorem orEvents_osc2 (s : State) (w : Word) : (orEvents w s).osc2 = s.osc2 := rfl
@[simp] theorem orEvents_osc3 (s : State) (w : Word) : (orEvents w s).osc3 = s.osc3 := rfl
@[simp] theorem orEvents_fad0 (s : State) (w : Word) : (orEvents w s).fad0 = s.fad0 := rfl
@[simp] theorem orEvents_fad1 (s : State) (w : Word) : (orEvents w s).fad1 = s.fad1 := rfl
@[simp] theorem orEvents_fad2 (s : State) (w : Word) : (orEvents w s).fad2 = s.fad2 := rfl
@[simp] theorem orEvents_cfg (s : State) (w : Word) : (orEvents w s).cfg = s.cfg := rfl
@[simp] theorem orEvents_evstat (s : State) (w : Word) : (orEvents w s).evstat = s.evstat ||| w := rfl
@[simp] theorem orEvents_evmask (s : State) (w : Word) : (orEvents w s).evmask = s.evmask := rfl
@[simp] theorem orEvents_fault (s : State) (w : Word) : (orEvents w s).fault = s.fault := rfl
@[simp] theorem orEvents_hist (s : State) (w : Word) : (orEvents w s).hist = s.hist := rfl
@[simp] theorem orEvents_wr (s : State) (w : Word) : (orEvents w s).wr = s.wr := rfl
@[simp] theorem orEvents_accepted (s : State) (w : Word) : (orEvents w s).accepted = s.accepted := rfl
@[simp] theorem orEvents_rst (s : State) (w : Word) : (orEvents w s).rst = s.rst := rfl
@[simp] theorem orEvents_rsp (s : State) (w : Word) : (orEvents w s).rsp = s.rsp := rfl
@[simp] theorem orEvents_draws (s : State) (w : Word) : (orEvents w s).draws = s.draws := rfl
@[simp] theorem orEvents_osc (s : State) (w : Word) (k : OscId) : (orEvents w s).osc k = s.osc k := by cases k <;> rfl
@[simp] theorem orEvents_fad (s : State) (w : Word) (k : FadId) : (orEvents w s).fad k = s.fad k := by cases k <;> rfl
@[simp] theorem orEvents_baseFreq (s : State) (w : Word) (k : OscId) : (orEvents w s).baseFreq k = s.baseFreq k := by cases k <;> rfl

@[simp] theorem respondCsr_env (s : State) (v : CsrValue) : (respondCsr v s).env = s.env := by cases v <;> rfl
@[simp] theorem respondCsr_osc1 (s : State) (v : CsrValue) : (respondCsr v s).osc1 = s.osc1 := by cases v <;> rfl
@[simp] theorem respondCsr_osc2 (s : State) (v : CsrValue) : (respondCsr v s).osc2 = s.osc2 := by cases v <;> rfl
@[simp] theorem respondCsr_osc3 (s : State) (v : CsrValue) : (respondCsr v s).osc3 = s.osc3 := by cases v <;> rfl
@[simp] theorem respondCsr_fad0 (s : State) (v : CsrValue) : (respondCsr v s).fad0 = s.fad0 := by cases v <;> rfl
@[simp] theorem respondCsr_fad1 (s : State) (v : CsrValue) : (respondCsr v s).fad1 = s.fad1 := by cases v <;> rfl
@[simp] theorem respondCsr_fad2 (s : State) (v : CsrValue) : (respondCsr v s).fad2 = s.fad2 := by cases v <;> rfl
@[simp] theorem respondCsr_cfg (s : State) (v : CsrValue) : (respondCsr v s).cfg = s.cfg := by cases v <;> rfl
@[simp] theorem respondCsr_evstat (s : State) (v : CsrValue) : (respondCsr v s).evstat = s.evstat := by cases v <;> rfl
@[simp] theorem respondCsr_evmask (s : State) (v : CsrValue) : (respondCsr v s).evmask = s.evmask := by cases v <;> rfl
@[simp] theorem respondCsr_fault (s : State) (v : CsrValue) : (respondCsr v s).fault = s.fault := by cases v <;> rfl
@[simp] theorem respondCsr_hist (s : State) (v : CsrValue) : (respondCsr v s).hist = s.hist := by cases v <;> rfl
@[simp] theorem respondCsr_wr (s : State) (v : CsrValue) : (respondCsr v s).wr = s.wr := by cases v <;> rfl
@[simp] theorem respondCsr_accepted (s : State) (v : CsrValue) : (respondCsr v s).accepted = s.accepted := by cases v <;> rfl
@[simp] theorem respondCsr_rst (s : State) (v : CsrValue) : (respondCsr v s).rst = s.rst := by cases v <;> rfl
@[simp] theorem respondCsr_osc (s : State) (v : CsrValue) (k : OscId) : (respondCsr v s).osc k = s.osc k := by cases v <;> cases k <;> rfl
@[simp] theorem respondCsr_fad (s : State) (v : CsrValue) (k : FadId) : (respondCsr v s).fad k = s.fad k := by cases v <;> cases k <;> rfl
@[simp] theorem respondCsr_baseFreq (s : State) (v : CsrValue) (k : OscId) : (respondCsr v s).baseFreq k = s.baseFreq k := by cases v <;> cases k <;> rfl

/-- The response to a CSR read changes the response and the free-pattern counter only. -/
theorem respondCsr_cases (v : CsrValue) (s : State) :
    (∃ x, v = .real x ∧ respondCsr v s = respondReal x s) ∨ (∃ w, v = .word w ∧ respondCsr v s = respondWord w s) := by
  cases v with
  | real x => exact .inl ⟨x, rfl, rfl⟩
  | word w => exact .inr ⟨w, rfl, rfl⟩

end Sys2Proof.Machine
end

