-- ==== Sys2Proof/Laws/Memory.lean ====
section
/-! SUPPORT. Laws/Memory.lean: read after write, and that every memory operation keeps the canonical form and the bounds of
the history space (spec/20_memory.md R41 to R43). -/

set_option Elab.async false

namespace Sys2Proof.Machine

/-- Reading a byte after a store: the byte stored, or the byte that was there. -/
theorem Memory.byteAt_put (m : Memory) (a : Nat) (v : Byte) (x : Nat) :
    Memory.byteAt (Memory.put m a v) x = if x = a then some v else Memory.byteAt m x := by
  induction m with
  | nil => simp [Memory.put, Memory.byteAt, eq_comm]
  | cons c m ih =>
    by_cases h1 : a < c.1
    · by_cases h : x = a
      · simp [Memory.put, Memory.byteAt, h1, h]
      · simp [Memory.put, Memory.byteAt, h1, h, Ne.symm h]
    by_cases h2 : a = c.1
    · by_cases h : x = a
      · simp [Memory.put, Memory.byteAt, h2, h]
      · have h' : c.1 ≠ x := fun e => h (h2.trans e).symm
        simp [Memory.put, Memory.byteAt, h2, h', Ne.symm h']
    · by_cases h : c.1 = x
      · subst h
        simp [Memory.put, Memory.byteAt, h1, h2, Ne.symm h2]
      · simp [Memory.put, Memory.byteAt, h1, h2, h, ih]

/-- The entries after a store are the new one and old ones. -/
theorem Memory.mem_put {m : Memory} {a : Nat} {v : Byte} {c : Host.Cell} (h : c ∈ Memory.put m a v) :
    c = (a, v) ∨ c ∈ m := by
  induction m with
  | nil => simpa [Memory.put] using h
  | cons d m ih =>
    simp only [Memory.put] at h
    split_ifs at h <;> simp only [List.mem_cons] at h ⊢
    · tauto
    · tauto
    · rcases h with h | h
      · exact .inr (.inl h)
      · exact (ih h).imp id .inr

/-- A store keeps the canonical form. -/
theorem Memory.put_wf {m : Memory} (h : Memory.wf m) (a : Nat) (v : Byte) : Memory.wf (Memory.put m a v) := by
  induction m with
  | nil => simp [Memory.put, Memory.wf]
  | cons c m ih =>
    obtain ⟨hc, hm⟩ := List.pairwise_cons.mp h
    simp only [Memory.put]
    split_ifs with h1 h2
    · refine List.pairwise_cons.mpr ⟨?_, h⟩
      rintro d (_ | ⟨_, hd⟩)
      · exact h1
      · exact h1.trans (hc d hd)
    · subst h2
      exact List.pairwise_cons.mpr ⟨hc, hm⟩
    · refine List.pairwise_cons.mpr ⟨?_, ih hm⟩
      intro d hd
      rcases Memory.mem_put hd with rfl | hd
      · show c.1 < a; omega
      · exact hc d hd

/-- Reading one byte after a store, as the machine reads it. -/
theorem Memory.read_put (m : Memory) (a : Nat) (v : Byte) (x : Nat) :
    Memory.read (Memory.put m a v) x = if x = a then v else Memory.read m x := by
  unfold Memory.read; rw [Memory.byteAt_put]; split_ifs <;> rfl

/-- A word store keeps the canonical form. -/
theorem Memory.putWord_wf {m : Memory} (h : Memory.wf m) (a : Nat) (w : Word) :
    Memory.wf (Memory.putWord m a w) :=
  Memory.put_wf (Memory.put_wf (Memory.put_wf (Memory.put_wf h _ _) _ _) _ _) _ _

/-- The entries after a word store are its four bytes and old ones. -/
theorem Memory.mem_putWord {m : Memory} {a : Nat} {w : Word} {c : Host.Cell} (h : c ∈ Memory.putWord m a w) :
    (a ≤ c.1 ∧ c.1 < a + 4) ∨ c ∈ m := by
  unfold Memory.putWord at h
  rcases Memory.mem_put h with rfl | h
  · left; constructor <;> show _ <;> simp
  rcases Memory.mem_put h with rfl | h
  · left; constructor <;> show _ <;> simp
  rcases Memory.mem_put h with rfl | h
  · left; constructor <;> show _ <;> simp
  rcases Memory.mem_put h with rfl | h
  · left; constructor <;> show _ <;> simp
  · exact .inr h

/-- A word store leaves every byte outside its four. -/
theorem Memory.read_putWord_other (m : Memory) (a : Nat) (w : Word) (x : Nat) (h : x < a ∨ a + 4 ≤ x) :
    Memory.read (Memory.putWord m a w) x = Memory.read m x := by
  unfold Memory.putWord
  rw [Memory.read_put, Memory.read_put, Memory.read_put, Memory.read_put, if_neg (by omega), if_neg (by omega),
    if_neg (by omega), if_neg (by omega)]

/-- The four bytes of a word put together again. -/
theorem word_of_bytes (w : Word) :
    w.extractLsb' 24 8 ++ w.extractLsb' 16 8 ++ w.extractLsb' 8 8 ++ w.extractLsb' 0 8 = w := by
  apply BitVec.eq_of_getLsbD_eq
  intro i hi
  simp only [BitVec.getLsbD_append, BitVec.getLsbD_extractLsb']
  by_cases h1 : i < 8
  · simp [h1]
  by_cases h2 : i - 8 < 8
  · simp [h1, h2, show 8 + (i - 8) = i by omega]
  by_cases h3 : i - 8 - 8 < 8
  · simp [h1, h2, h3, show 16 + (i - 8 - 8) = i by omega]
  · simp [h1, h2, h3, show 24 + (i - 8 - 8 - 8) = i by omega, show i - 8 - 8 - 8 < 8 by omega]

/-- A word read where it was stored. -/
theorem Memory.readWord_putWord (m : Memory) (a : Nat) (w : Word) :
    Memory.readWord (Memory.putWord m a w) a = w := by
  unfold Memory.readWord Memory.putWord
  simp only [Memory.read_put]
  simp only [Nat.add_eq_left, Nat.add_left_cancel_iff]
  simpa using word_of_bytes w

/-- A word read clear of a word store. -/
theorem Memory.readWord_putWord_other (m : Memory) (a b : Nat) (w : Word) (h : b + 4 ≤ a ∨ a + 4 ≤ b) :
    Memory.readWord (Memory.putWord m a w) b = Memory.readWord m b := by
  unfold Memory.readWord
  rw [Memory.read_putWord_other _ _ _ _ (by omega), Memory.read_putWord_other _ _ _ _ (by omega),
    Memory.read_putWord_other _ _ _ _ (by omega), Memory.read_putWord_other _ _ _ _ (by omega)]

/-- A push keeps the canonical form. -/
theorem histPush_wf (cap : Nat) (v w : Word) {s : State} (h : Memory.wf s.hist) :
    Memory.wf (histPush cap v w s).hist :=
  Memory.putWord_wf (Memory.putWord_wf h _ _) _ _

/-- A push stores inside the space. -/
theorem histPush_bound (cap : Nat) (v w : Word) {s : State} (hw : s.wr < cap)
    (h : ∀ c ∈ s.hist, c.1 < 8 * cap) : ∀ c ∈ (histPush cap v w s).hist, c.1 < 8 * cap := by
  intro c hc
  simp only [histPush_hist] at hc
  rcases Memory.mem_putWord hc with hc | hc
  · simp only [histAddr, Channel.num] at hc; omega
  rcases Memory.mem_putWord hc with hc | hc
  · simp only [histAddr, Channel.num] at hc; omega
  · exact h c hc

/-- A push leaves the write position inside the space. -/
theorem histPush_wr_lt (cap : Nat) (v w : Word) (s : State) (h : 0 < cap) : (histPush cap v w s).wr < cap :=
  Nat.mod_lt _ h

/-- A push writes the eight bytes at `8 WR` and no others. -/
theorem histPush_read_other (cap : Nat) (v w : Word) (s : State) (a : Nat) (h : a < 8 * s.wr ∨ 8 * s.wr + 8 ≤ a) :
    Memory.read (histPush cap v w s).hist a = Memory.read s.hist a := by
  simp only [histPush_hist]
  rw [Memory.read_putWord_other _ _ _ _ (by simp only [histAddr, Channel.num]; omega),
    Memory.read_putWord_other _ _ _ _ (by simp only [histAddr, Channel.num]; omega)]

/-- What a slot of the history holds after a push: the pushed word in the slot written, the old word elsewhere. -/
theorem histPush_slot (cap : Nat) (v w : Word) (s : State) (c : Channel) (i : Nat) :
    Memory.readWord (histPush cap v w s).hist (histAddr c i) =
      if i = s.wr then (match c with | .ch0 => v | .ch1 => w) else Memory.readWord s.hist (histAddr c i) := by
  simp only [histPush_hist]
  split_ifs with h
  · subst h
    cases c with
    | ch0 =>
      rw [Memory.readWord_putWord_other _ _ _ _ (by simp only [histAddr, Channel.num]; omega),
        Memory.readWord_putWord]
    | ch1 => rw [Memory.readWord_putWord]
  · have hi : i < s.wr ∨ s.wr < i := by omega
    rw [Memory.readWord_putWord_other _ _ _ _ (by cases c <;> simp only [histAddr, Channel.num] <;> omega),
      Memory.readWord_putWord_other _ _ _ _ (by cases c <;> simp only [histAddr, Channel.num] <;> omega)]

/-- Delay 0 after a push is the slot just written (R43). -/
theorem histSlot_push_zero {cap wr : Nat} (h : wr < cap) : histSlot cap ((wr + 1) % cap) 0 = wr := by
  unfold histSlot
  rcases Nat.lt_or_ge (wr + 1) cap with h' | h'
  · rw [Nat.mod_eq_of_lt h', show wr + 1 + (cap - 1 - 0) = wr + cap by omega, Nat.add_mod_right,
      Nat.mod_eq_of_lt h]
  · rw [show wr + 1 = cap by omega, Nat.mod_self, Nat.zero_add, Nat.mod_eq_of_lt (by omega)]
    omega

/-- A longer delay after a push is the slot of the delay one shorter before it, which the push did not write (R43). -/
theorem histSlot_push_succ {cap wr n : Nat} (h : wr < cap) (hn : n + 1 < cap) :
    histSlot cap ((wr + 1) % cap) (n + 1) = histSlot cap wr n ∧ histSlot cap wr n ≠ wr := by
  unfold histSlot
  constructor
  · rw [Nat.mod_add_mod]; congr 1; omega
  · rcases Nat.lt_or_ge (wr + (cap - 1 - n)) cap with h' | h'
    · rw [Nat.mod_eq_of_lt h']; omega
    · rw [Nat.mod_eq_sub_mod h', Nat.mod_eq_of_lt (by omega)]; omega

/-- What a read gives after a push (R42, R43): the pushed word at delay 0, and one place back from there what was read at
the delay one shorter. -/
theorem histRead_histPush {cap : Nat} (v w : Word) {s : State} (c : Channel) {n : Nat} (h : s.wr < cap) (hn : n < cap) :
    histRead cap c n (histPush cap v w s) =
      match n with
      | 0 => (match c with | .ch0 => v | .ch1 => w)
      | m + 1 => histRead cap c m s := by
  unfold histRead
  rw [histPush_slot, histPush_wr]
  cases n with
  | zero => simp [histSlot_push_zero h]
  | succ m =>
    obtain ⟨h1, h2⟩ := histSlot_push_succ h hn
    simp [h1, h2]

end Sys2Proof.Machine
end

