-- ==== Sys2Proof/Laws/Ops.lean ====
section
/-! SUPPORT. Laws/Ops.lean: for each shared sub-operation one lemma that says everything it does, as an update of the state
it is given; callers cite it and do not unfold the operation. -/

set_option Elab.async false

namespace Sys2Proof.Machine

/-- An event bit that is not set changes nothing. -/
@[simp] theorem eventIf_false (w : Word) : Reference.eventIf false w = 0 := rfl

/-- An event bit that is set. -/
@[simp] theorem eventIf_true (w : Word) : Reference.eventIf true w = w := rfl

/-- `shape` (R102) is the curve of the reference. -/
theorem shapeCurve_eq (sh : Shape) (x : F32) : shapeCurve sh x = Reference.shape sh x := by cases sh <;> rfl

/-- `env_value` (R101), one line a phase. -/
theorem envValue_eq (e : Env) : envValue e = Reference.envValue e := by
  obtain ⟨a, p, t, at', d, su, r, sh⟩ := e
  cases a <;> cases p <;> cases sh <;> rfl

/-- `env_run` (R105) writes the envelope and `EVSTAT`, as its loop written out says. -/
theorem envRun_eq (dt : F32) (s : State) :
    envRun dt s = orEvents (Reference.envRun dt s.env).2 (s.setEnv (Reference.envRun dt s.env).1) := by
  obtain ⟨⟨a, p, t, at', d, su, r, sh⟩, o1, o2, o3, f0, f1, f2, g, ev, m, ft, h, w, ac, rs, rp, dr⟩ := s
  cases a
  · simp [envRun, Reference.envRun, State.setEnv, orEvents]
  cases p
  · by_cases h1 : (t.add dt).ge at' = true
    · by_cases h2 : ((t.add dt).sub at').ge d = true
      · simp [envRun, Reference.envRun, envLoop, Env.dur, State.setEnv, orEvents, nextPhase, setEv, h1, h2, Event.bit, oneBit,
          BitVec.or_assoc]
      · simp [envRun, Reference.envRun, envLoop, Env.dur, State.setEnv, orEvents, nextPhase, setEv, h1, h2, Event.bit, oneBit]
    · simp [envRun, Reference.envRun, envLoop, Env.dur, State.setEnv, orEvents, h1]
  · by_cases h1 : (t.add dt).ge d = true
    · simp [envRun, Reference.envRun, envLoop, Env.dur, State.setEnv, orEvents, nextPhase, setEv, h1, Event.bit, oneBit]
    · simp [envRun, Reference.envRun, envLoop, Env.dur, State.setEnv, orEvents, h1]
  · simp [envRun, Reference.envRun, envLoop, Env.dur, State.setEnv, orEvents]
  · by_cases h1 : (t.add dt).ge r = true
    · simp [envRun, Reference.envRun, envLoop, Env.dur, State.setEnv, orEvents, setEv, h1, Event.bit, oneBit]
    · simp [envRun, Reference.envRun, envLoop, Env.dur, State.setEnv, orEvents, h1]

/-- `env_run` (R105) keeps the four parameters and the shape. -/
theorem refEnvRun_keeps (dt : F32) (e : Env) :
    (Reference.envRun dt e).1.attack = e.attack ∧ (Reference.envRun dt e).1.decay = e.decay ∧
      (Reference.envRun dt e).1.sustain = e.sustain ∧ (Reference.envRun dt e).1.release = e.release ∧
      (Reference.envRun dt e).1.shape = e.shape := by
  obtain ⟨a, p, t, at', d, su, r, sh⟩ := e
  cases a <;> cases p <;> simp only [Reference.envRun] <;> split_ifs <;> simp_all

/-- `env_run` (R105) sets at most `ENV_PHASE` or `ENV_STOP`. -/
theorem refEnvRun_events (dt : F32) (e : Env) :
    (Reference.envRun dt e).2 = 0 ∨ (Reference.envRun dt e).2 = 2 ∨ (Reference.envRun dt e).2 = 4 := by
  obtain ⟨a, p, t, at', d, su, r, sh⟩ := e
  cases a <;> cases p <;> simp only [Reference.envRun] <;> split_ifs <;> simp_all

/-- `env_run` (R105) stays in SUSTAIN. -/
theorem refEnvRun_sustain (dt : F32) (e : Env) (ha : e.active = true) (hp : e.phase = .sustain) :
    Reference.envRun dt e = ({ e with t := e.t.add dt }, 0) := by
  unfold Reference.envRun
  simp [ha, hp]

/-- `env_run` (R105) of an inactive envelope is no operation. -/
theorem refEnvRun_inactive (dt : F32) (e : Env) (ha : e.active = false) : Reference.envRun dt e = (e, 0) := by
  unfold Reference.envRun
  simp [ha]

/-- The square position (R131) is NaN exactly for the value NaN. -/
theorem isNan_iff (x : F32) : x.isNan = true ↔ x = .nan := by cases x <;> simp [F32.isNan]

/-- `osc_value` (R131). -/
theorem oscValue_eq (o : Osc) : oscValue o = Reference.oscValue o := by
  unfold oscValue Reference.oscValue
  cases o.waveform
  · rfl
  · rfl
  · show squareWave o.x = _
    unfold squareWave
    simp only [isNan_iff, Bool.or_eq_true]
    rfl

/-- `osc_integral` (R133). -/
theorem oscIntegral_eq (o : Osc) : oscIntegral o = Reference.oscIntegral o := by
  unfold oscIntegral Reference.oscIntegral
  cases o.waveform <;> rfl

/-- `osc_run` (R128) on the oscillator alone. -/
theorem refOscRun_eq (dt : F32) (o : Osc) :
    Reference.oscRun dt o = if o.active = false then (o, false) else (o.advanced dt, o.crosses dt) := by
  unfold Reference.oscRun Osc.advanced Osc.crosses Osc.shifted Osc.inc F32.wrap Reference.frac
  dsimp only
  split_ifs with h1 h2
  · rfl
  · rw [h2]
  · rw [Bool.eq_false_iff.mpr h2]

/-- `osc_run` (R128) writes one oscillator and at most its restart flag. -/
theorem oscRun_eq (k : OscId) (dt : F32) (s : State) :
    oscRun k dt s =
      orEvents (Reference.eventIf (Reference.oscRun dt (s.osc k)).2 (oneBit (3 * k.code + 1)))
        (s.setOsc k (Reference.oscRun dt (s.osc k)).1) := by
  rw [refOscRun_eq]
  unfold oscRun
  dsimp only
  cases ha : (s.osc k).active
  · cases k <;> simp [State.setOsc, State.osc, orEvents]
  · cases hc : (s.osc k).crosses dt <;> cases k <;> simp [State.setOsc, setEv, Event.bit, orEvents]

/-- `osc_run` (R128) keeps what it does not write, and leaves the waveform as it was or at the scheduled one. -/
theorem refOscRun_keeps (dt : F32) (o : Osc) :
    (Reference.oscRun dt o).1.sched = o.sched ∧ (Reference.oscRun dt o).1.freq = o.freq ∧
      (Reference.oscRun dt o).1.shift = o.shift ∧ (Reference.oscRun dt o).1.active = o.active ∧
      ((Reference.oscRun dt o).1.waveform = o.waveform ∨ (Reference.oscRun dt o).1.waveform = o.sched) := by
  unfold Reference.oscRun
  dsimp only
  split_ifs <;> simp

/-- `fad_proceed` (R141) writes one fader. -/
theorem fadStep_eq (j : FadId) (s : State) : fadStep j s = s.setFad j (Reference.proceed (s.fad j)) := by
  unfold fadStep Fader.proceeded Reference.proceed
  dsimp only
  split_ifs <;> rfl

/-- A new target and one step (R142). -/
theorem fadToward_eq (j : FadId) (v : F32) (s : State) :
    fadToward j v s = s.setFad j (Reference.proceed { s.fad j with target := v }) := by
  unfold fadToward
  rw [fadStep_eq]
  cases j <;> rfl

/-- `fad_proceed` (R141) writes the value only. -/
@[simp] theorem proceed_target (f : Fader) : (Reference.proceed f).target = f.target := by
  unfold Reference.proceed; dsimp only; split_ifs <;> rfl

/-- `fad_proceed` (R141) writes the value only. -/
@[simp] theorem proceed_step (f : Fader) : (Reference.proceed f).step = f.step := by
  unfold Reference.proceed; dsimp only; split_ifs <;> rfl

/-- The rescale of `ENV.SETP` (R109) writes the elapsed time only. -/
theorem rescale_keeps (e : Env) (id : Phase) (v cur : F32) :
    e.rescale id v cur = { e with t := (e.rescale id v cur).t } := by
  cases id <;> simp only [Env.rescale] <;> split_ifs <;> rfl

@[simp] theorem rescale_active (e : Env) (id : Phase) (v cur : F32) : (e.rescale id v cur).active = e.active := by
  rw [rescale_keeps]

@[simp] theorem rescale_phase (e : Env) (id : Phase) (v cur : F32) : (e.rescale id v cur).phase = e.phase := by
  rw [rescale_keeps]

@[simp] theorem rescale_shape (e : Env) (id : Phase) (v cur : F32) : (e.rescale id v cur).shape = e.shape := by
  rw [rescale_keeps]

@[simp] theorem rescale_attack (e : Env) (id : Phase) (v cur : F32) : (e.rescale id v cur).attack = e.attack := by
  rw [rescale_keeps]

@[simp] theorem rescale_decay (e : Env) (id : Phase) (v cur : F32) : (e.rescale id v cur).decay = e.decay := by
  rw [rescale_keeps]

@[simp] theorem rescale_sustain (e : Env) (id : Phase) (v cur : F32) : (e.rescale id v cur).sustain = e.sustain := by
  rw [rescale_keeps]

@[simp] theorem rescale_release (e : Env) (id : Phase) (v cur : F32) : (e.rescale id v cur).release = e.release := by
  rw [rescale_keeps]

@[simp] theorem setParam_active (e : Env) (id : Phase) (v : F32) : (e.setParam id v).active = e.active := by
  cases id <;> rfl

@[simp] theorem setParam_phase (e : Env) (id : Phase) (v : F32) : (e.setParam id v).phase = e.phase := by
  cases id <;> rfl

@[simp] theorem setParam_shape (e : Env) (id : Phase) (v : F32) : (e.setParam id v).shape = e.shape := by
  cases id <;> rfl

@[simp] theorem setParam_t (e : Env) (id : Phase) (v : F32) : (e.setParam id v).t = e.t := by
  cases id <;> rfl

/-- A code that R19 admits is a mode. -/
theorem setMode_of_admits (g : EngCfg) (k : OscId) (d : Word) (h : (Csr.oscMode k).admits d = true) :
    (g.setMode k d.toNat).isSome = true := by
  unfold EngCfg.setMode
  cases k <;> simp only [Csr.admits, List.contains_iff_mem, List.mem_cons, List.not_mem_nil, or_false] at h <;>
    generalize d.toNat = n at h ⊢ <;> (have : n < 8 := by omega) <;> interval_cases n <;>
    first
    | rfl
    | omega

/-- What `SYS.CSRW` (R181) can do: write the engine registers, write `EVMASK`, or be illegal. -/
theorem csrWrite_cases (r : Csr) (d : Word) (s : State) :
    (∃ g, cfgWrite r d s.cfg = some g ∧ csrWrite r d s = respondNone { s with cfg := g }) ∨
      (r = .evmask ∧ csrWrite r d s = respondNone (setEvmask d s)) ∨
      ((r.writable && r.admits d) = false ∧ csrWrite r d s = illegal s) := by
  unfold csrWrite
  by_cases h : r = .evmask
  · simp [h]
  · rw [if_neg h]
    cases hc : cfgWrite r d s.cfg with
    | some g => exact .inl ⟨g, rfl, rfl⟩
    | none =>
      refine .inr (.inr ⟨?_, rfl⟩)
      cases r <;> simp_all [cfgWrite, Csr.writable]
      rename_i k
      by_contra ha
      have ha' : (Csr.oscMode k).admits d = true := by simpa using ha
      have hm := setMode_of_admits s.cfg k d ha'
      rw [laneNat] at hc
      simp [hc ha'] at hm

/-- What `SYS.CSRR` (R180) can do: answer, and take a free pattern. -/
theorem respondCsr_form (v : CsrValue) (s : State) :
    ∃ r0 n, respondCsr v s = { s with rsp := some ⟨r0, 0⟩, draws := n } := by
  cases v <;> exact ⟨_, _, rfl⟩

@[simp] theorem csrWrite_env (r : Csr) (d : Word) (s : State) : (csrWrite r d s).env = s.env := by
  unfold csrWrite; split_ifs
  · rfl
  · split <;> rfl

@[simp] theorem csrWrite_osc1 (r : Csr) (d : Word) (s : State) : (csrWrite r d s).osc1 = s.osc1 := by
  unfold csrWrite; split_ifs
  · rfl
  · split <;> rfl

@[simp] theorem csrWrite_osc2 (r : Csr) (d : Word) (s : State) : (csrWrite r d s).osc2 = s.osc2 := by
  unfold csrWrite; split_ifs
  · rfl
  · split <;> rfl

@[simp] theorem csrWrite_osc3 (r : Csr) (d : Word) (s : State) : (csrWrite r d s).osc3 = s.osc3 := by
  unfold csrWrite; split_ifs
  · rfl
  · split <;> rfl

@[simp] theorem csrWrite_fad0 (r : Csr) (d : Word) (s : State) : (csrWrite r d s).fad0 = s.fad0 := by
  unfold csrWrite; split_ifs
  · rfl
  · split <;> rfl

@[simp] theorem csrWrite_fad1 (r : Csr) (d : Word) (s : State) : (csrWrite r d s).fad1 = s.fad1 := by
  unfold csrWrite; split_ifs
  · rfl
  · split <;> rfl

@[simp] theorem csrWrite_fad2 (r : Csr) (d : Word) (s : State) : (csrWrite r d s).fad2 = s.fad2 := by
  unfold csrWrite; split_ifs
  · rfl
  · split <;> rfl

@[simp] theorem csrWrite_evstat (r : Csr) (d : Word) (s : State) : (csrWrite r d s).evstat = s.evstat := by
  unfold csrWrite; split_ifs
  · rfl
  · split <;> rfl

@[simp] theorem csrWrite_hist (r : Csr) (d : Word) (s : State) : (csrWrite r d s).hist = s.hist := by
  unfold csrWrite; split_ifs
  · rfl
  · split <;> rfl

@[simp] theorem csrWrite_wr (r : Csr) (d : Word) (s : State) : (csrWrite r d s).wr = s.wr := by
  unfold csrWrite; split_ifs
  · rfl
  · split <;> rfl

@[simp] theorem csrWrite_accepted (r : Csr) (d : Word) (s : State) : (csrWrite r d s).accepted = s.accepted := by
  unfold csrWrite; split_ifs
  · rfl
  · split <;> rfl

@[simp] theorem csrWrite_rst (r : Csr) (d : Word) (s : State) : (csrWrite r d s).rst = s.rst := by
  unfold csrWrite; split_ifs
  · rfl
  · split <;> rfl

@[simp] theorem csrWrite_draws (r : Csr) (d : Word) (s : State) : (csrWrite r d s).draws = s.draws := by
  unfold csrWrite; split_ifs
  · rfl
  · split <;> rfl

@[simp] theorem csrWrite_osc (r : Csr) (d : Word) (s : State) (k : OscId) : (csrWrite r d s).osc k = s.osc k := by
  cases k <;> simp [State.osc]

@[simp] theorem csrWrite_fad (r : Csr) (d : Word) (s : State) (k : FadId) : (csrWrite r d s).fad k = s.fad k := by
  cases k <;> simp [State.fad]

/-- Every `SYS.CSRW` answers zeros (R64, R70). -/
@[simp] theorem csrWrite_rsp (r : Csr) (d : Word) (s : State) : (csrWrite r d s).rsp = some ⟨0, 0⟩ := by
  unfold csrWrite; split_ifs
  · rfl
  · split <;> rfl

end Sys2Proof.Machine
end

