-- ==== Sys2Proof/Laws/Engine.lean ====
section
/-! SUPPORT. Laws/Engine.lean: the stages of `ENG.SAMPLE` (spec/44_engine.md) as updates of the state: the router, the
combiner, the delay reader, and what the whole command leaves alone. -/

set_option Elab.async false

namespace Sys2Proof.Machine

/-- What `route` (R155) does to each accumulator. -/
theorem route_eq (m : RouteMode) (a : F32) (k : OscId) (s : State) (x : Mix) :
    route m a k s x =
      { signal := if m = .add then x.signal.add (a.mul (oscValue (s.osc k))) else x.signal
        integral := if m = .add then x.integral.add (displacement a k s) else x.integral
        fm1 := if m = .fm1 then x.fm1.mul (fmFactor a (oscValue (s.osc k))) else x.fm1
        fm2 := if m = .fm2 then x.fm2.mul (fmFactor a (oscValue (s.osc k))) else x.fm2
        pm1 := if m = .pm1 then x.pm1.add (a.mul (oscValue (s.osc k))) else x.pm1
        pm2 := if m = .pm2 then x.pm2.add (a.mul (oscValue (s.osc k))) else x.pm2
        am1 := if m = .am1 then x.am1.mul (amFactor a (oscValue (s.osc k))) else x.am1
        am2 := if m = .am2 then x.am2.mul (amFactor a (oscValue (s.osc k))) else x.am2 } := by
  cases m <;> rfl

/-- Step 1 (R153) as an update. -/
theorem engOsc3_eq (dt : F32) (s : State) :
    engOsc3 dt s =
      { s with
        osc3 := (Reference.oscRun dt { s.osc3 with freq := s.cfg.f3 }).1
        evstat := s.evstat ||| Reference.eventIf (Reference.oscRun dt { s.osc3 with freq := s.cfg.f3 }).2 0x400 } := by
  unfold engOsc3; rw [oscRun_eq]; rfl

/-- Step 3 (R159) as an update. -/
theorem engOsc2_eq (dt : F32) (x : Mix) (s : State) :
    engOsc2 dt x s =
      { s with
        osc2 := (Reference.oscRun dt { s.osc2 with freq := s.cfg.f2.mul x.fm2, shift := x.pm2 }).1
        evstat := s.evstat |||
          Reference.eventIf (Reference.oscRun dt { s.osc2 with freq := s.cfg.f2.mul x.fm2, shift := x.pm2 }).2
            0x080 } := by
  unfold engOsc2; rw [oscRun_eq]; rfl

/-- Step 4 (R161) in LFO mode, the advance, as an update. -/
theorem engOsc1_eq (dt : F32) (x : Mix) (s : State) :
    engOsc1 dt x s =
      { s with
        osc1 := (Reference.oscRun dt { s.osc1 with freq := s.cfg.f1.mul x.fm1, shift := x.pm1 }).1
        evstat := s.evstat |||
          Reference.eventIf (Reference.oscRun dt { s.osc1 with freq := s.cfg.f1.mul x.fm1, shift := x.pm1 }).2
            0x010 } := by
  unfold engOsc1; rw [oscRun_eq]; rfl

/-- The router (R153 to R161) as an update, with the two sums it hands on. -/
theorem engRoute_eq (s : State) :
    (engRoute (samplePeriod s) s).1 =
        { s with
          osc3 := (Reference.router s.cfg s.osc3 s.osc2 s.osc1).osc3
          osc2 := (Reference.router s.cfg s.osc3 s.osc2 s.osc1).osc2
          osc1 := (Reference.router s.cfg s.osc3 s.osc2 s.osc1).osc1
          evstat := s.evstat ||| (Reference.router s.cfg s.osc3 s.osc2 s.osc1).events } ∧
      (engRoute (samplePeriod s) s).2.signal = (Reference.router s.cfg s.osc3 s.osc2 s.osc1).signal ∧
      (engRoute (samplePeriod s) s).2.integral = (Reference.router s.cfg s.osc3 s.osc2 s.osc1).integral := by
  unfold engRoute Reference.router
  simp only [engOsc3_eq, engOsc2_eq, engOsc1_eq, route_eq, mixStart, samplePeriod, oscValue_eq, oscIntegral_eq,
    displacement, State.osc, State.baseFreq, fmFactor, amFactor, Reference.fmTerm, Reference.amTerm,
    Reference.displaced]
  cases s.cfg.m1 <;> simp [BitVec.or_assoc]

/-- The divisor (R160). -/
theorem divisor_eq (g : EngCfg) : divisor g = Reference.divisor g := by
  unfold divisor Reference.divisor
  split_ifs <;> rfl

/-- Steps 6 to 9 (R162 to R165) as an update. -/
theorem engShape_eq (dt signal integral : F32) (s : State) :
    engShape dt signal integral s =
      { s with
        env := (Reference.envRun dt s.env).1
        evstat := s.evstat ||| (Reference.envRun dt s.env).2
        fad0 := Reference.proceed
          { s.fad0 with
            target := (s.cfg.semi.sub .one).mul
              ((integral.mul (Reference.envValue (Reference.envRun dt s.env).1)).mul s.cfg.depth) }
        fad1 := Reference.proceed
          { s.fad1 with
            target := F32.one.sub
              (s.cfg.trem.mul (signal.mul (Reference.envValue (Reference.envRun dt s.env).1))) }
        fad2 := Reference.proceed { s.fad2 with target := (F32.one.sub s.cfg.bypass).mul s.cfg.drywet } } := by
  unfold engShape
  simp only [envRun_eq, fadToward_eq, envValue_eq]
  rfl

/-- Steps 1 to 9 (R150) as an update. -/
theorem engModulate_eq (s : State) :
    engModulate s =
      engShape (F32.one.div s.cfg.rate)
        ((Reference.router s.cfg s.osc3 s.osc2 s.osc1).signal.div (Reference.divisor s.cfg))
        ((Reference.router s.cfg s.osc3 s.osc2 s.osc1).integral.div (Reference.divisor s.cfg))
        { s with
          osc3 := (Reference.router s.cfg s.osc3 s.osc2 s.osc1).osc3
          osc2 := (Reference.router s.cfg s.osc3 s.osc2 s.osc1).osc2
          osc1 := (Reference.router s.cfg s.osc3 s.osc2 s.osc1).osc1
          evstat := s.evstat ||| (Reference.router s.cfg s.osc3 s.osc2 s.osc1).events } := by
  unfold engModulate
  dsimp only
  rw [(engRoute_eq s).1, (engRoute_eq s).2.1, (engRoute_eq s).2.2, divisor_eq]
  rfl

/-- The index check (R168) touches `FAULT.IDX` only. -/
theorem checkDelays_eq (cap : Nat) (s : State) :
    checkDelays cap s =
      { s with
        fault := if (dryDelay cap s).isSome && (wetDelay cap s).isSome then s.fault else s.fault ||| 2 } := by
  unfold checkDelays
  split_ifs <;> simp [raiseFault, oneBit, FaultFlag.bit]

/-- `index(u)` (R167) succeeds exactly inside the history. -/
theorem delayIndex_isSome (u : F32) : (delayIndex Config.cap u).isSome = true ↔ Reference.inRange u := by
  unfold delayIndex Reference.inRange
  cases u.trunc with
  | none => simp
  | some n => by_cases h : n < 0 ∨ (Config.cap : ℤ) - 1 < n <;> simp

/-- `index(u)` (R167) is the truncation. -/
theorem delayIndex_eq (u : F32) (n : Nat) (h : u.trunc = some (n : ℤ)) (hn : n ≤ Config.cap - 1) :
    delayIndex Config.cap u = some n := by
  have : 0 < Config.cap := Nat.succ_pos _
  unfold delayIndex
  rw [h]
  dsimp only
  rw [if_neg (by omega)]
  simp

/-- Step 10 (R166 to R169) on each field. -/
theorem engOutput_eq (cap : Nat) (d0 d1 : Word) (s : State) :
    engOutput cap d0 d1 s =
      respondReals (outSample cap .ch0 (histPush cap d0 d1 s)) (outSample cap .ch1 (histPush cap d0 d1 s))
        { histPush cap d0 d1 s with
          fault := if (dryDelay cap s).isSome && (wetDelay cap s).isSome then s.fault else s.fault ||| 2 } := by
  unfold engOutput
  dsimp only
  rw [checkDelays_eq]
  rfl

/-- The router (R153 to R161) keeps what it does not write. -/
theorem router_keeps (g : EngCfg) (o3 o2 o1 : Osc) :
    ((Reference.router g o3 o2 o1).osc3.sched = o3.sched ∧ (Reference.router g o3 o2 o1).osc3.active = o3.active ∧
      (Reference.router g o3 o2 o1).osc3.shift = o3.shift ∧
      ((Reference.router g o3 o2 o1).osc3.waveform = o3.waveform ∨
        (Reference.router g o3 o2 o1).osc3.waveform = o3.sched)) ∧
    ((Reference.router g o3 o2 o1).osc2.sched = o2.sched ∧ (Reference.router g o3 o2 o1).osc2.active = o2.active ∧
      ((Reference.router g o3 o2 o1).osc2.waveform = o2.waveform ∨
        (Reference.router g o3 o2 o1).osc2.waveform = o2.sched)) ∧
    ((Reference.router g o3 o2 o1).osc1.sched = o1.sched ∧ (Reference.router g o3 o2 o1).osc1.active = o1.active ∧
      ((Reference.router g o3 o2 o1).osc1.waveform = o1.waveform ∨
        (Reference.router g o3 o2 o1).osc1.waveform = o1.sched)) ∧
    (g.m1 = .user → (Reference.router g o3 o2 o1).osc1 = o1) := by
  have k := refOscRun_keeps
  cases h : g.m1 <;> simp only [Reference.router, h] <;> simp [k]

/-- The router (R195) sets restart flags only. -/
theorem router_events (g : EngCfg) (o3 o2 o1 : Osc) :
    ∃ b3 b2 b1 : Bool, (Reference.router g o3 o2 o1).events =
      Reference.eventIf b3 0x400 ||| Reference.eventIf b2 0x080 ||| Reference.eventIf b1 0x010 := by
  cases h : g.m1 with
  | user =>
    simp only [Reference.router, h]
    exact ⟨_, _, false, (BitVec.or_zero).symm⟩
  | lfo =>
    simp only [Reference.router, h]
    exact ⟨_, _, _, rfl⟩

@[simp] theorem engModulate_cfg (s : State) : (engModulate s).cfg = s.cfg := by
  simp only [engModulate_eq, engShape_eq]

@[simp] theorem engModulate_evmask (s : State) : (engModulate s).evmask = s.evmask := by
  simp only [engModulate_eq, engShape_eq]

@[simp] theorem engModulate_fault (s : State) : (engModulate s).fault = s.fault := by
  simp only [engModulate_eq, engShape_eq]

@[simp] theorem engModulate_hist (s : State) : (engModulate s).hist = s.hist := by
  simp only [engModulate_eq, engShape_eq]

@[simp] theorem engModulate_wr (s : State) : (engModulate s).wr = s.wr := by
  simp only [engModulate_eq, engShape_eq]

@[simp] theorem engModulate_accepted (s : State) : (engModulate s).accepted = s.accepted := by
  simp only [engModulate_eq, engShape_eq]

@[simp] theorem engModulate_rst (s : State) : (engModulate s).rst = s.rst := by
  simp only [engModulate_eq, engShape_eq]

@[simp] theorem engModulate_rsp (s : State) : (engModulate s).rsp = s.rsp := by
  simp only [engModulate_eq, engShape_eq]

@[simp] theorem engModulate_draws (s : State) : (engModulate s).draws = s.draws := by
  simp only [engModulate_eq, engShape_eq]

@[simp] theorem engSampleWith_env (cap : Nat) (d0 d1 : Word) (s : State) :
    (engSampleWith cap d0 d1 s).env = (engModulate s).env := by
  simp only [engSampleWith, engOutput_eq, respondReals_env, histPush_env]

@[simp] theorem engSampleWith_osc1 (cap : Nat) (d0 d1 : Word) (s : State) :
    (engSampleWith cap d0 d1 s).osc1 = (engModulate s).osc1 := by
  simp only [engSampleWith, engOutput_eq, respondReals_osc1, histPush_osc1]

@[simp] theorem engSampleWith_osc2 (cap : Nat) (d0 d1 : Word) (s : State) :
    (engSampleWith cap d0 d1 s).osc2 = (engModulate s).osc2 := by
  simp only [engSampleWith, engOutput_eq, respondReals_osc2, histPush_osc2]

@[simp] theorem engSampleWith_osc3 (cap : Nat) (d0 d1 : Word) (s : State) :
    (engSampleWith cap d0 d1 s).osc3 = (engModulate s).osc3 := by
  simp only [engSampleWith, engOutput_eq, respondReals_osc3, histPush_osc3]

@[simp] theorem engSampleWith_fad0 (cap : Nat) (d0 d1 : Word) (s : State) :
    (engSampleWith cap d0 d1 s).fad0 = (engModulate s).fad0 := by
  simp only [engSampleWith, engOutput_eq, respondReals_fad0, histPush_fad0]

@[simp] theorem engSampleWith_fad1 (cap : Nat) (d0 d1 : Word) (s : State) :
    (engSampleWith cap d0 d1 s).fad1 = (engModulate s).fad1 := by
  simp only [engSampleWith, engOutput_eq, respondReals_fad1, histPush_fad1]

@[simp] theorem engSampleWith_fad2 (cap : Nat) (d0 d1 : Word) (s : State) :
    (engSampleWith cap d0 d1 s).fad2 = (engModulate s).fad2 := by
  simp only [engSampleWith, engOutput_eq, respondReals_fad2, histPush_fad2]

@[simp] theorem engSampleWith_cfg (cap : Nat) (d0 d1 : Word) (s : State) :
    (engSampleWith cap d0 d1 s).cfg = (engModulate s).cfg := by
  simp only [engSampleWith, engOutput_eq, respondReals_cfg, histPush_cfg]

@[simp] theorem engSampleWith_evstat (cap : Nat) (d0 d1 : Word) (s : State) :
    (engSampleWith cap d0 d1 s).evstat = (engModulate s).evstat := by
  simp only [engSampleWith, engOutput_eq, respondReals_evstat, histPush_evstat]

@[simp] theorem engSampleWith_evmask (cap : Nat) (d0 d1 : Word) (s : State) :
    (engSampleWith cap d0 d1 s).evmask = (engModulate s).evmask := by
  simp only [engSampleWith, engOutput_eq, respondReals_evmask, histPush_evmask]

@[simp] theorem engSampleWith_accepted (cap : Nat) (d0 d1 : Word) (s : State) :
    (engSampleWith cap d0 d1 s).accepted = (engModulate s).accepted := by
  simp only [engSampleWith, engOutput_eq, respondReals_accepted, histPush_accepted]

@[simp] theorem engSampleWith_rst (cap : Nat) (d0 d1 : Word) (s : State) :
    (engSampleWith cap d0 d1 s).rst = (engModulate s).rst := by
  simp only [engSampleWith, engOutput_eq, respondReals_rst, histPush_rst]

/-- The push of the command (R166). -/
theorem engSampleWith_hist (cap : Nat) (d0 d1 : Word) (s : State) :
    (engSampleWith cap d0 d1 s).hist = (histPush cap d0 d1 s).hist := by
  simp [engSampleWith, engOutput_eq]

/-- The write position after the command (R42). -/
@[simp] theorem engSampleWith_wr (cap : Nat) (d0 d1 : Word) (s : State) :
    (engSampleWith cap d0 d1 s).wr = (s.wr + 1) % cap := by
  simp [engSampleWith, engOutput_eq]

/-- The fault register after the command (R168). -/
theorem engSampleWith_fault (cap : Nat) (d0 d1 : Word) (s : State) :
    (engSampleWith cap d0 d1 s).fault =
      if (dryDelay cap (engModulate s)).isSome && (wetDelay cap (engModulate s)).isSome then s.fault
      else s.fault ||| 2 := by
  simp [engSampleWith, engOutput_eq]

/-- The response of the command (R169). -/
theorem engSampleWith_rsp (cap : Nat) (d0 d1 : Word) (s : State) :
    (engSampleWith cap d0 d1 s).rsp =
      some ⟨(outSample cap .ch0 (histPush cap d0 d1 (engModulate s))).bits s.draws,
        (outSample cap .ch1 (histPush cap d0 d1 (engModulate s))).bits (s.draws + 1)⟩ := by
  simp [engSampleWith, engOutput_eq]

end Sys2Proof.Machine
end

