-- ==== Sys2Proof/Laws/Numerics.lean ====
section
/-! SUPPORT. Laws/Numerics.lean: what the two whole-number steps of the arithmetic of spec/40_numerics.md R82 compute: the
quotient rounded to nearest even, and the whole-number square root. -/

set_option Elab.async false

namespace Sys2Proof

/-- The rounded quotient is within half a unit. -/
theorem nearestEven_near (n u : Nat) (h : 0 < u) :
    2 * (u * nearestEven n u) ≤ 2 * n + u ∧ 2 * n ≤ 2 * (u * nearestEven n u) + u := by
  have hm := Nat.div_add_mod n u
  have hl := Nat.mod_lt n h
  unfold nearestEven
  dsimp only
  split_ifs with h1 h2
  · omega
  · rw [Nat.mul_add]; omega
  · rw [Nat.mul_add]
    rcases Nat.mod_two_eq_zero_or_one (n / u) with h3 | h3 <;> rw [h3] <;> omega

/-- Half way between two whole numbers the rounded quotient is even. -/
theorem nearestEven_tie (n u : Nat) (h : 2 * (n % u) = u) : nearestEven n u % 2 = 0 := by
  unfold nearestEven
  dsimp only
  rw [if_neg (by omega), if_neg (by omega)]
  omega

/-- A multiple of the unit is its own rounded quotient. -/
theorem nearestEven_exact (q u : Nat) (h : 0 < u) : nearestEven (q * u) u = q := by
  unfold nearestEven
  simp [Nat.mul_div_cancel q h, h]

/-- Rounding is monotone. -/
theorem nearestEven_mono {n m : Nat} (u : Nat) (hu : 0 < u) (h : n ≤ m) : nearestEven n u ≤ nearestEven m u := by
  have h1 := Nat.div_add_mod n u
  have h2 := Nat.div_add_mod m u
  have h3 := Nat.mod_lt n hu
  have h4 := Nat.mod_lt m hu
  have h5 : n / u ≤ m / u := Nat.div_le_div_right h
  unfold nearestEven
  dsimp only
  rcases Nat.lt_or_ge (n / u) (m / u) with h6 | h6
  · split_ifs <;> omega
  · have h7 : n / u = m / u := by omega
    rw [h7] at h1 ⊢
    split_ifs <;> omega

/-- The root from bit `i` down keeps its bracket. -/
theorem isqrtFrom_spec (i n r : Nat) (h1 : r * r ≤ n) (h2 : n < (r + 2 ^ i) * (r + 2 ^ i)) :
    isqrtFrom i n r * isqrtFrom i n r ≤ n ∧ n < (isqrtFrom i n r + 1) * (isqrtFrom i n r + 1) := by
  induction i generalizing r with
  | zero =>
    unfold isqrtFrom
    exact ⟨h1, by simpa using h2⟩
  | succ i ih =>
    unfold isqrtFrom
    split_ifs with h
    · exact ih _ h (by rw [show r + 2 ^ i + 2 ^ i = r + 2 ^ (i + 1) by ring]; exact h2)
    · exact ih _ h1 (by omega)

/-- `isqrt` is the whole part of the square root. -/
theorem isqrt_spec (n : Nat) : isqrt n * isqrt n ≤ n ∧ n < (isqrt n + 1) * (isqrt n + 1) := by
  unfold isqrt
  refine isqrtFrom_spec _ n 0 (Nat.zero_le _) ?_
  rw [Nat.zero_add, ← Nat.pow_add]
  calc n < 2 ^ (n.log2 + 1) := Nat.lt_log2_self
    _ ≤ _ := Nat.pow_le_pow_right (by decide) (by omega)

end Sys2Proof
end

