-- ==== Sys2Proof/Laws/PerInstr.lean ====
section
/-! SUPPORT. Laws/PerInstr.lean: the family `EncodedFields`: the command word of each instruction lies in its row of
spec/30_encoding.md R67 (unit and op), and the word of each instruction has the fields R68 gives it. -/

set_option Elab.async false

namespace Sys2Proof.Laws.EncodedFields

open Sys2Proof

/-- The bits 15:8 of the row of R67. -/
def row : Instr → Nat
  | .envSetall _ _ _ _ => 0x10
  | .envSetp _ _ => 0x11
  | .envSetshape _ => 0x12
  | .envStart => 0x13
  | .envRun _ => 0x14
  | .envRelease => 0x15
  | .envStop => 0x16
  | .envGet => 0x17
  | .oscSetf _ _ => 0x20
  | .oscGetf _ => 0x21
  | .oscSetw _ _ => 0x22
  | .oscSetps _ _ => 0x23
  | .oscGetps _ => 0x24
  | .oscStart _ => 0x25
  | .oscStop _ => 0x26
  | .oscRun _ _ => 0x27
  | .oscGetv _ => 0x28
  | .oscGeti _ => 0x29
  | .oscIsact _ => 0x2A
  | .fadSet _ _ => 0x30
  | .fadSet2 _ _ _ => 0x31
  | .fadProceed _ => 0x32
  | .fadGet _ => 0x33
  | .engSample _ _ => 0x40
  | .sysCsrr _ => 0x50
  | .sysCsrw _ _ => 0x51
  | .sysEvclr _ => 0x52

/-- The bits 7:0 of the row of R67: `sel` and `imm`, or `idx`. -/
def low : Instr → Nat
  | .envSetall _ _ _ _ => 0
  | .envSetp id _ => id.code
  | .envSetshape sh => sh.code
  | .envStart => 0
  | .envRun _ => 0
  | .envRelease => 0
  | .envStop => 0
  | .envGet => 0
  | .oscSetf k _ => 16 * k.code
  | .oscGetf k => 16 * k.code
  | .oscSetw k w => 16 * k.code + w.code
  | .oscSetps k _ => 16 * k.code
  | .oscGetps k => 16 * k.code
  | .oscStart k => 16 * k.code
  | .oscStop k => 16 * k.code
  | .oscRun k _ => 16 * k.code
  | .oscGetv k => 16 * k.code
  | .oscGeti k => 16 * k.code
  | .oscIsact k => 16 * k.code
  | .fadSet j _ => 16 * j.code
  | .fadSet2 j _ _ => 16 * j.code
  | .fadProceed j => 16 * j.code
  | .fadGet j => 16 * j.code
  | .engSample _ _ => 0
  | .sysCsrr r => r.num
  | .sysCsrw r _ => r.num
  | .sysEvclr _ => 0

/-- The command word the encoder writes for `i` is the word of its row. -/
def Statement (i : Instr) : Prop := (encode i).cw.toNat = 256 * row i + low i

/-- A format U word by its number. -/
theorem ofFormatU (u o s i n : Nat) (hu : u < 16) (ho : o < 16) (hs : s < 16) (hi : i < 16)
    (h : 4096 * u + 256 * o + 16 * s + i = n) : (formatU u o s i).toNat = n := by
  rw [formatU_toNat u o s i hu ho hs hi, h]

/-- A format C word by its number. -/
theorem ofFormatC (o : Nat) (r : Csr) (n : Nat) (ho : o < 16) (h : 4096 * 5 + 256 * o + r.num = n) :
    (formatC o r.num).toNat = n := by
  rw [formatC_toNat o r.num ho r.num_lt, h]

theorem envSetall (d0 : Word) (d1 : Word) (d2 : Word) (d3 : Word) : Statement (.envSetall d0 d1 d2 d3) :=
  ofFormatU _ _ _ _ _ (by decide) (by decide) (by decide) (by decide) rfl

theorem envSetp (id : Phase) (d0 : Word) : Statement (.envSetp id d0) := by
  cases id <;> exact ofFormatU _ _ _ _ _ (by decide) (by decide) (by decide) (by decide) rfl

theorem envSetshape (sh : Shape) : Statement (.envSetshape sh) := by
  cases sh <;> exact ofFormatU _ _ _ _ _ (by decide) (by decide) (by decide) (by decide) rfl

theorem envStart : Statement .envStart :=
  ofFormatU _ _ _ _ _ (by decide) (by decide) (by decide) (by decide) rfl

theorem envRun (d0 : Word) : Statement (.envRun d0) :=
  ofFormatU _ _ _ _ _ (by decide) (by decide) (by decide) (by decide) rfl

theorem envRelease : Statement .envRelease :=
  ofFormatU _ _ _ _ _ (by decide) (by decide) (by decide) (by decide) rfl

theorem envStop : Statement .envStop :=
  ofFormatU _ _ _ _ _ (by decide) (by decide) (by decide) (by decide) rfl

theorem envGet : Statement .envGet :=
  ofFormatU _ _ _ _ _ (by decide) (by decide) (by decide) (by decide) rfl

theorem oscSetf (k : OscId) (d0 : Word) : Statement (.oscSetf k d0) := by
  cases k <;> exact ofFormatU _ _ _ _ _ (by decide) (by decide) (by decide) (by decide) rfl

theorem oscGetf (k : OscId) : Statement (.oscGetf k) := by
  cases k <;> exact ofFormatU _ _ _ _ _ (by decide) (by decide) (by decide) (by decide) rfl

theorem oscSetw (k : OscId) (w : Waveform) : Statement (.oscSetw k w) := by
  cases k <;> cases w <;> exact ofFormatU _ _ _ _ _ (by decide) (by decide) (by decide) (by decide) rfl

theorem oscSetps (k : OscId) (d0 : Word) : Statement (.oscSetps k d0) := by
  cases k <;> exact ofFormatU _ _ _ _ _ (by decide) (by decide) (by decide) (by decide) rfl

theorem oscGetps (k : OscId) : Statement (.oscGetps k) := by
  cases k <;> exact ofFormatU _ _ _ _ _ (by decide) (by decide) (by decide) (by decide) rfl

theorem oscStart (k : OscId) : Statement (.oscStart k) := by
  cases k <;> exact ofFormatU _ _ _ _ _ (by decide) (by decide) (by decide) (by decide) rfl

theorem oscStop (k : OscId) : Statement (.oscStop k) := by
  cases k <;> exact ofFormatU _ _ _ _ _ (by decide) (by decide) (by decide) (by decide) rfl

theorem oscRun (k : OscId) (d0 : Word) : Statement (.oscRun k d0) := by
  cases k <;> exact ofFormatU _ _ _ _ _ (by decide) (by decide) (by decide) (by decide) rfl

theorem oscGetv (k : OscId) : Statement (.oscGetv k) := by
  cases k <;> exact ofFormatU _ _ _ _ _ (by decide) (by decide) (by decide) (by decide) rfl

theorem oscGeti (k : OscId) : Statement (.oscGeti k) := by
  cases k <;> exact ofFormatU _ _ _ _ _ (by decide) (by decide) (by decide) (by decide) rfl

theorem oscIsact (k : OscId) : Statement (.oscIsact k) := by
  cases k <;> exact ofFormatU _ _ _ _ _ (by decide) (by decide) (by decide) (by decide) rfl

theorem fadSet (j : FadId) (d0 : Word) : Statement (.fadSet j d0) := by
  cases j <;> exact ofFormatU _ _ _ _ _ (by decide) (by decide) (by decide) (by decide) rfl

theorem fadSet2 (j : FadId) (d0 : Word) (d1 : Word) : Statement (.fadSet2 j d0 d1) := by
  cases j <;> exact ofFormatU _ _ _ _ _ (by decide) (by decide) (by decide) (by decide) rfl

theorem fadProceed (j : FadId) : Statement (.fadProceed j) := by
  cases j <;> exact ofFormatU _ _ _ _ _ (by decide) (by decide) (by decide) (by decide) rfl

theorem fadGet (j : FadId) : Statement (.fadGet j) := by
  cases j <;> exact ofFormatU _ _ _ _ _ (by decide) (by decide) (by decide) (by decide) rfl

theorem engSample (d0 : Word) (d1 : Word) : Statement (.engSample d0 d1) :=
  ofFormatU _ _ _ _ _ (by decide) (by decide) (by decide) (by decide) rfl

theorem sysCsrr (r : Csr) : Statement (.sysCsrr r) :=
  ofFormatC _ r _ (by decide) (by simp [row, low])

theorem sysCsrw (r : Csr) (d0 : Word) : Statement (.sysCsrw r d0) :=
  ofFormatC _ r _ (by decide) (by simp [row, low])

theorem sysEvclr (d0 : Word) : Statement (.sysEvclr d0) :=
  ofFormatU _ _ _ _ _ (by decide) (by decide) (by decide) (by decide) rfl

end Sys2Proof.Laws.EncodedFields
end

