-- ==== Sys2Proof/Tests/Slice0.lean ====
section
/-! SUPPORT. Tests/Slice0.lean: the decoding of every constructor on words written out from spec/30_encoding.md R67, the
ill-formed terms of WellFormed.lean, at most two one-step tests per command with the values of the spec's own examples,
and for each statement with hypotheses a concrete case that meets them. -/

set_option Elab.async false

namespace Sys2Proof.Tests

open Sys2Proof Sys2Proof.Machine

/-! ## Decoding: one word per constructor, from the rows of R67 -/

theorem test_decode_envSetall : decode ⟨0x1000, 1, 2, 3, 4⟩ = .ok (.envSetall 1 2 3 4) := by decide
theorem test_decode_envSetp : decode ⟨0x1103, 1, 2, 3, 4⟩ = .ok (.envSetp .release 1) := by decide
theorem test_decode_envSetshape : decode ⟨0x1202, 1, 2, 3, 4⟩ = .ok (.envSetshape .squareRoot) := by decide
theorem test_decode_envStart : decode ⟨0x1300, 1, 2, 3, 4⟩ = .ok .envStart := by decide
theorem test_decode_envRun : decode ⟨0x1400, 1, 2, 3, 4⟩ = .ok (.envRun 1) := by decide
theorem test_decode_envRelease : decode ⟨0x1500, 1, 2, 3, 4⟩ = .ok .envRelease := by decide
theorem test_decode_envStop : decode ⟨0x1600, 1, 2, 3, 4⟩ = .ok .envStop := by decide
theorem test_decode_envGet : decode ⟨0x1700, 1, 2, 3, 4⟩ = .ok .envGet := by decide
theorem test_decode_oscSetf : decode ⟨0x2030, 1, 2, 3, 4⟩ = .ok (.oscSetf .osc3 1) := by decide
theorem test_decode_oscGetf : decode ⟨0x2110, 1, 2, 3, 4⟩ = .ok (.oscGetf .osc1) := by decide
theorem test_decode_oscSetw : decode ⟨0x2222, 1, 2, 3, 4⟩ = .ok (.oscSetw .osc2 .square) := by decide
theorem test_decode_oscSetps : decode ⟨0x2310, 1, 2, 3, 4⟩ = .ok (.oscSetps .osc1 1) := by decide
theorem test_decode_oscGetps : decode ⟨0x2420, 1, 2, 3, 4⟩ = .ok (.oscGetps .osc2) := by decide
theorem test_decode_oscStart : decode ⟨0x2530, 1, 2, 3, 4⟩ = .ok (.oscStart .osc3) := by decide
theorem test_decode_oscStop : decode ⟨0x2610, 1, 2, 3, 4⟩ = .ok (.oscStop .osc1) := by decide
theorem test_decode_oscRun : decode ⟨0x2720, 1, 2, 3, 4⟩ = .ok (.oscRun .osc2 1) := by decide
theorem test_decode_oscGetv : decode ⟨0x2830, 1, 2, 3, 4⟩ = .ok (.oscGetv .osc3) := by decide
theorem test_decode_oscGeti : decode ⟨0x2910, 1, 2, 3, 4⟩ = .ok (.oscGeti .osc1) := by decide
theorem test_decode_oscIsact : decode ⟨0x2A20, 1, 2, 3, 4⟩ = .ok (.oscIsact .osc2) := by decide
theorem test_decode_fadSet : decode ⟨0x3000, 1, 2, 3, 4⟩ = .ok (.fadSet .shift 1) := by decide
theorem test_decode_fadSet2 : decode ⟨0x3110, 1, 2, 3, 4⟩ = .ok (.fadSet2 .amp 1 2) := by decide
theorem test_decode_fadProceed : decode ⟨0x3220, 1, 2, 3, 4⟩ = .ok (.fadProceed .mix) := by decide
theorem test_decode_fadGet : decode ⟨0x3310, 1, 2, 3, 4⟩ = .ok (.fadGet .amp) := by decide
theorem test_decode_engSample : decode ⟨0x4000, 1, 2, 3, 4⟩ = .ok (.engSample 1 2) := by decide
theorem test_decode_sysCsrr : decode ⟨0x5048, 1, 2, 3, 4⟩ = .ok (.sysCsrr (.fadTarget .mix)) := by decide
theorem test_decode_sysCsrw : decode ⟨0x5150, 1, 2, 3, 4⟩ = .ok (.sysCsrw .rate 1) := by decide
theorem test_decode_sysEvclr : decode ⟨0x5200, 1, 2, 3, 4⟩ = .ok (.sysEvclr 1) := by decide

/-- The illegal words of R69, one per reason. -/
theorem test_decode_illegal :
    decode ⟨0x0000, 0, 0, 0, 0⟩ = .error .reservedUnit ∧ decode ⟨0xFFFF, 0, 0, 0, 0⟩ = .error .reservedUnit ∧
    decode ⟨0x1800, 0, 0, 0, 0⟩ = .error .reservedOp ∧ decode ⟨0x2500, 0, 0, 0, 0⟩ = .error .badSel ∧
    decode ⟨0x2213, 0, 0, 0, 0⟩ = .error .badImm ∧ decode ⟨0x5015, 0, 0, 0, 0⟩ = .error .unmappedCsr ∧
    decode ⟨0x5157, 0, 0, 0, 0⟩ = .error .readOnlyCsr ∧ decode ⟨0x5126, 3, 0, 0, 0⟩ = .error .illegalMode := by
  decide

/-- The second operand of a table word lies above the command word (`ENV.RUN 1.0`). -/
theorem test_decodeTableWord_lane : decodeTableWord 48 0x3F8000001400 = some (.envRun 0x3F800000) := by decide

/-! ## Well-formedness: an ill-formed term for each check -/

theorem test_wellFormed_refuses_readOnly : (Instr.sysCsrw .latency 0).wellFormed = false := by decide
theorem test_wellFormed_refuses_osc1Mode : (Instr.sysCsrw (.oscMode .osc1) 2).wellFormed = false := by decide
theorem test_wellFormed_refuses_osc2Mode : (Instr.sysCsrw (.oscMode .osc2) 3).wellFormed = false := by decide
theorem test_wellFormed_refuses_osc3Mode : (Instr.sysCsrw (.oscMode .osc3) 0x100).wellFormed = false := by decide

/-! ## One step, with the examples of the rules -/

/-- The state after a command. -/
def after (i : Instr) (s : State) : State :=
  match exec i s with
  | .next t => t
  | .fault _ => s
  | .refused _ => s

/-- The first result lane after a command. -/
def lane (i : Instr) (s : State) : Option Word := (after i s).rsp.map Response.r0

/-- A real by its pattern. -/
def real (w : Word) : F32 := F32.ofBits w

/-- The envelope of the examples: attack 0.5, decay 0.25, sustain 0.5, release 1, LINEAR, active in `p` at `t`. -/
def envAt (p : Phase) (t : Word) : State :=
  { State.reset with
    env := { active := true, phase := p, t := real t, attack := real 0x3F000000, decay := real 0x3E800000,
             sustain := real 0x3F000000, release := real 0x3F800000, shape := .linear } }

/-- An oscillator of the examples in the place of osc1: frequency 1. -/
def oscAt (w : Waveform) (phase shift : Word) : State :=
  { State.reset with
    osc1 := { waveform := w, sched := .square, freq := real 0x3F800000, phase := real phase, shift := real shift,
              active := true } }

/-- A fader of the examples in the place of `amp`. -/
def fadAt (target step value : Word) : State :=
  { State.reset with fad1 := { target := real target, step := real step, value := real value } }

/-- R108: the four parameters are read from their lanes in order. -/
theorem test_envSetall :
    (after (.envSetall 0x3F000000 0x3E800000 0x3F000000 0x3F800000) State.reset).env =
      { (envAt .attack 0).env with active := false } := by decide +kernel
/-- R109: DECAY 0.25 to 0.5 at 0.125 moves the time to 0.25. -/
theorem test_envSetp : (after (.envSetp .decay 0x3F000000) (envAt .decay 0x3E000000)).env.t = real 0x3E800000 := by
  decide +kernel
/-- R109: another phase's duration leaves the time. -/
theorem test_envSetp_other : (after (.envSetp .release 0) (envAt .decay 0x3E000000)).env.t = real 0x3E000000 := by
  decide +kernel
/-- R110: `ENV_STAT` reads 0x30. -/
theorem test_envSetshape : lane (.sysCsrr .envStat) (after (.envSetshape .quarterSine) State.reset) = some 0x30 := by
  decide +kernel
/-- R104: `ENV_STAT` reads 1. -/
theorem test_envStart : lane (.sysCsrr .envStat) (after .envStart State.reset) = some 1 := by decide +kernel
/-- R106: ATTACK at 0.25, 0.25 more: DECAY at 0. -/
theorem test_envRun :
    (after (.envRun 0x3E800000) (envAt .attack 0x3E800000)).env = (envAt .decay 0).env := by decide +kernel
/-- R106: one large step from ATTACK to SUSTAIN. -/
theorem test_envRun_through : (after (.envRun 0x40000000) (envAt .attack 0)).env.phase = .sustain := by decide +kernel
/-- R107: early release from 0.75 leaves the time at -0.25. -/
theorem test_envRelease : (after .envRelease (envAt .decay 0x3E000000)).env.t = real 0xBE800000 := by decide +kernel
/-- R107 (b): a zero release deactivates within the command. -/
theorem test_envRelease_zero :
    (after .envRelease (after (.envSetp .release 0) (envAt .sustain 0))).env.active = false := by decide +kernel
/-- R111: stopped in SUSTAIN, `ENV_STAT` reads 4. -/
theorem test_envStop : lane (.sysCsrr .envStat) (after .envStop (envAt .sustain 0)) = some 4 := by decide +kernel
/-- R103: ATTACK at 0.25 of 0.5 reads 0.5. -/
theorem test_envGet : lane .envGet (envAt .attack 0x3E800000) = some 0x3F000000 := by decide +kernel
/-- R121. -/
theorem test_oscSetf : lane (.sysCsrr (.oscFreq .osc2)) (after (.oscSetf .osc2 0x3F800000) State.reset) =
    some 0x3F800000 := by decide +kernel
/-- R122. -/
theorem test_oscGetf : lane (.oscGetf .osc1) (oscAt .sine 0 0) = some 0x3F800000 := by decide +kernel
/-- R123: phase 0.5 and shift 0.5 is a boundary: immediate. -/
theorem test_oscSetw : (after (.oscSetw .osc1 .triangle) (oscAt .sine 0x3F000000 0x3F000000)).osc1.waveform = .triangle := by
  decide +kernel
/-- R123: phase 0.5 is none: deferred. -/
theorem test_oscSetw_deferred : (after (.oscSetw .osc1 .triangle) (oscAt .sine 0x3F000000 0)).osc1.waveform = .sine := by
  decide +kernel
/-- R125, R124. -/
theorem test_oscSetps_getps : lane (.oscGetps .osc1) (after (.oscSetps .osc1 0x3E800000) State.reset) =
    some 0x3E800000 := by decide +kernel
/-- R126: `EVSTAT` bit 3. -/
theorem test_oscStart : (after (.oscStart .osc1) State.reset).evstat = 0x008 := by decide +kernel
/-- R127: `EVSTAT` bit 11. -/
theorem test_oscStop : (after (.oscStop .osc3) State.reset).evstat = 0x800 := by decide +kernel
/-- R129: 0.75 and 0.25 cross: phase 0, the pending waveform, the flag. -/
theorem test_oscRun :
    (after (.oscRun .osc1 0x3E800000) (oscAt .sine 0x3F400000 0)).osc1.phase = F32.zero ∧
    (after (.oscRun .osc1 0x3E800000) (oscAt .sine 0x3F400000 0)).osc1.waveform = .square ∧
    (after (.oscRun .osc1 0x3E800000) (oscAt .sine 0x3F400000 0)).evstat = 0x010 := by decide +kernel
/-- Log entry 21: 0.25 and 0.25 with a NaN shift: the pending waveform is applied and the phase is 0.5. -/
theorem test_oscRun_nanShift :
    (after (.oscRun .osc1 0x3E800000) (oscAt .sine 0x3E800000 0x7FC00000)).osc1.phase = real 0x3F000000 ∧
    (after (.oscRun .osc1 0x3E800000) (oscAt .sine 0x3E800000 0x7FC00000)).osc1.waveform = .square := by decide +kernel
/-- R132: TRIANGLE at 0.125 reads 0.5. -/
theorem test_oscGetv : lane (.oscGetv .osc1) (oscAt .triangle 0x3E000000 0) = some 0x3F000000 := by decide +kernel
/-- R132: SINE at 0 reads -1. -/
theorem test_oscGetv_sine : lane (.oscGetv .osc1) (oscAt .sine 0 0) = some 0xBF800000 := by decide +kernel
/-- R134: TRIANGLE at 0.5 reads 0.25. -/
theorem test_oscGeti : lane (.oscGeti .osc1) (oscAt .triangle 0x3F000000 0) = some 0x3E800000 := by decide +kernel
/-- R134: SQUARE at 0.125 reads 0.5. -/
theorem test_oscGeti_square : lane (.oscGeti .osc1) (oscAt .square 0x3E000000 0) = some 0x3F000000 := by decide +kernel
/-- R135. -/
theorem test_oscIsact : lane (.oscIsact .osc2) (after (.oscStart .osc2) State.reset) = some 1 := by decide +kernel
/-- R142: step 0.125 toward 1. -/
theorem test_fadSet : lane (.fadGet .amp) (after (.fadSet .amp 0x3F800000) (fadAt 0 0x3E000000 0)) = some 0x3E000000 := by
  decide +kernel
/-- Log entry 22: value and target `+Inf`: `d` is NaN. -/
theorem test_fadSet_sameInfinity :
    (after (.fadSet .amp 0x7F800000) (fadAt 0 0x3F000000 0x7F800000)).fad1.value = .nan := by decide +kernel
/-- R143: a step of 1 snaps. -/
theorem test_fadSet2 : lane (.fadGet .amp) (after (.fadSet2 .amp 0x3F800000 0x3F800000) State.reset) =
    some 0x3F800000 := by decide +kernel
/-- R144: 0.875, step 0.25: a snap to 1. -/
theorem test_fadProceed : (after (.fadProceed .amp) (fadAt 0x3F800000 0x3E800000 0x3F600000)).fad1.value = F32.one := by
  decide +kernel
/-- R144: downward from 1 by 0.375. -/
theorem test_fadProceed_down :
    (after (.fadProceed .amp) (fadAt 0 0x3EC00000 0x3F800000)).fad1.value = real 0x3F200000 := by decide +kernel
/-- R150: on the reset state, a history of 16 words: the inputs come back. -/
theorem test_engSample :
    (engSampleWith 16 0x3F000000 0xBF000000 State.reset).rsp = some ⟨0x3F000000, 0xBF000000⟩ := by decide +kernel
/-- R168: a delay of 16 in a history of 16 words sets `IDX`. -/
theorem test_engSample_idx :
    (engSampleWith 16 0 0 { State.reset with cfg := { EngCfg.reset with bufofs := real 0x41800000 } }).fault = 2 := by
  decide +kernel
/-- R180: shape 3, phase 0, active. -/
theorem test_sysCsrr : lane (.sysCsrr .envStat) (after .envStart (after (.envSetshape .quarterSine) State.reset)) =
    some 0x31 := by decide +kernel
/-- R181: `RATE` takes 48000.0. -/
theorem test_sysCsrw : lane (.sysCsrr .rate) (after (.sysCsrw .rate 0x473B8000) State.reset) = some 0x473B8000 := by
  decide +kernel
/-- R181: FM2 is illegal for osc2. -/
theorem test_sysCsrw_illegal : (after (.sysCsrw (.oscMode .osc2) 3) State.reset).fault = 1 := by decide +kernel
/-- R182. -/
theorem test_sysEvclr : (after (.sysEvclr 1) { State.reset with evstat := 3 }).evstat = 2 := by decide +kernel

/-! ## The hypotheses of the statements can be met -/

theorem test_meets_DecodeOfEncode : (Instr.sysCsrw (.oscMode .osc3) 7).wellFormed = true := by decide
theorem test_meets_EncodeOfDecode : ∃ c i, decode c = .ok i := ⟨⟨0x1300, 0, 0, 0, 0⟩, .envStart, by decide⟩

/-- A state with one command waiting. -/
def waiting (c : Command) : State := { State.reset with accepted := [c] }

theorem test_meets_StepRunsTheDecodedCommand :
    (waiting ⟨0x1300, 0, 0, 0, 0⟩).rst = false ∧
    (waiting ⟨0x1300, 0, 0, 0, 0⟩).accepted = [⟨0x1300, 0, 0, 0, 0⟩] ∧
    decode ⟨0x1300, 0, 0, 0, 0⟩ = .ok .envStart := by decide
theorem test_meets_IllegalCommandOnlySetsIll :
    (waiting ⟨0, 0, 0, 0, 0⟩).rst = false ∧ (waiting ⟨0, 0, 0, 0, 0⟩).accepted = [⟨0, 0, 0, 0, 0⟩] ∧
    ∀ i, decode ⟨0, 0, 0, 0, 0⟩ ≠ .ok i := by
  refine ⟨rfl, rfl, fun i h => ?_⟩
  rw [show decode ⟨0, 0, 0, 0, 0⟩ = .error .reservedUnit by decide] at h
  cases h
theorem test_meets_IdleHoldsTheState : State.reset.rst = false ∧ State.reset.accepted = [] := ⟨rfl, rfl⟩
theorem test_meets_ResetEdge : (hostRst true State.reset).rst = true := rfl
theorem test_meets_EveryCommandIsAnswered :
    (waiting ⟨0xFFFF, 0, 0, 0, 0⟩).rst = false ∧
    (waiting ⟨0xFFFF, 0, 0, 0, 0⟩).accepted = [⟨0xFFFF, 0, 0, 0, 0⟩] := ⟨rfl, rfl⟩

/-- A state with every flag bit set that may be set and a mode other than the reset one. -/
def flagged : State :=
  { State.reset with evstat := 0xFFF, evmask := 0xFFF, fault := 3, cfg := { EngCfg.reset with m2 := .am1 } }

theorem test_meets_StepKeepsInv : flagged.Inv ∧ ∃ t, step flagged = .next t :=
  ⟨⟨⟨List.Pairwise.nil, fun _ h => (List.not_mem_nil h).elim, Nat.succ_pos _⟩, ⟨by decide, by decide, by decide⟩, rfl⟩,
    _, rfl⟩
theorem test_meets_EnvReleaseResult :
    State.reset.env.active = false ∧ (envAt .decay 0x3E000000).env.active = true := ⟨rfl, rfl⟩
theorem test_meets_EnvSetpResult :
    ((envAt .attack 0).env.active = true ∧ (envAt .attack 0).env.phase = .attack) ∧
    ((envAt .decay 0).env.phase = .decay ∧ (envAt .decay 0).env.sustain.ne .one = true) ∧
    ((envAt .release 0).env.phase = .release ∧ (envAt .release 0).env.sustain.ne .zero = true) := by decide +kernel
theorem test_meets_EnvRunZeroIsIdempotent : ∃ t, exec (.envRun 0) (envAt .attack 0x3F000000) = .next t := ⟨_, rfl⟩
theorem test_meets_SustainIsLeftOnlyByThree :
    (∃ t, exec .envRelease (envAt .sustain 0) = .next t) ∧ (envAt .sustain 0).env.active = true ∧
    (envAt .sustain 0).env.phase = .sustain := ⟨⟨_, rfl⟩, rfl, rfl⟩
theorem test_meets_EnvelopeWriters : ∃ t, exec (.envSetshape .squareRoot) State.reset = .next t := ⟨_, rfl⟩
theorem test_meets_PhaseStartValues :
    (envAt .attack 0).env.active = true ∧ (envAt .attack 0).env.t = .zero ∧
    (envAt .attack 0).env.sustain.isFinite = true ∧
    (envAt .attack 0).env.attack.isFinite = true ∧ (envAt .attack 0).env.attack.gt .zero = true ∧
    (envAt .decay 0).env.decay.isFinite = true ∧ (envAt .decay 0).env.decay.gt .zero = true ∧
    (envAt .release 0).env.release.isFinite = true ∧ (envAt .release 0).env.release.gt .zero = true := by
  decide +kernel
theorem test_meets_ZeroAttackWindow :
    State.reset.env.attack.eq .zero = true ∧ ∃ t, exec .envStart State.reset = .next t := ⟨by decide +kernel, _, rfl⟩
theorem test_meets_OscRanges :
    (((oscAt .triangle 0x3F400000 0xBF800000).osc .osc1).phase.add
      ((oscAt .triangle 0x3F400000 0xBF800000).osc .osc1).shift).isFinite = true := by decide +kernel
theorem test_meets_OscillatorWriters : ∃ t, exec (.oscSetw .osc1 .triangle) (oscAt .sine 0 0) = .next t := ⟨_, rfl⟩
theorem test_meets_FaderNeverOvershoots :
    ((fadAt 0x3F800000 0x3E000000 0).fad .amp).target.isFinite = true ∧
    ((fadAt 0x3F800000 0x3E000000 0).fad .amp).step.isFinite = true ∧
    ((fadAt 0x3F800000 0x3E000000 0).fad .amp).value.isFinite = true := by decide +kernel
/-- The clauses of the fader statement: upward (0 to 1), downward (1 to 0), and within the step. -/
theorem test_meets_FaderNeverOvershoots_clauses :
    Reference.value .zero ≤ Reference.value .one ∧ Reference.value .zero ≤ Reference.value .zero ∧
    |Reference.value F32.one - Reference.value F32.zero| ≤ |Reference.value F32.one| := by
  have h0 : Reference.value .zero = 0 := by simp [Reference.value, F32.zero]
  have h1 : Reference.value .one = 1 := by norm_num [Reference.value, F32.one]
  rw [h0, h1]; norm_num
theorem test_meets_NanSticks :
    (∃ t, exec (.engSample 0 0) (fadAt 0 0 0x7FC00000) = .next t) ∧
    ((fadAt 0 0 0x7FC00000).fad .amp).value = .nan ∧
    (envAt .attack 0x7FC00000).env.active = true ∧ (envAt .attack 0x7FC00000).env.t = .nan ∧
    ((oscAt .sine 0x7FC00000 0).osc .osc1).phase = .nan ∧
    Instr.oscRun .osc1 0 ≠ .oscStart .osc1 ∧ Instr.oscRun .osc1 0 ≠ .oscStop .osc1 :=
  ⟨⟨_, rfl⟩, by decide +kernel, rfl, by decide +kernel, by decide +kernel, by decide, by decide⟩
theorem test_meets_FaderWriters : ∃ t, exec (.fadSet2 .mix 0 1) State.reset = .next t := ⟨_, rfl⟩

/-- An index that succeeds in every history, delay 0, and two that succeed in none. -/
theorem test_meets_EngOutputResult :
    Reference.inRange .zero ∧ ¬Reference.inRange .nan ∧ ¬Reference.inRange F32.one.neg := by
  refine ⟨⟨0, by decide +kernel, le_refl _, ?_⟩, ?_, ?_⟩
  · have : 0 < Config.cap := Nat.succ_pos _
    omega
  · rintro ⟨n, h, _⟩
    rw [show F32.trunc .nan = none from rfl] at h
    cases h
  · rintro ⟨n, h, h0, _⟩
    rw [show F32.trunc F32.one.neg = some (-1) by decide +kernel] at h
    cases h
    omega
/-- A tap at delay 0 and a tap whose index fails. -/
theorem test_meets_EngOutputResult_taps (s : State) :
    Reference.IsTap .zero .ch1 s (F32.ofBits (histRead Config.cap .ch1 0 s)) ∧ Reference.IsTap .nan .ch0 s .nan := by
  refine ⟨⟨fun n h _ => ?_, fun h => absurd test_meets_EngOutputResult.1 h⟩, fun n h _ => ?_, fun _ => rfl⟩
  · rw [show F32.trunc .zero = some 0 by decide +kernel] at h
    obtain rfl : n = 0 := by injection h; omega
    rfl
  · rw [show F32.trunc .nan = none from rfl] at h
    cases h
/-- The write position at both ends of its range, and an address on each side of the slot written. -/
theorem test_meets_EngHistoryResult :
    State.reset.wr < Config.cap ∧ ({ State.reset with wr := Config.cap - 1 } : State).wr < Config.cap ∧
    (8 : Nat) ≥ histAddr .ch0 0 + 4 ∧ (8 : Nat) ≥ histAddr .ch1 0 + 4 ∧ (7 : Nat) < histAddr .ch0 1 ∧
    (7 : Nat) < histAddr .ch1 1 := by
  have : 0 < Config.cap := Nat.succ_pos _
  refine ⟨this, ?_, by decide, by decide, by decide, by decide⟩
  show Config.cap - 1 < Config.cap
  omega
theorem test_meets_HistoryOnlyBySample :
    (∃ t, exec .envStart State.reset = .next t) ∧ ∀ d0 d1, Instr.envStart ≠ .engSample d0 d1 :=
  ⟨⟨_, rfl⟩, fun _ _ h => by cases h⟩
theorem test_meets_EngSampleNeverWrites : State.reset.cfg.m1 = .user := rfl
theorem test_meets_SampleAtResetIsAWire :
    (F32.ofBits 0x7F7FFFFF).isFinite = true ∧ (F32.ofBits 0x80000001).isFinite = true := by decide +kernel

/-- The scenario of R170. -/
def scenario : State :=
  { State.reset with
    cfg := { EngCfg.reset with m1 := .lfo }
    osc1 := { Osc.reset with waveform := .triangle, sched := .triangle, active := true }
    env := { Env.reset with active := true, phase := .sustain, sustain := .one } }

theorem test_meets_TriangleReachesTheGain :
    scenario.cfg.m3 = .off ∧ scenario.cfg.m2 = .off ∧ scenario.cfg.m1 = .lfo ∧ scenario.osc1.waveform = .triangle ∧
    scenario.osc1.sched = .triangle ∧ scenario.env.active = true ∧ scenario.env.phase = .sustain ∧
    scenario.env.sustain = .one := by decide
theorem test_meets_EventsAreNeverRead :
    Instr.envStart ≠ .sysCsrr .evstat ∧ Instr.envStart ≠ .sysCsrr .evmask ∧
    ∃ t, exec .envStart flagged = .next t := ⟨by decide, by decide, _, rfl⟩
/-- The values a write may carry: any for a register that is no mode, the extreme codes for each mode register. -/
theorem test_meets_CsrwResult_words :
    Reference.modeLegal 0x50 0xFFFFFFFF ∧ Reference.modeLegal 0x16 0 ∧ Reference.modeLegal 0x16 1 ∧
    Reference.modeLegal 0x26 0 ∧ Reference.modeLegal 0x26 6 ∧ Reference.modeLegal 0x36 0 ∧ Reference.modeLegal 0x36 7 := by
  unfold Reference.modeLegal
  omega
/-- The extreme codes of each mode register. -/
theorem test_meets_CsrwResult :
    (0 : Word).toNat = RouteMode.off.code ∧ (7 : Word).toNat = RouteMode.am2.code ∧
    (6 : Word).toNat = RouteMode.am1.code ∧ RouteMode.am1 ∈ [RouteMode.off, .add, .fm1, .pm1, .am1] ∧
    (0 : Word).toNat = Osc1Mode.user.code ∧ (1 : Word).toNat = Osc1Mode.lfo.code := by decide
/-- An unmapped number, a read-only one, and each mode register with the first illegal code above its range. -/
theorem test_meets_IllegalCsrwChangesNoRegister :
    ¬(Reference.writable 255 ∧ Reference.modeLegal 255 0) ∧ ¬(Reference.writable 0 ∧ Reference.modeLegal 0 0) ∧
    ¬(Reference.writable 0x16 ∧ Reference.modeLegal 0x16 2) ∧
    ¬(Reference.writable 0x26 ∧ Reference.modeLegal 0x26 3) ∧
    ¬(Reference.writable 0x36 ∧ Reference.modeLegal 0x36 8) ∧
    (waiting ⟨BitVec.ofNat 16 (0x5100 + 255), 0, 0, 0, 0⟩).rst = false := by
  unfold Reference.writable Reference.modeLegal
  refine ⟨?_, ?_, ?_, ?_, ?_, rfl⟩ <;> omega
theorem test_meets_CsrrReadsWhatCsrwWrote :
    Csr.bufofs.writable = true ∧ Csr.bufofs.admits 0x7FC00000 = true ∧ (Csr.oscMode .osc2).writable = true ∧
    (Csr.oscMode .osc2).admits 6 = true ∧ Csr.evmask.writable = true ∧ Csr.evmask.admits 0xFFFFFFFF = true ∧
    ∃ t, exec (.sysCsrw .bufofs 0x7FC00000) State.reset = .next t :=
  ⟨by decide, by decide, by decide, by decide, by decide, by decide, _, rfl⟩
theorem test_meets_ConfigurationOnlyByCsrw :
    (∃ t, exec (.engSample 0 0) State.reset = .next t) ∧ ∀ r d, Instr.engSample 0 0 ≠ .sysCsrw r d :=
  ⟨⟨_, rfl⟩, fun _ _ h => by cases h⟩
theorem test_meets_FlagsAreSticky :
    (∃ t, exec (.engSample 0 0) flagged = .next t) ∧ flagged.fault.getLsbD 1 = true ∧
    flagged.evstat.getLsbD 11 = true ∧ (∀ d0, Instr.engSample 0 0 ≠ .sysEvclr d0) ∧
    (Instr.engSample 0 0).wellFormed = true :=
  ⟨⟨_, rfl⟩, by decide, by decide, fun _ h => (by cases h), rfl⟩
theorem test_meets_EventSetPoints :
    exec (.oscStop .osc3) State.reset = .next (after (.oscStop .osc3) State.reset) ∧
    (after (.oscStop .osc3) State.reset).evstat.getLsbD 11 = true := ⟨rfl, by decide +kernel⟩
theorem test_meets_HistoryHoldsThePushes : State.reset.wr < 4 ∧ 0 < 4 ∧ 3 < 4 ∧ 0 < [(1#32, 2#32)].length ∧
    [(1#32, 2#32)].length ≤ 1 := by decide
theorem test_meets_ArithmeticRoundsToNearestEven :
    F32.one.isFinite = true ∧ F32.two.isFinite = true ∧ ((Reference.value .one : ℚ) : ℝ) ≠ 0 ∧
    0 ≤ ((Reference.value .one : ℚ) : ℝ) := by
  have h1 : Reference.value .one = 1 := by norm_num [Reference.value, F32.one]
  rw [h1]
  exact ⟨rfl, rfl, by norm_num, by norm_num⟩
theorem test_meets_ArithmeticSpecialCases :
    F32.one.neg.isFinite = true ∧ Reference.value F32.one.neg < 0 ∧ 0 < Reference.value F32.one := by
  have h1 : Reference.value F32.one = 1 := by norm_num [Reference.value, F32.one]
  have h2 : Reference.value F32.one.neg = -1 := by norm_num [Reference.value, F32.one, F32.neg]
  rw [h1, h2]
  exact ⟨rfl, by norm_num, by norm_num⟩
theorem test_meets_ComparisonsAndSigns :
    F32.zero.isFinite = true ∧ F32.one.isFinite = true ∧ Reference.value F32.zero = 0 :=
  ⟨rfl, rfl, by simp [Reference.value, F32.zero]⟩
/-- Each sign that `sgn` tells apart, at an infinity, at the smallest subnormal numbers and at `-0`. -/
theorem test_meets_ComparisonsAndSigns_sgn :
    (F32.inf false).gt .zero = true ∧ (real 0x00000001).gt .zero = true ∧ (F32.inf true).lt .zero = true ∧
    (real 0x80000001).lt .zero = true ∧ (real 0x80000000).eq .zero = true := by decide +kernel
/-- R86: `wrap(-0.25) = 0.75`, and `frac` of -2^-25 is 1. -/
theorem test_wrap : (real 0xBE800000).wrap = real 0x3F400000 ∧ (real 0xB3000000).frac = .one := by decide +kernel
/-- Two numbers inside (-1, 0): -0.25, and -2^-25, the least one whose `frac` is 1. -/
theorem test_meets_FloorFracTruncLaws_inside :
    real 0xBE800000 = .fin true 125 0 ∧ real 0xB3000000 = .fin true 102 0 ∧
    (-1 < Reference.value (.fin true 125 0) ∧ Reference.value (.fin true 125 0) < 0) ∧
    (-1 < Reference.value (.fin true 102 0) ∧ Reference.value (.fin true 102 0) < 0) ∧
    -(2 : ℚ) ^ (-25 : ℤ) ≤ Reference.value (.fin true 102 0) := by
  have h1 : Reference.value (.fin true 125 0) = -(1 / 4) := by norm_num [Reference.value]
  have h2 : Reference.value (.fin true 102 0) = -(2 : ℚ) ^ (-25 : ℤ) := by norm_num [Reference.value]
  rw [h1, h2]
  refine ⟨by decide +kernel, by decide +kernel, ?_, ?_, le_refl _⟩ <;> norm_num
/-- The clauses on the sizes: 2^23, a number outside (-1, 0), and zero. -/
theorem test_meets_FloorFracTruncLaws :
    (F32.fin false 150 0).isFinite = true ∧ (2 : ℚ) ^ 23 ≤ |Reference.value (.fin false 150 0)| ∧
    ¬(-1 < Reference.value F32.one.neg ∧ Reference.value F32.one.neg < 0) ∧
    0 ≤ Reference.value F32.zero ∧ Reference.value F32.zero ≤ 0 := by
  have h1 : Reference.value F32.one.neg = -1 := by norm_num [Reference.value, F32.one, F32.neg]
  have h2 : Reference.value F32.zero = 0 := by simp [Reference.value, F32.zero]
  have h3 : Reference.value (.fin false 150 0) = 2 ^ 23 := by norm_num [Reference.value]
  rw [h1, h2, h3]
  refine ⟨rfl, ?_, ?_, ?_, ?_⟩ <;> norm_num
theorem test_meets_SineAndCosineLaws : F32.halfPi.isFinite = true := rfl
theorem test_meets_RealsMoveBitExactly : F32.ofBits 0x7F800000 ≠ .nan := by decide +kernel

end Sys2Proof.Tests
end

