-- ==== Sys2Proof/Proofs/Rounding.lean ====
section
/-! Proofs/Rounding.lean: the arithmetic of spec/40_numerics.md R82 to R84 in units of 2^-149. Rounding never crosses a
number of the format, so a rounded sum stands on the same side of every finite real as the exact sum; `sgn` and the
product with a real of magnitude 1 are exact. -/

namespace Sys2Proof

/-- A finite magnitude is a significand of at most 24 bits times a power of two, in the range of the format (R80). -/
theorem F32.mag_eq_shifted (e : Fin 255) (f : BitVec 23) :
    ∃ q j : Nat, F32.mag e f = q * 2 ^ j ∧ q < 2 ^ 24 ∧ j ≤ 253 := by
  have hf := f.isLt
  have he := e.isLt
  unfold F32.mag
  split_ifs with h0
  · exact ⟨f.toNat, 0, by simp, by omega, by omega⟩
  · exact ⟨2 ^ 23 + f.toNat, e.val - 1, rfl, by omega, by omega⟩

/-- The limit of the format in units (R80): the first whole number of 24 significant bits above the largest finite
number. -/
def unitLimit : Nat := 2 ^ 24 * 2 ^ 253

/-- A finite magnitude lies below the limit of the format (R80). -/
theorem F32.mag_lt (e : Fin 255) (f : BitVec 23) : F32.mag e f < unitLimit := by
  obtain ⟨q, j, h, hq, hj⟩ := F32.mag_eq_shifted e f
  calc F32.mag e f = q * 2 ^ j := h
    _ < 2 ^ 24 * 2 ^ j := Nat.mul_lt_mul_of_pos_right hq (Nat.two_pow_pos j)
    _ ≤ 2 ^ 24 * 2 ^ 253 := Nat.mul_le_mul_left _ (Nat.pow_le_pow_right (by decide) hj)

/-- What `pack` gives: the number of the magnitude asked for where the format has it, the infinity of the sign where that
magnitude reaches the limit of the format (R80, R82). -/
theorem F32.pack_cases (neg : Bool) {m k : Nat} (hm : m ≤ 2 ^ 24) (hk : m < 2 ^ 23 → k = 0) :
    (∃ e f, F32.pack neg m k = .fin neg e f ∧ F32.mag e f = m * 2 ^ k) ∨
      (F32.pack neg m k = .inf neg ∧ unitLimit ≤ m * 2 ^ k) := by
  unfold F32.pack
  dsimp only
  by_cases hsub : m < 2 ^ 23
  · rw [if_pos hsub, hk hsub]
    exact .inl ⟨_, _, rfl, by simpa [F32.mag] using hsub⟩
  rw [if_neg hsub]
  by_cases htop : m = 2 ^ 24
  · subst htop
    rw [if_pos rfl]
    split_ifs with he
    · exact .inl ⟨_, _, rfl, by simp [F32.mag, pow_succ]; ring⟩
    · refine .inr ⟨rfl, ?_⟩
      exact Nat.mul_le_mul_left _ (Nat.pow_le_pow_right (by decide) (by omega))
  · rw [if_neg htop]
    split_ifs with he
    · refine .inl ⟨_, _, rfl, ?_⟩
      have hfrac : 2 ^ 23 + m % 2 ^ 23 = m := by omega
      simp only [F32.mag, BitVec.toNat_ofNat, Nat.add_eq_zero_iff, one_ne_zero, and_false, if_false,
        Nat.add_sub_cancel, hfrac]
    · refine .inr ⟨rfl, ?_⟩
      calc unitLimit = 2 ^ 23 * 2 ^ 254 := by norm_num [unitLimit]
        _ ≤ m * 2 ^ 254 := Nat.mul_le_mul_right _ (by omega)
        _ ≤ m * 2 ^ k := Nat.mul_le_mul_left _ (Nat.pow_le_pow_right (by decide) (by omega))

/-- `n` is below the 24 bits kept at its last place. -/
theorem lt_two_pow_lastPlace (n : Nat) : n < 2 ^ 24 * 2 ^ lastPlace n 1 := by
  unfold lastPlace
  rw [Nat.div_one, ← Nat.pow_add]
  exact Nat.lt_log2_self.trans_le (Nat.pow_le_pow_right (by decide) (by omega))

/-- Above the subnormal range a number has its leading bit at the top of the 24 kept. -/
theorem le_of_lastPlace_pos {n : Nat} (h : lastPlace n 1 ≠ 0) : 2 ^ 23 * 2 ^ lastPlace n 1 ≤ n := by
  unfold lastPlace at h ⊢
  rw [Nat.div_one] at h ⊢
  have hn : n ≠ 0 := by rintro rfl; simp at h
  rw [← Nat.pow_add]
  exact (Nat.pow_le_pow_right (by decide) (by omega)).trans (Nat.log2_self_le hn)

/-- The magnitude, in units, that rounding the whole number `n` of units aims at (R82), before the limit of the format is
looked at. -/
def roundedMag (n : Nat) : Nat := nearestEven n (2 ^ lastPlace n 1) * 2 ^ lastPlace n 1

/-- Rounding a whole number of units gives the number of the rounded magnitude, or an infinity where that reaches the
limit of the format (R82). -/
theorem F32.round_cases (neg : Bool) (n : Nat) :
    (∃ e f, F32.round neg n 1 = .fin neg e f ∧ F32.mag e f = roundedMag n) ∨
      (F32.round neg n 1 = .inf neg ∧ unitLimit ≤ roundedMag n) := by
  have hpos : 0 < 2 ^ lastPlace n 1 := Nat.two_pow_pos _
  have htop : nearestEven n (2 ^ lastPlace n 1) ≤ 2 ^ 24 := by
    have h := nearestEven_mono _ hpos (lt_two_pow_lastPlace n).le
    rwa [nearestEven_exact _ _ hpos] at h
  have hsub : nearestEven n (2 ^ lastPlace n 1) < 2 ^ 23 → lastPlace n 1 = 0 := by
    intro hlt
    by_contra hk
    have h := nearestEven_mono _ hpos (le_of_lastPlace_pos hk)
    rw [nearestEven_exact _ _ hpos] at h
    omega
  unfold F32.round roundedMag
  dsimp only
  rw [Nat.one_mul]
  exact F32.pack_cases neg htop hsub

/-- A finite magnitude is a whole number of last places of `n`, or lies below `n`. -/
theorem F32.mag_multiple_or_lt (e : Fin 255) (f : BitVec 23) (n : Nat) :
    (∃ q, F32.mag e f = q * 2 ^ lastPlace n 1) ∨
      (F32.mag e f < 2 ^ 23 * 2 ^ lastPlace n 1 ∧ 2 ^ 23 * 2 ^ lastPlace n 1 ≤ n) := by
  obtain ⟨q, j, hmag, hq, -⟩ := F32.mag_eq_shifted e f
  rcases Nat.lt_or_ge j (lastPlace n 1) with hj | hj
  · refine .inr ⟨?_, le_of_lastPlace_pos (by omega)⟩
    calc F32.mag e f = q * 2 ^ j := hmag
      _ < 2 ^ 24 * 2 ^ j := Nat.mul_lt_mul_of_pos_right hq (Nat.two_pow_pos j)
      _ = 2 ^ 23 * 2 ^ (j + 1) := by rw [pow_succ 2 j]; ring
      _ ≤ _ := Nat.mul_le_mul_left _ (Nat.pow_le_pow_right (by decide) hj)
  · refine .inl ⟨q * 2 ^ (j - lastPlace n 1), ?_⟩
    rw [hmag, Nat.mul_assoc, ← Nat.pow_add, Nat.sub_add_cancel hj]

/-- Rounding is monotone against a whole number of last places from below. -/
theorem multiple_le_roundedMag {q n : Nat} (h : q * 2 ^ lastPlace n 1 ≤ n) :
    q * 2 ^ lastPlace n 1 ≤ roundedMag n := by
  have hpos : 0 < 2 ^ lastPlace n 1 := Nat.two_pow_pos _
  have hmono := nearestEven_mono _ hpos h
  rw [nearestEven_exact _ _ hpos] at hmono
  exact Nat.mul_le_mul_right _ hmono

/-- Rounding is monotone against a whole number of last places from above. -/
theorem roundedMag_le_multiple {q n : Nat} (h : n ≤ q * 2 ^ lastPlace n 1) :
    roundedMag n ≤ q * 2 ^ lastPlace n 1 := by
  have hpos : 0 < 2 ^ lastPlace n 1 := Nat.two_pow_pos _
  have hmono := nearestEven_mono _ hpos h
  rw [nearestEven_exact _ _ hpos] at hmono
  exact Nat.mul_le_mul_right _ hmono

/-- Rounding down does not cross a number of the format. -/
theorem F32.mag_le_roundedMag {e : Fin 255} {f : BitVec 23} {n : Nat} (h : F32.mag e f ≤ n) :
    F32.mag e f ≤ roundedMag n := by
  rcases F32.mag_multiple_or_lt e f n with ⟨q, hq⟩ | ⟨hlt, hn⟩
  · rw [hq] at h ⊢
    exact multiple_le_roundedMag h
  · exact hlt.le.trans (multiple_le_roundedMag hn)

/-- Rounding up does not cross a number of the format. -/
theorem F32.roundedMag_le_mag {e : Fin 255} {f : BitVec 23} {n : Nat} (h : n ≤ F32.mag e f) :
    roundedMag n ≤ F32.mag e f := by
  rcases F32.mag_multiple_or_lt e f n with ⟨q, hq⟩ | ⟨hlt, hn⟩
  · rw [hq] at h ⊢
    exact roundedMag_le_multiple h
  · omega

/-- A number of the format is its own rounded magnitude. -/
theorem F32.roundedMag_mag (e : Fin 255) (f : BitVec 23) : roundedMag (F32.mag e f) = F32.mag e f :=
  Nat.le_antisymm (F32.roundedMag_le_mag le_rfl) (F32.mag_le_roundedMag le_rfl)

/-- The rounding of `d n / d` is that of `n` whole units. -/
theorem F32.round_scale (neg : Bool) (n : Nat) {d : Nat} (hd : 0 < d) :
    F32.round neg (n * d) d = F32.round neg n 1 := by
  have hplace : lastPlace (n * d) d = lastPlace n 1 := by
    unfold lastPlace
    rw [Nat.mul_div_cancel n hd, Nat.div_one]
  have hnear (u : Nat) : nearestEven (n * d) (d * u) = nearestEven n u := by
    unfold nearestEven
    have hlt (a b : Nat) : 2 * (d * a) < d * b ↔ 2 * a < b := by
      rw [Nat.mul_left_comm]; exact Nat.mul_lt_mul_left hd
    have hgt (a b : Nat) : d * b < 2 * (d * a) ↔ b < 2 * a := by
      rw [Nat.mul_left_comm]; exact Nat.mul_lt_mul_left hd
    simp only [Nat.mul_comm n d, Nat.mul_div_mul_left _ _ hd, Nat.mul_mod_mul_left, hlt, hgt]
  unfold F32.round
  dsimp only
  rw [hplace, hnear, Nat.one_mul]

/-! ### The arithmetic in units -/

@[simp] theorem units_fin (neg : Bool) (e : Fin 255) (f : BitVec 23) :
    (F32.fin neg e f).units = signed neg (F32.mag e f) := rfl

theorem signed_not (neg : Bool) (n : Nat) : signed (!neg) n = -signed neg n := by
  cases neg <;> simp [signed]

theorem abs_signed (neg : Bool) (n : Nat) : |signed neg n| = n := by cases neg <;> simp [signed]

/-- An infinity stands at or beyond the limit of the format. -/
theorem units_inf (neg : Bool) : ∃ n, (F32.inf neg).units = signed neg n ∧ unitLimit ≤ n := by
  have hpow (a b n : Nat) (h : a + b ≤ n) : 2 ^ a * 2 ^ b ≤ 2 ^ n := by
    rw [← Nat.pow_add]
    exact Nat.pow_le_pow_right (by decide) h
  exact ⟨_, rfl, hpow 24 253 300 (by decide)⟩

/-- A finite real lies below the limit of the format in magnitude. -/
theorem F32.abs_units_lt {a : F32} (h : a.isFinite = true) : |a.units| < unitLimit := by
  cases a with
  | nan => cases h
  | inf => cases h
  | fin neg e f =>
    rw [units_fin, abs_signed]
    exact_mod_cast F32.mag_lt e f

/-- A real is finite if it is no NaN and lies between two finite reals. -/
theorem F32.isFinite_of_between {a b c : F32} (ha : a.isFinite = true) (hc : c.isFinite = true) (hb : b.isNan = false)
    (hab : a.units ≤ b.units) (hbc : b.units ≤ c.units) : b.isFinite = true := by
  have hA := abs_lt.mp (F32.abs_units_lt ha)
  have hC := abs_lt.mp (F32.abs_units_lt hc)
  cases b with
  | nan => cases hb
  | inf neg =>
    obtain ⟨n, hn, hlim⟩ := units_inf neg
    rw [hn] at hab hbc
    cases neg <;> simp only [signed, Bool.false_eq_true, if_true, if_false] at hab hbc <;> omega
  | fin => rfl

/-- `-a` in units (R84). -/
@[simp] theorem F32.units_neg (a : F32) : a.neg.units = -a.units := by
  cases a with
  | nan => rfl
  | inf neg => exact signed_not neg _
  | fin neg e f => exact signed_not neg _

@[simp] theorem F32.isFinite_neg (a : F32) : a.neg.isFinite = a.isFinite := by cases a <;> rfl

/-- `abs(a)` in units (R84). -/
@[simp] theorem F32.units_abs (a : F32) : a.abs.units = |a.units| := by
  cases a with
  | nan => rfl
  | inf neg => exact (abs_signed neg _).symm
  | fin neg e f => exact (abs_signed neg _).symm

@[simp] theorem F32.isFinite_abs (a : F32) : a.abs.isFinite = a.isFinite := by cases a <;> rfl

@[simp] theorem F32.isNan_abs (a : F32) : a.abs.isNan = a.isNan := by cases a <;> rfl

theorem F32.isNan_of_isFinite {a : F32} (h : a.isFinite = true) : a.isNan = false := by
  cases a <;> trivial

/-- Between two reals that are no NaN, `<=` (R83) is the order of the units. -/
theorem F32.le_iff_units {a b : F32} (ha : a.isNan = false) (hb : b.isNan = false) :
    a.le b = true ↔ a.units ≤ b.units := by
  simp [F32.le, ordered, ha, hb]

/-- The value of a finite magnitude, from the formulas of R80. -/
theorem mag_div_units (e : Fin 255) (f : BitVec 23) :
    (F32.mag e f : ℚ) / 2 ^ 149 =
      if e.val = 0 then (2 : ℚ) ^ (-126 : ℤ) * (f.toNat / 2 ^ 23)
      else (2 : ℚ) ^ ((e.val : ℤ) - 127) * (1 + f.toNat / 2 ^ 23) := by
  unfold F32.mag
  split_ifs with h0
  · norm_num
    ring
  · obtain ⟨k, hk⟩ : ∃ k, e.val = k + 1 := ⟨e.val - 1, by omega⟩
    rw [hk, show ((k + 1 : ℕ) : ℤ) - 127 = (k : ℤ) + (-126) by push_cast; ring, zpow_add₀ (by norm_num), zpow_natCast,
      Nat.add_sub_cancel]
    push_cast
    norm_num
    ring

/-- The value of a finite real (R80) is its number of units, each 2^-149. -/
theorem value_eq_units {a : F32} (h : a.isFinite = true) : Reference.value a = a.units / 2 ^ 149 := by
  cases a with
  | nan => cases h
  | inf => cases h
  | fin neg e f =>
    simp only [Reference.value, ← mag_div_units, units_fin]
    cases neg <;> simp [signed, neg_div]

/-- What rounding a whole number of units gives, in units: a number that stands on the same side of every magnitude of the
format as the exact one, or on it (R82). -/
theorem units_round (neg : Bool) (n : Nat) :
    ∃ r, (F32.round neg n 1).units = signed neg r ∧
      ∀ e f, (F32.mag e f ≤ n → F32.mag e f ≤ r) ∧ (n ≤ F32.mag e f → r ≤ F32.mag e f) := by
  rcases F32.round_cases neg n with ⟨e, f, hr, hmag⟩ | ⟨hr, hlim⟩
  · refine ⟨F32.mag e f, by rw [hr, units_fin], fun e' f' => ?_⟩
    rw [hmag]
    exact ⟨F32.mag_le_roundedMag, F32.roundedMag_le_mag⟩
  · obtain ⟨r, hr', hlim'⟩ := units_inf neg
    refine ⟨r, by rw [hr, hr'], fun e' f' => ⟨fun _ => (F32.mag_lt e' f').le.trans hlim', fun hle => ?_⟩⟩
    have hlt := F32.mag_lt e' f'
    have hround := F32.roundedMag_le_mag hle
    omega

/-- Rounding gives no NaN. -/
theorem isNan_round (neg : Bool) (n : Nat) : (F32.round neg n 1).isNan = false := by
  rcases F32.round_cases neg n with ⟨e, f, h, -⟩ | ⟨h, -⟩ <;> rw [h] <;> rfl

/-- A finite magnitude is rounded to itself. -/
theorem round_mag (neg : Bool) (e : Fin 255) (f : BitVec 23) :
    (F32.round neg (F32.mag e f) 1).isFinite = true ∧
      (F32.round neg (F32.mag e f) 1).units = signed neg (F32.mag e f) := by
  have hmag := F32.roundedMag_mag e f
  have hlt := F32.mag_lt e f
  rcases F32.round_cases neg (F32.mag e f) with ⟨e', f', hr, h⟩ | ⟨-, h⟩
  · rw [hr, units_fin, h, hmag]
    exact ⟨rfl, rfl⟩
  · omega

/-- Rounding a whole number of units with its sign is monotone against every finite real (R82). -/
theorem units_round_int (z : Int) {c : F32} (hc : c.isFinite = true) :
    (c.units ≤ z → c.units ≤ (F32.round (decide (z < 0)) z.natAbs 1).units) ∧
      (z ≤ c.units → (F32.round (decide (z < 0)) z.natAbs 1).units ≤ c.units) := by
  cases c with
  | nan => cases hc
  | inf => cases hc
  | fin neg e f =>
    obtain ⟨r, hr, hside⟩ := units_round (decide (z < 0)) z.natAbs
    obtain ⟨hle, hge⟩ := hside e f
    rw [hr, units_fin]
    by_cases hz : z < 0 <;> cases neg <;>
      simp only [signed, hz, decide_true, decide_false, Bool.false_eq_true, if_true, if_false] <;> omega

/-- The sum of two finite reals is no NaN (R82). -/
theorem isNan_add {a b : F32} (ha : a.isFinite = true) (hb : b.isFinite = true) : (a.add b).isNan = false := by
  cases a <;> cases b <;> simp only [F32.isFinite, Bool.false_eq_true] at ha hb
  simp only [F32.add]
  split_ifs
  · rfl
  · exact isNan_round _ _

/-- The rounded sum of two finite reals stands on the same side of every finite real as the exact sum, or on it
(R82). -/
theorem units_add_mono {a b c : F32} (ha : a.isFinite = true) (hb : b.isFinite = true) (hc : c.isFinite = true) :
    (c.units ≤ a.units + b.units → c.units ≤ (a.add b).units) ∧
      (a.units + b.units ≤ c.units → (a.add b).units ≤ c.units) := by
  cases a <;> cases b <;> simp only [F32.isFinite, Bool.false_eq_true] at ha hb
  simp only [F32.add, units_fin]
  split_ifs with hz
  · have hzero (neg : Bool) : (F32.fin neg 0 0).units = 0 := by cases neg <;> rfl
    rw [hz, hzero]
    exact ⟨id, id⟩
  · exact units_round_int _ hc

/-- The product of a real of magnitude 1 and a finite real is exact (R82). -/
theorem units_unit_mul (neg : Bool) {a : F32} (ha : a.isFinite = true) :
    ((F32.fin neg 127 0).mul a).isFinite = true ∧
      ((F32.fin neg 127 0).mul a).units = if neg then -a.units else a.units := by
  cases a with
  | nan => cases ha
  | inf => cases ha
  | fin neg' e f =>
    have hone : F32.mag 127 0 = 2 ^ 149 := by decide
    simp only [F32.mul, hone, Nat.mul_comm (2 ^ 149), F32.round_scale _ _ (Nat.two_pow_pos 149)]
    obtain ⟨hfin, hunits⟩ := round_mag (neg != neg') e f
    refine ⟨hfin, ?_⟩
    rw [hunits, units_fin]
    cases neg <;> cases neg' <;> simp [signed]

/-- Between two reals that are no NaN, `<` (R83) is the order of the units. -/
theorem F32.lt_iff_units {a b : F32} (ha : a.isNan = false) (hb : b.isNan = false) :
    a.lt b = true ↔ a.units < b.units := by
  simp [F32.lt, ordered, ha, hb]

/-- `sgn` of a real above zero (R84). -/
theorem F32.sgn_of_pos {d : F32} (hd : d.isNan = false) (h : 0 < d.units) : d.sgn = .one := by
  have hgt : F32.zero.lt d = true := (F32.lt_iff_units rfl hd).mpr h
  rw [F32.sgn, F32.gt, if_pos hgt]

/-- `sgn` of a real below zero (R84). -/
theorem F32.sgn_of_neg {d : F32} (hd : d.isNan = false) (h : d.units < 0) : d.sgn = F32.one.neg := by
  have hlt : d.lt .zero = true := (F32.lt_iff_units hd rfl).mpr h
  have hgt : ¬F32.zero.lt d = true := fun hlt' => lt_asymm h ((F32.lt_iff_units rfl hd).mp hlt')
  rw [F32.sgn, F32.gt, if_neg hgt, if_pos hlt]

/-- The values of finite reals are in the order of their units. -/
theorem value_le_iff {a b : F32} (ha : a.isFinite = true) (hb : b.isFinite = true) :
    Reference.value a ≤ Reference.value b ↔ a.units ≤ b.units := by
  rw [value_eq_units ha, value_eq_units hb, div_le_div_iff_of_pos_right (by positivity), Int.cast_le]

/-- The distance of two finite reals against the size of a third, in units. -/
theorem abs_value_sub_le_iff {a b c : F32} (ha : a.isFinite = true) (hb : b.isFinite = true) (hc : c.isFinite = true) :
    |Reference.value a - Reference.value b| ≤ |Reference.value c| ↔ |a.units - b.units| ≤ |c.units| := by
  rw [value_eq_units ha, value_eq_units hb, value_eq_units hc, ← sub_div, abs_div, abs_div,
    div_le_div_iff_of_pos_right (by positivity)]
  exact_mod_cast Iff.rfl

end Sys2Proof
end

