-- ==== Sys2Proof/Proofs/Changes.lean ====
section
/-! Proofs/Changes.lean: what a command can do to the envelope, to an oscillator and to a fader (spec/10_state.md R11, R13,
R16), and what one step of a fader does on finite operands (R17). -/

namespace Sys2Proof.Machine

/-! ### One step of a fader -/

/-- The difference that `fad_proceed` (R141) takes is on the same side of every size `s` as the exact distance, or on
it. -/
theorem units_sub_le {t v s : F32} (ht : t.isFinite = true) (hv : v.isFinite = true) (hs : s.isFinite = true) :
    (t.units - v.units ≤ s.units → (t.sub v).units ≤ s.units) ∧
      (-s.units ≤ t.units - v.units → -s.units ≤ (t.sub v).units) := by
  have hv' : v.neg.isFinite = true := by simpa using hv
  have hs' : s.neg.isFinite = true := by simpa using hs
  obtain ⟨-, hle⟩ := units_add_mono ht hv' hs
  obtain ⟨hge, -⟩ := units_add_mono ht hv' hs'
  rw [F32.units_neg] at hle
  rw [F32.units_neg, F32.units_neg] at hge
  exact ⟨hle, hge⟩

/-- What `fad_proceed` (R141) does on finite operands: it lands on the target, or, where the target is more than the step
away, it adds a displacement toward the target that the exact sum does not carry past it. -/
theorem proceed_cases (f : Fader) (ht : f.target.isFinite = true) (hs : f.step.isFinite = true)
    (hv : f.value.isFinite = true) :
    (Reference.proceed f).value = f.target ∨
      |f.step.units| < |f.target.units - f.value.units| ∧
        ∃ x : F32, x.isFinite = true ∧ (Reference.proceed f).value = f.value.add x ∧
          (0 ≤ x.units ∧ f.value.units + x.units ≤ f.target.units ∨
            x.units ≤ 0 ∧ f.target.units ≤ f.value.units + x.units) := by
  have hs' : f.step.abs.isFinite = true := by simpa using hs
  have hd : (f.target.sub f.value).isNan = false := isNan_add ht (by simpa using hv)
  have hsize : f.step.abs.units = |f.step.units| := F32.units_abs _
  have hpos : 0 ≤ |f.step.units| := abs_nonneg _
  obtain ⟨hup, hdown⟩ := units_sub_le ht hv hs'
  rw [hsize] at hup hdown
  have hsnap : (f.target.sub f.value).abs.le f.step.abs = true ↔
      |(f.target.sub f.value).units| ≤ |f.step.units| := by
    rw [F32.le_iff_units (by simpa using hd) (F32.isNan_of_isFinite hs'), F32.units_abs, F32.units_abs]
  by_cases hwithin : |(f.target.sub f.value).units| ≤ |f.step.units|
  · left
    simp only [Reference.proceed, hsnap.mpr hwithin, if_true]
  right
  have hvalue : (Reference.proceed f).value =
      f.value.add ((f.target.sub f.value).sgn.mul f.step.abs) := by
    simp only [Reference.proceed, mt hsnap.mp hwithin]
    rfl
  rcases lt_abs.mp (not_le.mp hwithin) with hgt | hlt
  · have hfar : |f.step.units| < f.target.units - f.value.units := by omega
    have hsgn := F32.sgn_of_pos hd (by omega)
    obtain ⟨hx, hunits⟩ := units_unit_mul false hs'
    refine ⟨lt_abs.mpr (.inl hfar), _, hx, by rw [hvalue, hsgn]; rfl, .inl ?_⟩
    rw [hunits, hsize]
    simp only [Bool.false_eq_true, if_false]
    omega
  · have hfar : |f.step.units| < -(f.target.units - f.value.units) := by omega
    have hsgn := F32.sgn_of_neg hd (by omega)
    obtain ⟨hx, hunits⟩ := units_unit_mul true hs'
    refine ⟨lt_abs.mpr (.inr hfar), _, hx, by rw [hvalue, hsgn]; rfl, .inr ?_⟩
    rw [hunits, hsize]
    simp only [if_true]
    omega

/-- `fad_proceed` (R141) on finite operands: the value stays between the old value and the target. -/
theorem proceed_between (f : Fader) (ht : f.target.isFinite = true) (hs : f.step.isFinite = true)
    (hv : f.value.isFinite = true) :
    (Reference.proceed f).value.isFinite = true ∧
      (f.value.units ≤ f.target.units →
        f.value.units ≤ (Reference.proceed f).value.units ∧ (Reference.proceed f).value.units ≤ f.target.units) ∧
      (f.target.units ≤ f.value.units →
        f.target.units ≤ (Reference.proceed f).value.units ∧ (Reference.proceed f).value.units ≤ f.value.units) := by
  rcases proceed_cases f ht hs hv with hland | ⟨-, x, hx, hmove, htoward⟩
  · rw [hland]
    exact ⟨ht, fun h => ⟨h, le_rfl⟩, fun h => ⟨le_rfl, h⟩⟩
  · rw [hmove]
    have hnan := isNan_add hv hx
    obtain ⟨hlow, hhigh⟩ := units_add_mono hv hx hv
    obtain ⟨hlow', hhigh'⟩ := units_add_mono hv hx ht
    rcases htoward with ⟨hup, hpast⟩ | ⟨hdown, hpast⟩
    · exact ⟨F32.isFinite_of_between hv ht hnan (hlow (by omega)) (hhigh' hpast), by omega, by omega⟩
    · exact ⟨F32.isFinite_of_between ht hv hnan (hlow' hpast) (hhigh (by omega)), by omega, by omega⟩

/-- `FAD.PROCEED` (R144) leaves the fader one step on. -/
theorem exec_fadProceed_fad (j : FadId) (s : State) :
    ∃ t, exec (.fadProceed j) s = .next t ∧ t.fad j = Reference.proceed (s.fad j) :=
  ⟨_, rfl, by rw [respondNone_fad, fadStep_eq, setFad_fad_same]⟩

/-! ### The shared sub-operations on each item -/

/-- `env_run` (R105) leaves its result in the envelope. -/
@[simp] theorem envRun_env (dt : F32) (s : State) : (envRun dt s).env = (Reference.envRun dt s.env).1 := by
  rw [envRun_eq]; rfl

@[simp] theorem envRun_osc (dt : F32) (s : State) (k : OscId) : (envRun dt s).osc k = s.osc k := by
  rw [envRun_eq, orEvents_osc, setEnv_osc]

@[simp] theorem envRun_fad (dt : F32) (s : State) (j : FadId) : (envRun dt s).fad j = s.fad j := by
  rw [envRun_eq, orEvents_fad, setEnv_fad]

@[simp] theorem oscRun_env (k : OscId) (dt : F32) (s : State) : (oscRun k dt s).env = s.env := by
  rw [oscRun_eq, orEvents_env, setOsc_env]

@[simp] theorem oscRun_fad (k : OscId) (dt : F32) (s : State) (j : FadId) : (oscRun k dt s).fad j = s.fad j := by
  rw [oscRun_eq, orEvents_fad, setOsc_fad]

@[simp] theorem fadStep_env (j : FadId) (s : State) : (fadStep j s).env = s.env := setFad_env _ _ _

@[simp] theorem fadStep_osc (j : FadId) (s : State) (k : OscId) : (fadStep j s).osc k = s.osc k := setFad_osc _ _ _ _

@[simp] theorem fadToward_env (j : FadId) (v : F32) (s : State) : (fadToward j v s).env = s.env := by
  rw [fadToward_eq, setFad_env]

@[simp] theorem fadToward_osc (j : FadId) (v : F32) (s : State) (k : OscId) : (fadToward j v s).osc k = s.osc k := by
  rw [fadToward_eq, setFad_osc]

/-- The envelope after steps 1 to 9 of `ENG.SAMPLE` (R162). -/
theorem engModulate_env (s : State) :
    (engModulate s).env = (Reference.envRun (F32.one.div s.cfg.rate) s.env).1 := by
  rw [engModulate_eq, engShape_eq]

/-- The router (R153, R159, R161) advances osc3 and osc2, each with a frequency and a shift of its own making, and osc1
likewise or not at all. -/
theorem router_osc (g : EngCfg) (o3 o2 o1 : Osc) :
    (∃ dt f p, (Reference.router g o3 o2 o1).osc3 = (Reference.oscRun dt { o3 with freq := f, shift := p }).1) ∧
      (∃ dt f p, (Reference.router g o3 o2 o1).osc2 = (Reference.oscRun dt { o2 with freq := f, shift := p }).1) ∧
      ((Reference.router g o3 o2 o1).osc1 = o1 ∨
        ∃ dt f p, (Reference.router g o3 o2 o1).osc1 = (Reference.oscRun dt { o1 with freq := f, shift := p }).1) := by
  cases hm : g.m1 <;> simp only [Reference.router, hm]
  · exact ⟨⟨_, _, o3.shift, rfl⟩, ⟨_, _, _, rfl⟩, .inl trivial⟩
  · exact ⟨⟨_, _, o3.shift, rfl⟩, ⟨_, _, _, rfl⟩, .inr ⟨_, _, _, rfl⟩⟩

/-- An oscillator after steps 1 to 9 of `ENG.SAMPLE`: left alone, or advanced with a frequency and a shift of the
router's. -/
theorem engModulate_osc (s : State) (k : OscId) :
    (engModulate s).osc k = s.osc k ∨
      ∃ dt f p, (engModulate s).osc k = (Reference.oscRun dt { s.osc k with freq := f, shift := p }).1 := by
  obtain ⟨h3, h2, h1⟩ := router_osc s.cfg s.osc3 s.osc2 s.osc1
  rw [engModulate_eq, engShape_eq]
  cases k with
  | osc1 => exact h1
  | osc2 => exact .inr h2
  | osc3 => exact .inr h3

/-- The faders after steps 1 to 9 of `ENG.SAMPLE` (R163 to R165): each gets a target and one step. -/
theorem engModulate_fad (s : State) (j : FadId) :
    ∃ v, (engModulate s).fad j = Reference.proceed { s.fad j with target := v } := by
  rw [engModulate_eq, engShape_eq]
  cases j <;> exact ⟨_, rfl⟩

@[simp] theorem engSampleWith_osc (cap : Nat) (d0 d1 : Word) (s : State) (k : OscId) :
    (engSampleWith cap d0 d1 s).osc k = (engModulate s).osc k := by
  cases k <;> simp [State.osc]

@[simp] theorem engSampleWith_fad (cap : Nat) (d0 d1 : Word) (s : State) (j : FadId) :
    (engSampleWith cap d0 d1 s).fad j = (engModulate s).fad j := by
  cases j <;> simp [State.fad]

/-! ### What a command can do to an item of the state -/

/-- What a command can do to the envelope (R11, R104 to R111, R162). `keep` stands for every command that does not name the
envelope and for `ENV.RELEASE` of an inactive one. -/
inductive EnvChange (e : Env) : Instr → Env → Prop
  | keep (i : Instr) : EnvChange e i e
  | setall (d0 d1 d2 d3 : Word) :
      EnvChange e (.envSetall d0 d1 d2 d3)
        (Reference.envRun .zero
          { e with
            attack := laneReal d0, decay := laneReal d1, sustain := laneReal d2, release := laneReal d3 }).1
  | setp (id : Phase) (d0 : Word) :
      EnvChange e (.envSetp id d0)
        (Reference.envRun .zero ((e.setParam id (laneReal d0)).rescale id (laneReal d0) (envValue e))).1
  | setshape (sh : Shape) : EnvChange e (.envSetshape sh) { e with shape := sh }
  | start : EnvChange e .envStart { e with phase := .attack, t := .zero, active := true }
  | run (d0 : Word) : EnvChange e (.envRun d0) (Reference.envRun (laneReal d0) e).1
  | release (h : e.active = true) : EnvChange e .envRelease (Reference.envRun .zero e.released).1
  | stop : EnvChange e .envStop { e with active := false }
  | sample (d0 d1 : Word) (dt : F32) : EnvChange e (.engSample d0 d1) (Reference.envRun dt e).1

/-- What a command can do to oscillator `k` (R13, R121 to R129, R153 to R161). `keep` stands for every command that does
not name oscillator `k` and for `ENG.SAMPLE` on osc1 in USER mode. -/
inductive OscChange (k : OscId) (o : Osc) : Instr → Osc → Prop
  | keep (i : Instr) : OscChange k o i o
  | setf (d0 : Word) : OscChange k o (.oscSetf k d0) { o with freq := laneReal d0 }
  | setw (w : Waveform) : OscChange k o (.oscSetw k w) (o.withWave w)
  | setps (d0 : Word) : OscChange k o (.oscSetps k d0) { o with shift := laneReal d0 }
  | start : OscChange k o (.oscStart k) (o.restarted true)
  | stop : OscChange k o (.oscStop k) (o.restarted false)
  | run (d0 : Word) : OscChange k o (.oscRun k d0) (Reference.oscRun (laneReal d0) o).1
  | sample (d0 d1 : Word) (dt f p : F32) :
      OscChange k o (.engSample d0 d1) (Reference.oscRun dt { o with freq := f, shift := p }).1

/-- What a command can do to fader `j` (R16, R142 to R144, R163 to R165). `keep` stands for every command that does not name
fader `j`. -/
inductive FadChange (j : FadId) (f : Fader) : Instr → Fader → Prop
  | keep (i : Instr) : FadChange j f i f
  | set (d0 : Word) : FadChange j f (.fadSet j d0) (Reference.proceed { f with target := laneReal d0 })
  | set2 (d0 d1 : Word) :
      FadChange j f (.fadSet2 j d0 d1) (Reference.proceed { f with target := laneReal d0, step := laneReal d1 })
  | proceed : FadChange j f (.fadProceed j) (Reference.proceed f)
  | sample (d0 d1 : Word) (v : F32) :
      FadChange j f (.engSample d0 d1) (Reference.proceed { f with target := v })

/-- The envelope after a command. -/
theorem exec_env {i : Instr} {s t : State} (h : exec i s = .next t) : EnvChange s.env i t.env := by
  cases i <;> cases h
  case envSetall => rw [respondNone_env, envRun_env]; exact .setall _ _ _ _
  case envSetp => rw [respondNone_env, envRun_env]; exact .setp _ _
  case envSetshape => exact .setshape _
  case envStart => exact .start
  case envRun => rw [respondNone_env, envRun_env]; exact .run _
  case envRelease =>
    rw [respondNone_env]
    cases hact : s.env.active
    · exact .keep _
    · simp only [Bool.not_true, Bool.false_eq_true, if_false, envRun_env, setEnv_env]
      exact .release hact
  case envStop => exact .stop
  case engSample => rw [engSampleWith_env, engModulate_env]; exact .sample _ _ _
  all_goals simpa using EnvChange.keep _

/-- A command that replaces one oscillator is no change of another. -/
theorem OscChange.of_setOsc (s : State) {i : Instr} {j : OscId} {o : Osc} (h : OscChange j (s.osc j) i o) (k : OscId) :
    OscChange k (s.osc k) i ((s.setOsc j o).osc k) := by
  by_cases hk : k = j
  · subst hk
    rwa [setOsc_osc_same]
  · rw [setOsc_osc_other _ _ _ _ hk]
    exact .keep i

/-- The oscillators after a command. -/
theorem exec_osc {i : Instr} {s t : State} (h : exec i s = .next t) (k : OscId) :
    OscChange k (s.osc k) i (t.osc k) := by
  cases i <;> cases h
  case oscSetf => exact .of_setOsc s (.setf _) k
  case oscSetw => exact .of_setOsc s (.setw _) k
  case oscSetps => exact .of_setOsc s (.setps _) k
  case oscStart => rw [respondNone_osc, setEv_osc]; exact .of_setOsc s .start k
  case oscStop => rw [respondNone_osc, setEv_osc]; exact .of_setOsc s .stop k
  case oscRun => rw [respondNone_osc, oscRun_eq, orEvents_osc]; exact .of_setOsc s (.run _) k
  case engSample =>
    rw [engSampleWith_osc]
    rcases engModulate_osc s k with hk | ⟨dt, f, p, hk⟩ <;> rw [hk]
    · exact .keep _
    · exact .sample _ _ dt f p
  case envRelease =>
    rw [respondNone_osc]
    split_ifs
    · exact .keep _
    · rw [envRun_osc, setEnv_osc]
      exact .keep _
  all_goals simpa using OscChange.keep _

/-- A command that replaces one fader is no change of another. -/
theorem FadChange.of_setFad (s : State) {i : Instr} {j : FadId} {f : Fader} (h : FadChange j (s.fad j) i f)
    (k : FadId) :
    FadChange k (s.fad k) i ((s.setFad j f).fad k) := by
  by_cases hk : k = j
  · subst hk
    rwa [setFad_fad_same]
  · rw [setFad_fad_other _ _ _ _ hk]
    exact .keep i

/-- The faders after a command. -/
theorem exec_fad {i : Instr} {s t : State} (h : exec i s = .next t) (j : FadId) :
    FadChange j (s.fad j) i (t.fad j) := by
  cases i <;> cases h
  case fadSet => rw [respondNone_fad, fadToward_eq]; exact .of_setFad s (.set _) j
  case fadSet2 k d0 d1 =>
    rw [respondNone_fad, fadStep_eq, setFad_twice, setFad_fad_same]
    exact .of_setFad s (.set2 _ _) j
  case fadProceed => rw [respondNone_fad, fadStep_eq]; exact .of_setFad s .proceed j
  case engSample =>
    obtain ⟨v, hv⟩ := engModulate_fad s j
    rw [engSampleWith_fad, hv]
    exact .sample _ _ v
  case envRelease =>
    rw [respondNone_fad]
    split_ifs
    · exact .keep _
    · rw [envRun_fad, setEnv_fad]
      exact .keep _
  all_goals simpa using FadChange.keep _

end Sys2Proof.Machine
end

