-- ==== Sys2Proof/Proofs/Invariant.lean ====
section
/-! Proofs/Invariant.lean: the invariant of Safety.lean under each state operation, each shared sub-operation and each
command, what a step can do, and the registers at reset (spec/10_state.md R19, R21, R26, spec/20_memory.md R41). -/

namespace Sys2Proof.Machine

/-! ### The bits that exist -/

/-- The bits outside `m` are zero exactly when every bit that is set is one of `m`. -/
theorem and_not_eq_zero_iff (w m : Word) : w &&& ~~~m = 0 ↔ ∀ i, w.getLsbD i = true → m.getLsbD i = true := by
  constructor
  · intro h i hi
    have hbit := congrArg (BitVec.getLsbD · i) h
    have hlt := BitVec.lt_of_getLsbD hi
    simpa [hi, hlt] using hbit
  · intro h
    apply BitVec.eq_of_getLsbD_eq
    intro i _
    have := h i
    cases hw : w.getLsbD i <;> simp_all

/-- Setting bits that exist leaves the others zero. -/
theorem or_and_not_eq_zero {w v m : Word} (hw : w &&& ~~~m = 0) (hv : v &&& ~~~m = 0) : (w ||| v) &&& ~~~m = 0 := by
  rw [and_not_eq_zero_iff] at *
  intro i hi
  rw [BitVec.getLsbD_or, Bool.or_eq_true] at hi
  exact hi.elim (hw i) (hv i)

/-- Clearing bits leaves the others zero. -/
theorem and_and_not_eq_zero {w m : Word} (v : Word) (hw : w &&& ~~~m = 0) : (w &&& v) &&& ~~~m = 0 := by
  rw [and_not_eq_zero_iff] at *
  intro i hi
  rw [BitVec.getLsbD_and, Bool.and_eq_true] at hi
  exact hw i hi.1

/-- Masking leaves no bit outside the mask. -/
theorem and_mask_and_not (w m : Word) : (w &&& m) &&& ~~~m = 0 := by
  rw [and_not_eq_zero_iff]
  intro i hi
  rw [BitVec.getLsbD_and, Bool.and_eq_true] at hi
  exact hi.2

/-- The bit of an event exists (R21). -/
theorem oneBit_event (e : Event) : oneBit e.bit &&& ~~~eventBits = 0 := by
  cases e with
  | envStart | envPhase | envStop => decide
  | oscStart k | oscRestart k | oscStop k => cases k <;> decide

/-- The bit of a fault exists (R21). -/
theorem oneBit_fault (b : FaultFlag) : oneBit b.bit &&& ~~~(3#32) = 0 := by cases b <;> decide

/-! ### The invariant under each state operation -/

/-- The reset state (R26) has no byte listed, no flag set, and the mode OFF in `M[2]`. -/
theorem inv_reset : State.reset.Inv :=
  ⟨⟨List.Pairwise.nil, fun _ h => (List.not_mem_nil h).elim, Nat.succ_pos _⟩, ⟨by decide, by decide, by decide⟩, rfl⟩

@[simp] theorem inv_setEnv (s : State) (e : Env) : (s.setEnv e).Inv ↔ s.Inv := Iff.rfl
@[simp] theorem inv_setOsc (s : State) (k : OscId) (o : Osc) : (s.setOsc k o).Inv ↔ s.Inv := by cases k <;> rfl
@[simp] theorem inv_setFad (s : State) (j : FadId) (f : Fader) : (s.setFad j f).Inv ↔ s.Inv := by cases j <;> rfl
@[simp] theorem inv_respondNone (s : State) : (respondNone s).Inv ↔ s.Inv := Iff.rfl
@[simp] theorem inv_respondWord (s : State) (w : Word) : (respondWord w s).Inv ↔ s.Inv := Iff.rfl
@[simp] theorem inv_respondReal (s : State) (v : F32) : (respondReal v s).Inv ↔ s.Inv := Iff.rfl
@[simp] theorem inv_respondReals (s : State) (v w : F32) : (respondReals v w s).Inv ↔ s.Inv := Iff.rfl
@[simp] theorem inv_respondCsr (s : State) (v : CsrValue) : (respondCsr v s).Inv ↔ s.Inv := by cases v <;> rfl
@[simp] theorem inv_takeCommand (s : State) (cs : List Command) : (takeCommand cs s).Inv ↔ s.Inv := Iff.rfl
@[simp] theorem inv_idleEdge (s : State) : (idleEdge s).Inv ↔ s.Inv := Iff.rfl

/-- A reset edge puts every register at its reset value and keeps the bytes, which lie inside the space (R210). -/
theorem State.Inv.resetEdge {s : State} (h : s.Inv) : (resetEdge s).Inv := by
  obtain ⟨⟨hwf, hbound, -⟩, -, -⟩ := h
  obtain ⟨⟨-, -, hwr⟩, hflags, hmodes⟩ := inv_reset
  exact ⟨⟨hwf, hbound, hwr⟩, hflags, hmodes⟩

/-- `set_ev` (R193) sets a bit that exists. -/
theorem State.Inv.setEv {s : State} (h : s.Inv) (e : Event) : (setEv e s).Inv := by
  obtain ⟨hhist, ⟨hev, hmask, hfault⟩, hmodes⟩ := h
  exact ⟨hhist, ⟨or_and_not_eq_zero hev (oneBit_event e), hmask, hfault⟩, hmodes⟩

/-- `SYS.EVCLR` (R182) clears bits only. -/
theorem State.Inv.clearEv {s : State} (h : s.Inv) (m : Word) : (clearEv m s).Inv := by
  obtain ⟨hhist, ⟨hev, hmask, hfault⟩, hmodes⟩ := h
  exact ⟨hhist, ⟨and_and_not_eq_zero _ hev, hmask, hfault⟩, hmodes⟩

/-- A write of `EVMASK` (R181) keeps the bits that exist. -/
theorem State.Inv.setEvmask {s : State} (h : s.Inv) (d : Word) : (setEvmask d s).Inv := by
  obtain ⟨hhist, ⟨hev, -, hfault⟩, hmodes⟩ := h
  exact ⟨hhist, ⟨hev, and_mask_and_not _ _, hfault⟩, hmodes⟩

/-- `fault NAME` (R190) sets a bit that exists. -/
theorem State.Inv.raiseFault {s : State} (h : s.Inv) (b : FaultFlag) : (raiseFault b s).Inv := by
  obtain ⟨hhist, ⟨hev, hmask, hfault⟩, hmodes⟩ := h
  exact ⟨hhist, ⟨hev, hmask, or_and_not_eq_zero hfault (oneBit_fault b)⟩, hmodes⟩

/-- An illegal command (R70). -/
theorem State.Inv.illegal {s : State} (h : s.Inv) : (illegal s).Inv := (inv_respondNone _).mpr (h.raiseFault .ill)

/-- A push (R42) stores inside the space and advances the write position inside it. -/
theorem State.Inv.histPush {s : State} (h : s.Inv) (v w : Word) : (histPush Config.cap v w s).Inv := by
  obtain ⟨⟨hwf, hbound, hwr⟩, hflags, hmodes⟩ := h
  exact ⟨⟨histPush_wf _ _ _ hwf, histPush_bound _ _ _ hwr hbound, histPush_wr_lt _ _ _ _ (Nat.succ_pos _)⟩, hflags,
    hmodes⟩

/-! ### The invariant under the shared sub-operations -/

/-- The loop of `env_run` (R105) sets events only. -/
theorem State.Inv.envLoop (fuel : Nat) {s : State} (h : s.Inv) : (envLoop fuel s).Inv := by
  induction fuel generalizing s with
  | zero => exact h
  | succ fuel ih =>
    unfold Machine.envLoop
    split
    · exact h
    · split_ifs
      · exact h
      · exact ((inv_setEnv _ _).mpr h).setEv _
      · exact ih (((inv_setEnv _ _).mpr h).setEv _)

/-- `env_run` (R105). -/
theorem State.Inv.envRun {s : State} (h : s.Inv) (dt : F32) : (envRun dt s).Inv := by
  unfold Machine.envRun
  split_ifs
  · exact h
  · exact ((inv_setEnv _ _).mpr h).envLoop 3

/-- `osc_run` (R128). -/
theorem State.Inv.oscRun {s : State} (h : s.Inv) (k : OscId) (dt : F32) : (oscRun k dt s).Inv := by
  unfold Machine.oscRun
  dsimp only
  split_ifs
  · exact h
  · exact ((inv_setOsc _ _ _).mpr h).setEv _
  · exact (inv_setOsc _ _ _).mpr h

@[simp] theorem inv_fadStep (s : State) (j : FadId) : (fadStep j s).Inv ↔ s.Inv := inv_setFad _ _ _

@[simp] theorem inv_fadToward (s : State) (j : FadId) (v : F32) : (fadToward j v s).Inv ↔ s.Inv :=
  (inv_fadStep _ _).trans (inv_setFad _ _ _)

/-- The router (R153 to R161) runs oscillators only. -/
theorem State.Inv.engRoute {s : State} (h : s.Inv) (dt : F32) : (engRoute dt s).1.Inv := by
  have h3 : (engOsc3 dt s).Inv := ((inv_setOsc _ _ _).mpr h).oscRun _ _
  have h2 (x : Mix) : (engOsc2 dt x (engOsc3 dt s)).Inv := ((inv_setOsc _ _ _).mpr h3).oscRun _ _
  unfold Machine.engRoute
  dsimp only
  split
  · exact h2 _
  · exact ((inv_setOsc _ _ _).mpr (h2 _)).oscRun _ _

/-- Steps 1 to 9 of `ENG.SAMPLE` (R150). -/
theorem State.Inv.engModulate {s : State} (h : s.Inv) : (engModulate s).Inv := by
  simp only [Machine.engModulate, engShape, inv_fadToward]
  exact (h.engRoute _).envRun _

/-- `ENG.SAMPLE` (R150). -/
theorem State.Inv.engSample {s : State} (h : s.Inv) (d0 d1 : Word) : (engSampleWith Config.cap d0 d1 s).Inv := by
  have hpush := h.engModulate.histPush d0 d1
  unfold engSampleWith engOutput checkDelays
  rw [inv_respondReals]
  split_ifs
  · exact hpush
  · exact hpush.raiseFault _

/-- The codes that R19 admits for `M[2]` are its legal modes. -/
theorem legalForOsc2_of_admits {d : Word} {m : RouteMode} (h : (Csr.oscMode .osc2).admits d = true)
    (hm : RouteMode.ofCode (laneNat d) = some m) : m.legalForOsc2 = true := by
  have hcode : laneNat d = 0 ∨ laneNat d = 1 ∨ laneNat d = 2 ∨ laneNat d = 4 ∨ laneNat d = 6 := by
    simpa [Csr.admits, laneNat] using h
  rcases hcode with hd | hd | hd | hd | hd <;> rw [hd] at hm <;> cases hm <;> rfl

/-- A write of an engine register (R181) leaves a legal mode in `M[2]`. -/
theorem cfgWrite_legal {r : Csr} {d : Word} {g g' : EngCfg} (h : g.m2.legalForOsc2 = true)
    (hw : cfgWrite r d g = some g') : g'.m2.legalForOsc2 = true := by
  cases r with
  | oscF k => cases k <;> cases hw <;> exact h
  | oscMode k =>
    simp only [cfgWrite] at hw
    split_ifs at hw with hadm
    cases k with
    | osc1 | osc3 =>
      obtain ⟨m, -, rfl⟩ := Option.map_eq_some_iff.mp hw
      exact h
    | osc2 =>
      obtain ⟨m, hm, rfl⟩ := Option.map_eq_some_iff.mp hw
      exact legalForOsc2_of_admits hadm hm
  | _ => cases hw <;> exact h

/-- `SYS.CSRW` (R181). -/
theorem State.Inv.csrWrite {s : State} (h : s.Inv) (r : Csr) (d : Word) : (csrWrite r d s).Inv := by
  rcases csrWrite_cases r d s with ⟨g, hg, heq⟩ | ⟨-, heq⟩ | ⟨-, heq⟩ <;> rw [heq]
  · obtain ⟨hhist, hflags, hmodes⟩ := h
    exact ⟨hhist, hflags, cfgWrite_legal hmodes hg⟩
  · exact (inv_respondNone _).mpr (h.setEvmask d)
  · exact h.illegal

/-! ### What a step can do -/

/-- A step is a reset edge (R210), an idle edge (R206), an accepted command (R61) or an illegal one (R70). -/
theorem step_cases {s t : State} (h : step s = .next t) :
    (s.rst = true ∧ t = resetEdge s) ∨
      (s.rst = false ∧ s.accepted = [] ∧ t = idleEdge s) ∨
      (∃ c rest i, s.rst = false ∧ s.accepted = c :: rest ∧ decode c = .ok i ∧
        exec i (takeCommand rest s) = .next t) ∨
      ∃ c rest e, s.rst = false ∧ s.accepted = c :: rest ∧ decode c = .error e ∧ t = illegal (takeCommand rest s) := by
  unfold step at h
  split_ifs at h with hrst
  · cases h
    exact .inl ⟨hrst, rfl⟩
  rw [Bool.not_eq_true] at hrst
  split at h
  next hnone =>
    cases h
    exact .inr (.inl ⟨hrst, hnone, rfl⟩)
  next c rest hsome =>
    split at h
    next i hok => exact .inr (.inr (.inl ⟨c, rest, i, hrst, hsome, hok, h⟩))
    next e herr =>
      cases h
      exact .inr (.inr (.inr ⟨c, rest, e, hrst, hsome, herr, rfl⟩))

/-! ### The invariant under a command -/

/-- Every command keeps the invariant. -/
theorem State.Inv.exec {s t : State} {i : Instr} (h : s.Inv) (hexec : exec i s = .next t) : t.Inv := by
  cases i <;> cases hexec
  case envSetall => exact ((inv_setEnv _ _).mpr h).envRun _
  case envSetp => exact ((inv_setEnv _ _).mpr h).envRun _
  case envStart => exact ((inv_setEnv _ _).mpr h).setEv _
  case envRun => exact h.envRun _
  case envRelease =>
    rw [inv_respondNone]
    split_ifs
    · exact h
    · exact ((inv_setEnv _ _).mpr h).envRun _
  case envStop => exact ((inv_setEnv _ _).mpr h).setEv _
  case oscStart => exact ((inv_setOsc _ _ _).mpr h).setEv _
  case oscStop => exact ((inv_setOsc _ _ _).mpr h).setEv _
  case oscRun => exact h.oscRun _ _
  case engSample => exact h.engSample _ _
  case sysCsrw => exact h.csrWrite _ _
  case sysEvclr => exact h.clearEv _
  all_goals simpa using h

/-! ### Reads at reset -/

/-- Every register is a zero at reset (R26). -/
theorem csrRead_reset (r : Csr) : csrRead r State.reset = .real .zero ∨ csrRead r State.reset = .word 0 := by
  cases r with
  | envStat | evstat | evmask | fault => exact .inr rfl
  | oscStat k | oscMode k => right; cases k <;> rfl
  | oscFreq k | oscPhase k | oscShift k | oscF k => left; cases k <;> rfl
  | fadTarget j | fadStep j | fadValue j => left; cases j <;> rfl
  | _ => exact .inl rfl

/-- `+0.0` leaves as the pattern of zeros, whichever the free NaN patterns are (R64). -/
theorem bits_zero (n : Nat) : F32.zero.bits n = 0 := by
  show packBits false 0 0 = 0
  decide

end Sys2Proof.Machine
end

