-- ==== Sys2Proof/Proofs/StateFamily.lean ====
section
/-! Proofs/StateFamily.lean: the obligations of spec/10_state.md. -/

namespace Sys2Proof.Machine

/-- Settles O10: nothing is written, no flag is set, and the mode of osc2 is OFF. -/
theorem invAtReset : Obligations.InvAtReset := inv_reset

/-- Settles O11: a step is a reset edge, an idle edge, a command of the set or an illegal one, and each keeps the
invariant. -/
theorem stepKeepsInv : Obligations.StepKeepsInv := by
  intro s t h hstep
  rcases step_cases hstep with ⟨-, rfl⟩ | ⟨-, -, rfl⟩ | ⟨c, rest, i, -, -, -, hexec⟩ | ⟨c, rest, e, -, -, -, rfl⟩
  · exact h.resetEdge
  · exact (inv_idleEdge s).mpr h
  · exact ((inv_takeCommand s rest).mpr h).exec hexec
  · exact ((inv_takeCommand s rest).mpr h).illegal

/-- Settles O12: each register holds `+0.0` or the word 0 at reset, and both leave as zeros. -/
theorem everyRegisterReadsZeroAtReset : Obligations.EveryRegisterReadsZeroAtReset := by
  refine ⟨rfl, fun r => ⟨_, rfl, ?_⟩⟩
  rcases csrRead_reset r with hr | hr <;> rw [hr]
  · show (respondReal .zero State.reset).rsp = _
    rw [respondReal_rsp, bits_zero]
  · exact respondWord_rsp _ _

/-- Settles O22: `env_run` keeps the parameters and the shape, so only the commands that write them directly can change
them. -/
theorem envelopeWriters : Obligations.EnvelopeWriters := by
  intro i s t h
  have keeps (dt : F32) (e : Env) := refEnvRun_keeps dt e
  generalize t.env = e', exec_env h = hchange
  cases hchange with
  | keep => simp
  | setall => simp [keeps]
  | setp => simp [keeps]
  | setshape => simp
  | start => simp
  | run => simp [keeps]
  | release => simp [keeps, Env.released]
  | stop => simp
  | sample => simp [keeps]

/-- Settles O32: an advance writes the phase and may move the waveform to the scheduled one; the rest is written by the
commands that name it. -/
theorem oscillatorWriters : Obligations.OscillatorWriters := by
  intro i s t k h
  generalize t.osc k = o', exec_osc h k = hchange
  cases hchange with
  | keep => simp
  | setf => simp
  | setw w =>
    simp only [Osc.withWave]
    split_ifs <;> simp
  | setps => simp
  | start => simp [Osc.restarted]
  | stop => simp [Osc.restarted]
  | run d0 =>
    obtain ⟨hsched, hfreq, hshift, hact, hwave⟩ := refOscRun_keeps (laneReal d0) (s.osc k)
    simp [hsched, hfreq, hshift, hact, hwave]
  | sample d0 d1 dt f p =>
    obtain ⟨hsched, -, -, hact, hwave⟩ := refOscRun_keeps dt { s.osc k with freq := f, shift := p }
    simp [hsched, hact, hwave]

/-- Settles O36: `fad_proceed` writes the value only, and `FAD.SET2` is the only command that writes the step. -/
theorem faderWriters : Obligations.FaderWriters := by
  intro i s t j h
  generalize t.fad j = f', exec_fad h j = hchange
  cases hchange with
  | keep => simp
  | set => simp
  | set2 => simp
  | proceed => simp
  | sample => simp

/-- Settles O34: the rounded sum of R141 crosses neither the old value nor the target, since both are numbers of the format
and the exact sum does not pass them. -/
theorem faderNeverOvershoots : Obligations.FaderNeverOvershoots := by
  intro j s ht hs hv
  obtain ⟨t, hexec, hfad⟩ := exec_fadProceed_fad j s
  obtain ⟨hfin, hup, hdown⟩ := proceed_between (s.fad j) ht hs hv
  refine ⟨t, hexec, ?_⟩
  simp only [hfad, value_le_iff ht hv, value_le_iff hv ht, value_le_iff hv hfin, value_le_iff hfin hv,
    value_le_iff ht hfin, value_le_iff hfin ht, abs_value_sub_le_iff ht hv hs]
  refine ⟨hfin, hup, hdown, fun hwithin => ?_⟩
  rcases proceed_cases (s.fad j) ht hs hv with hland | ⟨hfar, -⟩
  · exact hland
  · omega

end Sys2Proof.Machine
end

