-- ==== Sys2Proof/Proofs/History.lean ====
section
/-! Proofs/History.lean: what the sub-operations, the commands and a list of pushes do to the history space
(spec/20_memory.md R40 to R44, R51), and the obligations of that chapter. -/

namespace Sys2Proof.Machine

/-! ### The history space under the shared sub-operations -/

@[simp] theorem envRun_hist (dt : F32) (s : State) : (envRun dt s).hist = s.hist := by
  rw [envRun_eq, orEvents_hist, setEnv_hist]

@[simp] theorem envRun_wr (dt : F32) (s : State) : (envRun dt s).wr = s.wr := by
  rw [envRun_eq, orEvents_wr, setEnv_wr]

@[simp] theorem oscRun_hist (k : OscId) (dt : F32) (s : State) : (oscRun k dt s).hist = s.hist := by
  rw [oscRun_eq, orEvents_hist, setOsc_hist]

@[simp] theorem oscRun_wr (k : OscId) (dt : F32) (s : State) : (oscRun k dt s).wr = s.wr := by
  rw [oscRun_eq, orEvents_wr, setOsc_wr]

@[simp] theorem fadStep_hist (j : FadId) (s : State) : (fadStep j s).hist = s.hist := setFad_hist _ _ _

@[simp] theorem fadStep_wr (j : FadId) (s : State) : (fadStep j s).wr = s.wr := setFad_wr _ _ _

@[simp] theorem fadToward_hist (j : FadId) (v : F32) (s : State) : (fadToward j v s).hist = s.hist := by
  rw [fadToward_eq, setFad_hist]

@[simp] theorem fadToward_wr (j : FadId) (v : F32) (s : State) : (fadToward j v s).wr = s.wr := by
  rw [fadToward_eq, setFad_wr]

/-! ### The history space under a command -/

/-- What a command can do to the history space (R40, R42, R51): `ENG.SAMPLE` pushes its two operands, every other command
leaves it alone. -/
theorem exec_history {i : Instr} {s t : State} (h : exec i s = .next t) :
    (∃ d0 d1, i = .engSample d0 d1 ∧ t.hist = (histPush Config.cap d0 d1 s).hist ∧
        t.wr = (histPush Config.cap d0 d1 s).wr) ∨
      (t.hist = s.hist ∧ t.wr = s.wr) := by
  cases i <;> cases h
  case engSample d0 d1 => exact .inl ⟨d0, d1, rfl, engSampleWith_hist _ _ _ _, engSampleWith_wr _ _ _ _⟩
  case envRelease =>
    right
    rw [respondNone_hist, respondNone_wr]
    split_ifs
    · exact ⟨rfl, rfl⟩
    · rw [envRun_hist, envRun_wr]
      exact ⟨rfl, rfl⟩
  all_goals exact .inr (by simp)

/-! ### The history space under a list of pushes -/

/-- The pushes of a list, the first one first (R42, R51). -/
def histPushAll (cap : Nat) (ps : List (Word × Word)) (s : State) : State :=
  ps.foldl (fun u p => histPush cap p.1 p.2 u) s

@[simp] theorem histPushAll_nil (cap : Nat) (s : State) : histPushAll cap [] s = s := rfl

/-- The last push of a list is made after all the others. -/
@[simp] theorem histPushAll_concat (cap : Nat) (ps : List (Word × Word)) (p : Word × Word) (s : State) :
    histPushAll cap (ps ++ [p]) s = histPush cap p.1 p.2 (histPushAll cap ps s) :=
  List.foldl_concat _ _ _ _

/-- Pushes leave the write position inside the space (R41). -/
theorem histPushAll_wr_lt {cap : Nat} (ps : List (Word × Word)) {s : State} (h : s.wr < cap) :
    (histPushAll cap ps s).wr < cap := by
  cases ps using List.reverseRecOn with
  | nil => exact h
  | append_singleton ps p =>
    rw [histPushAll_concat]
    exact histPush_wr_lt _ _ _ _ (Nat.zero_lt_of_lt h)

/-- The word of a push that goes to a channel (R42). -/
def channelWord (c : Channel) (p : Word × Word) : Word :=
  match c with
  | .ch0 => p.1
  | .ch1 => p.2

/-- Delay 0 after a push is the pushed word (R51 a). -/
theorem histRead_histPush_zero {cap : Nat} (p : Word × Word) {s : State} (c : Channel) (h : s.wr < cap) :
    histRead cap c 0 (histPush cap p.1 p.2 s) = channelWord c p := by
  rw [histRead_histPush _ _ _ h (Nat.zero_lt_of_lt h)]
  cases c <;> rfl

/-- A push moves every word one place back (R51 b). -/
theorem histRead_histPush_succ {cap : Nat} (p : Word × Word) {s : State} (c : Channel) {n : Nat} (h : s.wr < cap)
    (hn : n + 1 < cap) : histRead cap c (n + 1) (histPush cap p.1 p.2 s) = histRead cap c n s :=
  histRead_histPush _ _ _ h hn

/-- The history reads as the list of pushes, newest first, and behind it what was there before (R43, R44). -/
theorem histRead_histPushAll {cap : Nat} (ps : List (Word × Word)) {s : State} (c : Channel) {n : Nat}
    (h : s.wr < cap) (hn : n < cap) :
    histRead cap c n (histPushAll cap ps s) =
      (ps.reverse[n]?.map (channelWord c)).getD (histRead cap c (n - ps.length) s) := by
  induction ps using List.reverseRecOn generalizing n with
  | nil => simp
  | append_singleton ps p ih =>
    have hwr : (histPushAll cap ps s).wr < cap := histPushAll_wr_lt ps h
    rw [histPushAll_concat]
    cases n with
    | zero => simp [histRead_histPush_zero p c hwr]
    | succ m => simp [histRead_histPush_succ p c hwr hn, ih (Nat.lt_of_succ_lt hn)]

/-- A delay shorter than the list reads the push that many places before the last (R51 b). -/
theorem histRead_histPushAll_of_lt {cap : Nat} (ps : List (Word × Word)) {s : State} (c : Channel) {n : Nat}
    (h : s.wr < cap) (hn : n < cap) (hlt : n < ps.length) :
    histRead cap c n (histPushAll cap ps s) = channelWord c (ps[ps.length - 1 - n]'(by omega)) := by
  have hsome : ps.reverse[n]? = some (ps[ps.length - 1 - n]'(by omega)) := by
    rw [List.getElem?_reverse hlt, List.getElem?_eq_getElem]
  rw [histRead_histPushAll ps c h hn, hsome]
  rfl

/-- A longer delay reads past the list (R44). -/
theorem histRead_histPushAll_of_le {cap : Nat} (ps : List (Word × Word)) {s : State} (c : Channel) {n : Nat}
    (h : s.wr < cap) (hn : n < cap) (hle : ps.length ≤ n) :
    histRead cap c n (histPushAll cap ps s) = histRead cap c (n - ps.length) s := by
  have hnone : ps.reverse[n]? = none := List.getElem?_eq_none (by rwa [List.length_reverse])
  rw [histRead_histPushAll ps c h hn, hnone]
  rfl

/-! ### The obligations -/

/-- Settles O40: a command that is no `ENG.SAMPLE` leaves the listed bytes and the write position, so every byte reads as
before. -/
theorem historyOnlyBySample : Obligations.HistoryOnlyBySample := by
  intro i s t hexec hother
  rcases exec_history hexec with ⟨d0, d1, hsample, -, -⟩ | ⟨hhist, hwr⟩
  · exact absurd hsample (hother d0 d1)
  · exact ⟨hwr, fun a => by rw [hhist]⟩

/-- Settles O54, by induction on the pushes from the last one: each push puts its words at delay 0 and moves all others one
place back. -/
theorem historyHoldsThePushes : Obligations.HistoryHoldsThePushes := fun _ _ ps _ hwr hn =>
  ⟨fun hlt => ⟨histRead_histPushAll_of_lt ps .ch0 hwr hn hlt, histRead_histPushAll_of_lt ps .ch1 hwr hn hlt⟩,
    fun hle c => histRead_histPushAll_of_le ps c hwr hn hle⟩

end Sys2Proof.Machine
end

