-- ==== Sys2Proof/Proofs/Decoding.lean ====
section
/-! Proofs/Decoding.lean: the decoder of spec/30_encoding.md R62 to R69 as a relation between a command and an
instruction: the codes both ways, what each form of row accepts, and `decode_eq_ok_iff`, which says that a command decodes
to an instruction of the set exactly when it has its word and carries its operands. Then the legal words as numbers. -/

namespace Sys2Proof

/-! ### The codes both ways (R66, R25) -/

theorem OscId.ofCode_eq_some {n : Nat} {k : OscId} : OscId.ofCode n = some k ↔ n = k.code := by
  constructor
  · intro h
    unfold OscId.ofCode at h
    split at h <;> cases h <;> rfl
  · rintro rfl
    exact OscId.ofCode_code k

theorem FadId.ofCode_eq_some {n : Nat} {j : FadId} : FadId.ofCode n = some j ↔ n = j.code := by
  constructor
  · intro h
    unfold FadId.ofCode at h
    split at h <;> cases h <;> rfl
  · rintro rfl
    exact FadId.ofCode_code j

theorem Phase.ofCode_eq_some {n : Nat} {p : Phase} : Phase.ofCode n = some p ↔ n = p.code := by
  constructor
  · intro h
    unfold Phase.ofCode at h
    split at h <;> cases h <;> rfl
  · rintro rfl
    cases p <;> rfl

theorem Shape.ofCode_eq_some {n : Nat} {sh : Shape} : Shape.ofCode n = some sh ↔ n = sh.code := by
  constructor
  · intro h
    unfold Shape.ofCode at h
    split at h <;> cases h <;> rfl
  · rintro rfl
    cases sh <;> rfl

theorem Waveform.ofCode_eq_some {n : Nat} {w : Waveform} : Waveform.ofCode n = some w ↔ n = w.code := by
  constructor
  · intro h
    unfold Waveform.ofCode at h
    split at h <;> cases h <;> rfl
  · rintro rfl
    cases w <;> rfl

theorem Csr.ofNum_eq_some {n : Nat} (hn : n < 256) {r : Csr} : Csr.ofNum n = some r ↔ n = r.num := by
  constructor
  · intro h
    exact (Csr.num_of_ofNum n hn r h).symm
  · rintro rfl
    exact Csr.ofNum_of_num r

theorem OscId.exists_code {n : Nat} : (∃ k : OscId, n = k.code) ↔ 1 ≤ n ∧ n ≤ 3 := by
  constructor
  · rintro ⟨k, rfl⟩
    cases k <;> decide
  · rintro ⟨hlo, hhi⟩
    interval_cases n
    exacts [⟨.osc1, rfl⟩, ⟨.osc2, rfl⟩, ⟨.osc3, rfl⟩]

theorem FadId.exists_code {n : Nat} : (∃ j : FadId, n = j.code) ↔ n ≤ 2 := by
  constructor
  · rintro ⟨j, rfl⟩
    cases j <;> decide
  · intro hhi
    interval_cases n
    exacts [⟨.shift, rfl⟩, ⟨.amp, rfl⟩, ⟨.mix, rfl⟩]

theorem Phase.exists_code {n : Nat} : (∃ p : Phase, n = p.code) ↔ n ≤ 3 := by
  constructor
  · rintro ⟨p, rfl⟩
    cases p <;> decide
  · intro hhi
    interval_cases n
    exacts [⟨.attack, rfl⟩, ⟨.decay, rfl⟩, ⟨.sustain, rfl⟩, ⟨.release, rfl⟩]

theorem Shape.exists_code {n : Nat} : (∃ sh : Shape, n = sh.code) ↔ n ≤ 3 := by
  constructor
  · rintro ⟨sh, rfl⟩
    cases sh <;> decide
  · intro hhi
    interval_cases n
    exacts [⟨.linear, rfl⟩, ⟨.invSquare, rfl⟩, ⟨.squareRoot, rfl⟩, ⟨.quarterSine, rfl⟩]

theorem Waveform.exists_code {n : Nat} : (∃ w : Waveform, n = w.code) ↔ n ≤ 2 := by
  constructor
  · rintro ⟨w, rfl⟩
    cases w <;> decide
  · intro hhi
    interval_cases n
    exacts [⟨.sine, rfl⟩, ⟨.triangle, rfl⟩, ⟨.square, rfl⟩]

/-! ### The command word from its fields and back (R62) -/

/-- The field `idx` has eight bits. -/
theorem idxOf_lt (cw : CmdWord) : idxOf cw < 256 := by
  obtain ⟨-, -, -, -, hidx⟩ := fields_toNat cw
  omega

/-- A word is the format U word of its four fields. -/
theorem eq_formatU {cw : CmdWord} {u o s m : Nat} (hu : unitOf cw = u) (ho : opOf cw = o) (hs : selOf cw = s)
    (hm : immOf cw = m) : cw = formatU u o s m := by
  have hlt := cw.isLt
  obtain ⟨hu', ho', hs', hm', -⟩ := fields_toNat cw
  apply BitVec.eq_of_toNat_eq
  rw [formatU_toNat u o s m] <;> omega

/-- A word of unit 5 is the format C word of its other two fields. -/
theorem eq_formatC {cw : CmdWord} {o x : Nat} (hu : unitOf cw = 5) (ho : opOf cw = o) (hx : idxOf cw = x) :
    cw = formatC o x := by
  have hlt := cw.isLt
  obtain ⟨hu', ho', -, -, hx'⟩ := fields_toNat cw
  apply BitVec.eq_of_toNat_eq
  rw [formatC_toNat o x] <;> omega

theorem OscId.code_lt (k : OscId) : k.code < 16 := by cases k <;> decide

theorem FadId.code_lt (j : FadId) : j.code < 16 := by cases j <;> decide

theorem Phase.code_lt (p : Phase) : p.code < 16 := by cases p <;> decide

theorem Shape.code_lt (sh : Shape) : sh.code < 16 := by cases sh <;> decide

theorem Waveform.code_lt (w : Waveform) : w.code < 16 := by cases w <;> decide

/-! ### What each form of row accepts (R68) -/

theorem plain_eq_ok {cw : CmdWord} {j i : Instr} : plain cw j = .ok i ↔ selOf cw = 0 ∧ immOf cw = 0 ∧ j = i := by
  simp only [plain, ne_eq, ite_not]
  split_ifs <;> simp [*]

theorem onOsc_eq_ok {cw : CmdWord} {f : OscId → Instr} {i : Instr} :
    onOsc cw f = .ok i ↔ ∃ k, selOf cw = k.code ∧ immOf cw = 0 ∧ f k = i := by
  simp only [← OscId.ofCode_eq_some, onOsc, ne_eq, ite_not]
  cases OscId.ofCode (selOf cw) with
  | none => simp
  | some k => split_ifs <;> simp [*]

theorem onFad_eq_ok {cw : CmdWord} {f : FadId → Instr} {i : Instr} :
    onFad cw f = .ok i ↔ ∃ j, selOf cw = j.code ∧ immOf cw = 0 ∧ f j = i := by
  simp only [← FadId.ofCode_eq_some, onFad, ne_eq, ite_not]
  cases FadId.ofCode (selOf cw) with
  | none => simp
  | some k => split_ifs <;> simp [*]

theorem decodeSetp_eq_ok {c : Command} {i : Instr} :
    decodeSetp c = .ok i ↔ ∃ id : Phase, selOf c.cw = 0 ∧ immOf c.cw = id.code ∧ .envSetp id c.d0 = i := by
  simp only [← Phase.ofCode_eq_some, decodeSetp]
  split_ifs with hsel
  · simp [hsel]
  · cases Phase.ofCode (immOf c.cw) <;> simp [not_not.mp hsel]

theorem decodeSetshape_eq_ok {c : Command} {i : Instr} :
    decodeSetshape c = .ok i ↔ ∃ sh : Shape, selOf c.cw = 0 ∧ immOf c.cw = sh.code ∧ .envSetshape sh = i := by
  simp only [← Shape.ofCode_eq_some, decodeSetshape]
  split_ifs with hsel
  · simp [hsel]
  · cases Shape.ofCode (immOf c.cw) <;> simp [not_not.mp hsel]

theorem decodeSetw_eq_ok {c : Command} {i : Instr} :
    decodeSetw c = .ok i ↔
      ∃ (k : OscId) (w : Waveform), selOf c.cw = k.code ∧ immOf c.cw = w.code ∧ .oscSetw k w = i := by
  simp only [← OscId.ofCode_eq_some, ← Waveform.ofCode_eq_some, decodeSetw]
  cases OscId.ofCode (selOf c.cw) with
  | none => simp
  | some k => cases Waveform.ofCode (immOf c.cw) <;> simp

theorem decodeCsrr_eq_ok {c : Command} {i : Instr} :
    decodeCsrr c = .ok i ↔ ∃ r : Csr, idxOf c.cw = r.num ∧ .sysCsrr r = i := by
  simp only [← Csr.ofNum_eq_some (idxOf_lt _), decodeCsrr]
  cases Csr.ofNum (idxOf c.cw) <;> simp

theorem decodeCsrw_eq_ok {c : Command} {i : Instr} :
    decodeCsrw c = .ok i ↔
      ∃ r : Csr, idxOf c.cw = r.num ∧ r.writable = true ∧ r.admits c.d0 = true ∧ .sysCsrw r c.d0 = i := by
  simp only [← Csr.ofNum_eq_some (idxOf_lt _), decodeCsrw]
  cases Csr.ofNum (idxOf c.cw) with
  | none => simp
  | some r => cases hw : r.writable <;> cases ha : r.admits c.d0 <;> simp [hw, ha]

/-! ### What the decoder reads -/

/-- `i` with its operands taken from the lanes of `c` that its rule names (R63). -/
def Instr.withLanes (c : Command) : Instr → Instr
  | .envSetall _ _ _ _ => .envSetall c.d0 c.d1 c.d2 c.d3
  | .envSetp id _ => .envSetp id c.d0
  | .envRun _ => .envRun c.d0
  | .oscSetf k _ => .oscSetf k c.d0
  | .oscSetps k _ => .oscSetps k c.d0
  | .oscRun k _ => .oscRun k c.d0
  | .fadSet j _ => .fadSet j c.d0
  | .fadSet2 j _ _ => .fadSet2 j c.d0 c.d1
  | .engSample _ _ => .engSample c.d0 c.d1
  | .sysCsrw r _ => .sysCsrw r c.d0
  | .sysEvclr _ => .sysEvclr c.d0
  | i => i

/-- `c` is a command for `i`: it has the word of `i` and carries the operands of `i`, and `i` is in the set. -/
structure Reads (c : Command) (i : Instr) : Prop where
  word : c.cw = (encode i).cw
  wellFormed : i.wellFormed = true
  lanes : i.withLanes c = i

/-- The encoder's command for an instruction of the set is a command for it. -/
theorem reads_encode {i : Instr} (h : i.wellFormed = true) : Reads (encode i) i :=
  ⟨rfl, h, by cases i <;> rfl⟩

theorem decodeEnv_reads {c : Command} {i : Instr} (hu : unitOf c.cw = 1) (h : decodeEnv c = .ok i) : Reads c i := by
  unfold decodeEnv at h
  split at h <;> rename_i ho
  case h_2 =>
    obtain ⟨id, hs, hm, rfl⟩ := decodeSetp_eq_ok.mp h
    exact ⟨eq_formatU hu ho hs hm, rfl, rfl⟩
  case h_3 =>
    obtain ⟨sh, hs, hm, rfl⟩ := decodeSetshape_eq_ok.mp h
    exact ⟨eq_formatU hu ho hs hm, rfl, rfl⟩
  case h_9 => cases h
  all_goals
    obtain ⟨hs, hm, rfl⟩ := plain_eq_ok.mp h
    exact ⟨eq_formatU hu ho hs hm, rfl, rfl⟩

theorem decodeOsc_reads {c : Command} {i : Instr} (hu : unitOf c.cw = 2) (h : decodeOsc c = .ok i) : Reads c i := by
  unfold decodeOsc at h
  split at h <;> rename_i ho
  case h_3 =>
    obtain ⟨k, w, hs, hm, rfl⟩ := decodeSetw_eq_ok.mp h
    exact ⟨eq_formatU hu ho hs hm, rfl, rfl⟩
  case h_12 => cases h
  all_goals
    obtain ⟨k, hs, hm, rfl⟩ := onOsc_eq_ok.mp h
    exact ⟨eq_formatU hu ho hs hm, rfl, rfl⟩

theorem decodeFad_reads {c : Command} {i : Instr} (hu : unitOf c.cw = 3) (h : decodeFad c = .ok i) : Reads c i := by
  unfold decodeFad at h
  split at h <;> rename_i ho
  case h_5 => cases h
  all_goals
    obtain ⟨j, hs, hm, rfl⟩ := onFad_eq_ok.mp h
    exact ⟨eq_formatU hu ho hs hm, rfl, rfl⟩

theorem decodeEng_reads {c : Command} {i : Instr} (hu : unitOf c.cw = 4) (h : decodeEng c = .ok i) : Reads c i := by
  unfold decodeEng at h
  split at h <;> rename_i ho
  · obtain ⟨hs, hm, rfl⟩ := plain_eq_ok.mp h
    exact ⟨eq_formatU hu ho hs hm, rfl, rfl⟩
  · cases h

theorem decodeSys_reads {c : Command} {i : Instr} (hu : unitOf c.cw = 5) (h : decodeSys c = .ok i) : Reads c i := by
  unfold decodeSys at h
  split at h <;> rename_i ho
  · obtain ⟨r, hx, rfl⟩ := decodeCsrr_eq_ok.mp h
    exact ⟨eq_formatC hu ho hx, rfl, rfl⟩
  · obtain ⟨r, hx, hw, ha, rfl⟩ := decodeCsrw_eq_ok.mp h
    exact ⟨eq_formatC hu ho hx, by simp [Instr.wellFormed, hw, ha], rfl⟩
  · obtain ⟨hs, hm, rfl⟩ := plain_eq_ok.mp h
    exact ⟨eq_formatU hu ho hs hm, rfl, rfl⟩
  · cases h

/-- The fields of a word that is a format U word. -/
theorem fields_of_eq_formatU {cw : CmdWord} {u o s m : Nat} (h : cw = formatU u o s m) (hu : u < 16) (ho : o < 16)
    (hs : s < 16) (hm : m < 16) : unitOf cw = u ∧ opOf cw = o ∧ selOf cw = s ∧ immOf cw = m :=
  h ▸ formatU_fields u o s m hu ho hs hm

/-- The fields of a word that is a format C word. -/
theorem fields_of_eq_formatC {cw : CmdWord} {o x : Nat} (h : cw = formatC o x) (ho : o < 16) (hx : x < 256) :
    unitOf cw = 5 ∧ opOf cw = o ∧ idxOf cw = x :=
  h ▸ formatC_fields o x ho hx

/-- A command for `i` decodes to `i`: its fields lead to the row of `i`, and the row accepts them. -/
theorem Reads.decode {c : Command} {i : Instr} (h : Reads c i) : decode c = .ok i := by
  obtain ⟨hcw, hwf, hlanes⟩ := h
  cases i with
  | envSetall | envStart | envRun | envRelease | envStop | envGet =>
    obtain ⟨hu, ho, hs, hm⟩ := fields_of_eq_formatU hcw (by decide) (by decide) (by decide) (by decide)
    simp only [Sys2Proof.decode, decodeEnv, hu, ho]
    exact plain_eq_ok.mpr ⟨hs, hm, hlanes⟩
  | envSetp id =>
    obtain ⟨hu, ho, hs, hm⟩ := fields_of_eq_formatU hcw (by decide) (by decide) (by decide) id.code_lt
    simp only [Sys2Proof.decode, decodeEnv, hu, ho]
    exact decodeSetp_eq_ok.mpr ⟨id, hs, hm, hlanes⟩
  | envSetshape sh =>
    obtain ⟨hu, ho, hs, hm⟩ := fields_of_eq_formatU hcw (by decide) (by decide) (by decide) sh.code_lt
    simp only [Sys2Proof.decode, decodeEnv, hu, ho]
    exact decodeSetshape_eq_ok.mpr ⟨sh, hs, hm, hlanes⟩
  | oscSetf k | oscGetf k | oscSetps k | oscGetps k | oscStart k | oscStop k | oscRun k | oscGetv k | oscGeti k
  | oscIsact k =>
    obtain ⟨hu, ho, hs, hm⟩ := fields_of_eq_formatU hcw (by decide) (by decide) k.code_lt (by decide)
    simp only [Sys2Proof.decode, decodeOsc, hu, ho]
    exact onOsc_eq_ok.mpr ⟨k, hs, hm, hlanes⟩
  | oscSetw k w =>
    obtain ⟨hu, ho, hs, hm⟩ := fields_of_eq_formatU hcw (by decide) (by decide) k.code_lt w.code_lt
    simp only [Sys2Proof.decode, decodeOsc, hu, ho]
    exact decodeSetw_eq_ok.mpr ⟨k, w, hs, hm, hlanes⟩
  | fadSet j | fadSet2 j | fadProceed j | fadGet j =>
    obtain ⟨hu, ho, hs, hm⟩ := fields_of_eq_formatU hcw (by decide) (by decide) j.code_lt (by decide)
    simp only [Sys2Proof.decode, decodeFad, hu, ho]
    exact onFad_eq_ok.mpr ⟨j, hs, hm, hlanes⟩
  | engSample =>
    obtain ⟨hu, ho, hs, hm⟩ := fields_of_eq_formatU hcw (by decide) (by decide) (by decide) (by decide)
    simp only [Sys2Proof.decode, decodeEng, hu, ho]
    exact plain_eq_ok.mpr ⟨hs, hm, hlanes⟩
  | sysCsrr r =>
    obtain ⟨hu, ho, hx⟩ := fields_of_eq_formatC hcw (by decide) r.num_lt
    simp only [Sys2Proof.decode, decodeSys, hu, ho]
    exact decodeCsrr_eq_ok.mpr ⟨r, hx, hlanes⟩
  | sysCsrw r d0 =>
    obtain ⟨hu, ho, hx⟩ := fields_of_eq_formatC hcw (by decide) r.num_lt
    obtain ⟨hw, ha⟩ := Bool.and_eq_true_iff.mp hwf
    obtain rfl : c.d0 = d0 := (Instr.sysCsrw.inj hlanes).2
    simp only [Sys2Proof.decode, decodeSys, hu, ho]
    exact decodeCsrw_eq_ok.mpr ⟨r, hx, hw, ha, hlanes⟩
  | sysEvclr =>
    obtain ⟨hu, ho, hs, hm⟩ := fields_of_eq_formatU hcw (by decide) (by decide) (by decide) (by decide)
    simp only [Sys2Proof.decode, decodeSys, hu, ho]
    exact plain_eq_ok.mpr ⟨hs, hm, hlanes⟩

/-- What the decoder answers is exactly an instruction of the set whose word the command has and whose operands its lanes
carry (R67 to R69). -/
theorem decode_eq_ok_iff {c : Command} {i : Instr} : decode c = .ok i ↔ Reads c i := by
  refine ⟨fun h => ?_, Reads.decode⟩
  unfold decode at h
  split at h <;> rename_i hu
  · exact decodeEnv_reads hu h
  · exact decodeOsc_reads hu h
  · exact decodeFad_reads hu h
  · exact decodeEng_reads hu h
  · exact decodeSys_reads hu h
  · cases h

/-! ### The registers as numbers (R25, R19) -/

open Reference

/-- The map has a register at each of the numbers of R25. -/
theorem isSome_ofNum_of_mapped : ∀ n < 0x63, mapped n → (Csr.ofNum n).isSome := by
  unfold mapped
  decide

/-- The numbers of the registers are those of R25. -/
theorem Csr.exists_num {n : Nat} : (∃ r : Csr, n = r.num) ↔ mapped n := by
  constructor
  · rintro ⟨r, rfl⟩
    cases r with
    | oscStat k | oscFreq k | oscPhase k | oscShift k | oscF k | oscMode k =>
      cases k <;> simp [mapped, Csr.num, OscId.code]
    | fadTarget j | fadStep j | fadValue j => cases j <;> simp [mapped, Csr.num, FadId.code]
    | _ => simp [mapped, Csr.num]
  · intro h
    have hn : n < 0x63 := by
      unfold mapped at h
      omega
    have hsome : (Csr.ofNum n).isSome := isSome_ofNum_of_mapped n hn h
    obtain ⟨r, hr⟩ := Option.isSome_iff_exists.mp hsome
    exact ⟨r, (Csr.ofNum_eq_some (by omega)).mp hr⟩

/-- The registers marked RW are those at the RW numbers (R25). -/
theorem Csr.writable_iff (r : Csr) : r.writable = true ↔ Reference.writable r.num := by
  cases r with
  | oscStat k | oscFreq k | oscPhase k | oscShift k | oscF k | oscMode k =>
    cases k <;> simp [Csr.writable, Reference.writable, Csr.num, OscId.code]
  | fadTarget j | fadStep j | fadValue j => cases j <;> simp [Csr.writable, Reference.writable, Csr.num, FadId.code]
  | _ => simp [Csr.writable, Reference.writable, Csr.num]

/-- A register admits the values that are legal at its number (R19). -/
theorem Csr.admits_iff (r : Csr) (d : Word) : r.admits d = true ↔ modeLegal r.num d.toNat := by
  cases r with
  | oscMode k => cases k <;> simp [Csr.admits, modeLegal, Csr.num, OscId.code] <;> omega
  | oscStat k | oscFreq k | oscPhase k | oscShift k | oscF k =>
    cases k <;> simp [Csr.admits, modeLegal, Csr.num, OscId.code]
  | fadTarget j | fadStep j | fadValue j => cases j <;> simp [Csr.admits, modeLegal, Csr.num, FadId.code]
  | _ => simp [Csr.admits, modeLegal, Csr.num]

/-- A number marked RW is a number of the map (R25). -/
theorem mapped_of_writable {n : Nat} (h : Reference.writable n) : mapped n := by
  unfold Reference.writable at h
  unfold mapped
  omega

/-- Where a write is legal (R68, R69). -/
theorem Csr.exists_num_writable {n : Nat} {d : Word} :
    (∃ r : Csr, n = r.num ∧ r.writable = true ∧ r.admits d = true) ↔ Reference.writable n ∧ modeLegal n d.toNat := by
  constructor
  · rintro ⟨r, rfl, hw, ha⟩
    exact ⟨r.writable_iff.mp hw, (r.admits_iff d).mp ha⟩
  · rintro ⟨hw, ha⟩
    obtain ⟨r, rfl⟩ := Csr.exists_num.mpr (mapped_of_writable hw)
    exact ⟨r, rfl, r.writable_iff.mpr hw, (r.admits_iff d).mpr ha⟩

/-! ### Which commands each unit accepts (R67 to R69) -/

theorem plain_accepts {cw : CmdWord} {j : Instr} : (∃ i, plain cw j = .ok i) ↔ selOf cw = 0 ∧ immOf cw = 0 := by
  simp [plain_eq_ok]

theorem onOsc_accepts {cw : CmdWord} {f : OscId → Instr} :
    (∃ i, onOsc cw f = .ok i) ↔ (1 ≤ selOf cw ∧ selOf cw ≤ 3) ∧ immOf cw = 0 := by
  simp [onOsc_eq_ok, ← OscId.exists_code, exists_comm (α := Instr)]

theorem onFad_accepts {cw : CmdWord} {f : FadId → Instr} :
    (∃ i, onFad cw f = .ok i) ↔ selOf cw ≤ 2 ∧ immOf cw = 0 := by
  simp [onFad_eq_ok, ← FadId.exists_code, exists_comm (α := Instr)]

theorem decodeSetp_accepts {c : Command} : (∃ i, decodeSetp c = .ok i) ↔ selOf c.cw = 0 ∧ immOf c.cw ≤ 3 := by
  simp [decodeSetp_eq_ok, ← Phase.exists_code]

theorem decodeSetshape_accepts {c : Command} :
    (∃ i, decodeSetshape c = .ok i) ↔ selOf c.cw = 0 ∧ immOf c.cw ≤ 3 := by
  simp [decodeSetshape_eq_ok, ← Shape.exists_code]

theorem decodeSetw_accepts {c : Command} :
    (∃ i, decodeSetw c = .ok i) ↔ (1 ≤ selOf c.cw ∧ selOf c.cw ≤ 3) ∧ immOf c.cw ≤ 2 := by
  simp [decodeSetw_eq_ok, ← OscId.exists_code, ← Waveform.exists_code, exists_comm (α := Instr)]

theorem decodeCsrr_accepts {c : Command} : (∃ i, decodeCsrr c = .ok i) ↔ mapped (idxOf c.cw) := by
  simp [decodeCsrr_eq_ok, ← Csr.exists_num, exists_comm (α := Instr)]

theorem decodeCsrw_accepts {c : Command} :
    (∃ i, decodeCsrw c = .ok i) ↔ Reference.writable (idxOf c.cw) ∧ modeLegal (idxOf c.cw) c.d0.toNat := by
  simp [decodeCsrw_eq_ok, ← Csr.exists_num_writable, exists_comm (α := Instr)]

theorem decodeEnv_accepts {c : Command} :
    (∃ i, decodeEnv c = .ok i) ↔
      ((opOf c.cw = 1 ∨ opOf c.cw = 2) ∧ selOf c.cw = 0 ∧ immOf c.cw ≤ 3) ∨
        ((opOf c.cw = 0 ∨ (3 ≤ opOf c.cw ∧ opOf c.cw ≤ 7)) ∧ selOf c.cw = 0 ∧ immOf c.cw = 0) := by
  unfold decodeEnv
  split
  case h_2 => rw [decodeSetp_accepts]; omega
  case h_3 => rw [decodeSetshape_accepts]; omega
  case h_9 => simp only [imp_false, reduceCtorEq, exists_false, false_iff] at *; omega
  all_goals rw [plain_accepts]; omega

theorem decodeOsc_accepts {c : Command} :
    (∃ i, decodeOsc c = .ok i) ↔
      (opOf c.cw = 2 ∧ 1 ≤ selOf c.cw ∧ selOf c.cw ≤ 3 ∧ immOf c.cw ≤ 2) ∨
        (opOf c.cw ≤ 10 ∧ opOf c.cw ≠ 2 ∧ 1 ≤ selOf c.cw ∧ selOf c.cw ≤ 3 ∧ immOf c.cw = 0) := by
  unfold decodeOsc
  split
  case h_3 => rw [decodeSetw_accepts]; omega
  case h_12 => simp only [imp_false, reduceCtorEq, exists_false, false_iff] at *; omega
  all_goals rw [onOsc_accepts]; omega

theorem decodeFad_accepts {c : Command} :
    (∃ i, decodeFad c = .ok i) ↔ opOf c.cw ≤ 3 ∧ selOf c.cw ≤ 2 ∧ immOf c.cw = 0 := by
  unfold decodeFad
  split
  case h_5 => simp only [imp_false, reduceCtorEq, exists_false, false_iff] at *; omega
  all_goals rw [onFad_accepts]; omega

theorem decodeEng_accepts {c : Command} :
    (∃ i, decodeEng c = .ok i) ↔ opOf c.cw = 0 ∧ selOf c.cw = 0 ∧ immOf c.cw = 0 := by
  unfold decodeEng
  split
  · rw [plain_accepts]; omega
  · simp only [imp_false, reduceCtorEq, exists_false, false_iff] at *; omega

theorem decodeSys_accepts {c : Command} :
    (∃ i, decodeSys c = .ok i) ↔
      (opOf c.cw = 0 ∧ mapped (idxOf c.cw)) ∨
        (opOf c.cw = 1 ∧ Reference.writable (idxOf c.cw) ∧ modeLegal (idxOf c.cw) c.d0.toNat) ∨
        (opOf c.cw = 2 ∧ selOf c.cw = 0 ∧ immOf c.cw = 0) := by
  unfold decodeSys
  split
  case h_4 h0 h1 h2 => simp [imp_false.mp h0, imp_false.mp h1, imp_false.mp h2]
  all_goals
    rename_i ho
    simp [decodeCsrr_accepts, decodeCsrw_accepts, plain_accepts, ho]

/-- The legal commands in the fields of their word. -/
theorem legal_iff_fields (c : Command) :
    Reference.legal c.cw.toNat c.d0.toNat ↔
      (unitOf c.cw = 1 ∧ ∃ i, decodeEnv c = .ok i) ∨ (unitOf c.cw = 2 ∧ ∃ i, decodeOsc c = .ok i) ∨
        (unitOf c.cw = 3 ∧ ∃ i, decodeFad c = .ok i) ∨ (unitOf c.cw = 4 ∧ ∃ i, decodeEng c = .ok i) ∨
        (unitOf c.cw = 5 ∧ ∃ i, decodeSys c = .ok i) := by
  obtain ⟨hu, ho, hs, hm, hx⟩ := fields_toNat c.cw
  rw [decodeEnv_accepts, decodeOsc_accepts, decodeFad_accepts, decodeEng_accepts, decodeSys_accepts]
  simp only [Reference.legal, ← hu, ← ho, ← hs, ← hm, ← hx]
  simp only [and_or_left, or_assoc]

end Sys2Proof
end

