-- ==== Sys2Proof/Proofs/Port.lean ====
section
/-! Proofs/Port.lean: the command port (spec/30_encoding.md R61, R70): the step on an accepted command, and what every
command does to the queue, to the pin `rst` and to the response. -/

namespace Sys2Proof.Machine

/-- The step on an accepted command that decodes (R61). -/
theorem step_of_decode_ok {s : State} {c : Command} {rest : List Command} {i : Instr} (hrst : s.rst = false)
    (hacc : s.accepted = c :: rest) (hdec : decode c = .ok i) : step s = exec i (takeCommand rest s) := by
  simp only [step, hrst, hacc, hdec, Bool.false_eq_true, if_false]

/-- The step on an accepted command that is illegal (R70). -/
theorem step_of_decode_error {s : State} {c : Command} {rest : List Command} {e : DecodeError} (hrst : s.rst = false)
    (hacc : s.accepted = c :: rest) (hdec : decode c = .error e) : step s = .next (illegal (takeCommand rest s)) := by
  simp only [step, hrst, hacc, hdec, Bool.false_eq_true, if_false]

/-- A command ends in a next state, whatever it is. -/
theorem exec_total (i : Instr) (s : State) : ∃ t, exec i s = .next t := by
  cases i <;> exact ⟨_, rfl⟩

/-! ### The port under the shared sub-operations -/

@[simp] theorem envRun_accepted (dt : F32) (s : State) : (envRun dt s).accepted = s.accepted := by
  rw [envRun_eq, orEvents_accepted, setEnv_accepted]

@[simp] theorem envRun_rst (dt : F32) (s : State) : (envRun dt s).rst = s.rst := by
  rw [envRun_eq, orEvents_rst, setEnv_rst]

@[simp] theorem oscRun_accepted (k : OscId) (dt : F32) (s : State) : (oscRun k dt s).accepted = s.accepted := by
  rw [oscRun_eq, orEvents_accepted, setOsc_accepted]

@[simp] theorem oscRun_rst (k : OscId) (dt : F32) (s : State) : (oscRun k dt s).rst = s.rst := by
  rw [oscRun_eq, orEvents_rst, setOsc_rst]

@[simp] theorem fadStep_accepted (j : FadId) (s : State) : (fadStep j s).accepted = s.accepted :=
  setFad_accepted _ _ _

@[simp] theorem fadStep_rst (j : FadId) (s : State) : (fadStep j s).rst = s.rst := setFad_rst _ _ _

@[simp] theorem fadToward_accepted (j : FadId) (v : F32) (s : State) : (fadToward j v s).accepted = s.accepted := by
  rw [fadToward_eq, setFad_accepted]

@[simp] theorem fadToward_rst (j : FadId) (v : F32) (s : State) : (fadToward j v s).rst = s.rst := by
  rw [fadToward_eq, setFad_rst]

/-- The state from which `ENV.RELEASE` answers (R107), active or not, has the port of the state before it. -/
theorem release_port (s : State) :
    (if !s.env.active then s else envRun .zero (s.setEnv s.env.released)).accepted = s.accepted ∧
      (if !s.env.active then s else envRun .zero (s.setEnv s.env.released)).rst = s.rst := by
  split_ifs <;> simp

/-! ### The port under a command -/

/-- A command leaves the queue and the pin `rst`. -/
theorem exec_port {i : Instr} {s t : State} (h : exec i s = .next t) : t.accepted = s.accepted ∧ t.rst = s.rst := by
  cases i <;> cases h
  case envRelease => exact release_port s
  all_goals simp

/-- A command presents a response (R61). -/
theorem exec_responds {i : Instr} {s t : State} (h : exec i s = .next t) : ∃ r, t.rsp = some r := by
  cases i <;> cases h
  case engSample => exact ⟨_, engSampleWith_rsp _ _ _ _⟩
  case sysCsrr r => cases csrRead r s <;> exact ⟨_, rfl⟩
  case sysCsrw => exact ⟨_, csrWrite_rsp _ _ _⟩
  all_goals exact ⟨_, rfl⟩

end Sys2Proof.Machine
end

