-- ==== Sys2Proof/Proofs/EncodingFamily.lean ====
section
/-! Proofs/EncodingFamily.lean: the obligations of spec/30_encoding.md. -/

namespace Sys2Proof.Machine

/-- Settles O1: the encoder's command has the word of `i` and carries its operands, and such a command decodes to `i`. -/
theorem decodeOfEncode : Obligations.DecodeOfEncode := fun _ h => (reads_encode h).decode

/-- Settles O2: what decodes has the encoder's word; a lane the instruction names is carried, any other is not read. -/
theorem encodeOfDecode : Obligations.EncodeOfDecode := by
  intro c i h
  obtain ⟨hword, hwf, hlanes⟩ := decode_eq_ok_iff.mp h
  have ignored (c' : Command) (hcw : c'.cw = c.cw) (hl : i.withLanes c' = i) : decode c' = .ok i :=
    Reads.decode ⟨hcw.trans hword, hwf, hl⟩
  refine ⟨hwf, hword.symm, ?_⟩
  cases i with
  | envSetall =>
    cases hlanes
    exact ⟨.inl rfl, .inl rfl, .inl rfl, .inl rfl⟩
  | fadSet2 | engSample =>
    cases hlanes
    exact ⟨.inl rfl, .inl rfl, .inr ⟨rfl, fun _ => ignored _ rfl rfl⟩, .inr ⟨rfl, fun _ => ignored _ rfl rfl⟩⟩
  | envSetp | envRun | oscSetf | oscSetps | oscRun | fadSet | sysCsrw | sysEvclr =>
    cases hlanes
    exact ⟨.inl rfl, .inr ⟨rfl, fun _ => ignored _ rfl rfl⟩, .inr ⟨rfl, fun _ => ignored _ rfl rfl⟩,
      .inr ⟨rfl, fun _ => ignored _ rfl rfl⟩⟩
  | _ =>
    exact ⟨.inr ⟨rfl, fun _ => ignored _ rfl rfl⟩, .inr ⟨rfl, fun _ => ignored _ rfl rfl⟩,
      .inr ⟨rfl, fun _ => ignored _ rfl rfl⟩, .inr ⟨rfl, fun _ => ignored _ rfl rfl⟩⟩

/-- Settles O3: each unit accepts the words of its rows, and no other unit accepts any. -/
theorem legalCommandsExactly : Obligations.LegalCommandsExactly := by
  intro c
  rw [legal_iff_fields]
  unfold decode
  split
  case h_6 h1 h2 h3 h4 h5 =>
    simp [imp_false.mp h1, imp_false.mp h2, imp_false.mp h3, imp_false.mp h4, imp_false.mp h5]
  all_goals
    rename_i hu
    simp [hu]

/-- Settles O9: the step takes the command off the queue and answers it, as its own meaning or as an illegal one. -/
theorem everyCommandIsAnswered : Obligations.EveryCommandIsAnswered := by
  intro s c rest hrst hacc
  cases hdec : decode c with
  | error e =>
    exact ⟨_, _, step_of_decode_error hrst hacc hdec, by simp, illegal_rsp _, by simpa using hrst⟩
  | ok i =>
    obtain ⟨t, ht⟩ := exec_total i (takeCommand rest s)
    obtain ⟨hqueue, hpin⟩ := exec_port ht
    obtain ⟨r, hr⟩ := exec_responds ht
    exact ⟨t, r, (step_of_decode_ok hrst hacc hdec).trans ht, hqueue, hr, hpin.trans hrst⟩

/-- The word `0x5000 + n` of a register's number `n` is the read of that register (R67, R25). -/
theorem decode_csrrWord (r : Csr) :
    decode ⟨BitVec.ofNat 16 (0x5000 + r.num), 0, 0, 0, 0⟩ = .ok (.sysCsrr r) := by
  refine Reads.decode ⟨BitVec.eq_of_toNat_eq ?_, rfl, rfl⟩
  have hlt := r.num_lt
  rw [show (encode (.sysCsrr r)).cw = formatC 0 r.num from rfl, formatC_toNat 0 r.num (by decide) hlt,
    BitVec.toNat_ofNat]
  omega

/-- Settles O4: the example commands are the encodings of their instructions, and each row of R25 has its register's
number. -/
theorem wordsAndRegisterNumbersDecode : Obligations.WordsAndRegisterNumbersDecode := by
  refine ⟨Reads.decode ⟨rfl, rfl, rfl⟩, Reads.decode ⟨rfl, rfl, rfl⟩, Reads.decode ⟨rfl, rfl, rfl⟩,
    Reads.decode ⟨rfl, rfl, rfl⟩, Reads.decode ⟨rfl, rfl, rfl⟩, Reads.decode ⟨rfl, rfl, rfl⟩,
    Reads.decode ⟨rfl, rfl, rfl⟩, Reads.decode ⟨rfl, rfl, rfl⟩, fun p hp => ?_⟩
  have hnum : p.1 = p.2.num := by
    revert p
    decide
  rw [hnum]
  exact decode_csrrWord p.2

/-- Settles O5. -/
theorem stepRunsTheDecodedCommand : Obligations.StepRunsTheDecodedCommand := fun _ _ _ _ => step_of_decode_ok

/-- Settles O6: a command that decodes to no instruction is refused for some reason, and every reason is the one fault
ILL. -/
theorem illegalCommandOnlySetsIll : Obligations.IllegalCommandOnlySetsIll := by
  intro s c rest hrst hacc hnone
  cases hdec : decode c with
  | ok i => exact absurd hdec (hnone i)
  | error e => exact step_of_decode_error hrst hacc hdec

end Sys2Proof.Machine
end

