-- ==== Sys2Proof/Proofs/Nearest.lean ====
section
/-! Proofs/Nearest.lean: the rounding of spec/40_numerics.md R82 against the exact real result. The number of last places
that `nearestEven` keeps is the nearest one, even at a tie; every other number of the format is a whole number of last
places too, or lies below the range where that place applies; so what `pack` makes of it is nearest in the whole format. -/

namespace Sys2Proof

/-! ### What the significand says of the packed number -/

/-- A finite number packed from an even significand has an even fraction. -/
theorem even_pack {neg : Bool} {m k : ℕ} (hfin : (F32.pack neg m k).isFinite = true) (hm : m % 2 = 0) :
    Reference.even (F32.pack neg m k) = true := by
  have hbit : (!(BitVec.ofNat 23 m).getLsbD 0) = true := by
    rw [BitVec.getLsbD_ofNat, Nat.testBit_zero, hm]
    rfl
  unfold F32.pack at hfin ⊢
  dsimp only at hfin ⊢
  generalize (if m = 2 ^ 24 then k + 2 else k + 1) = e at hfin ⊢
  by_cases hsub : m < 2 ^ 23
  · rw [if_pos hsub]
    exact hbit
  rw [if_neg hsub] at hfin ⊢
  by_cases he : e < 255
  · rw [dif_pos he]
    exact hbit
  · rw [dif_neg he] at hfin
    cases hfin

/-- A finite real is a whole number of last places of `n`, or lies below the numbers with that last place. -/
theorem units_multiple_or_lt {c : F32} (hc : c.isFinite = true) (n : ℕ) :
    (∃ z : ℤ, c.units = z * 2 ^ lastPlace n 1) ∨
      (c.units < 2 ^ 23 * 2 ^ lastPlace n 1 ∧ 2 ^ 23 * 2 ^ lastPlace n 1 ≤ n) := by
  cases c with
  | nan => cases hc
  | inf => cases hc
  | fin neg e f =>
    rcases F32.mag_multiple_or_lt e f n with ⟨q, hq⟩ | ⟨hlt, hn⟩
    · refine .inl ⟨signed neg q, ?_⟩
      rw [units_fin, hq]
      cases neg <;> simp [signed]
    · refine .inr ⟨?_, hn⟩
      have hle : signed neg (F32.mag e f) ≤ F32.mag e f := (le_abs_self _).trans (abs_signed neg _).le
      rw [units_fin]
      exact hle.trans_lt (by exact_mod_cast hlt)

/-! ### The nearest number of last places -/

/-- `q` last places `2^k` of the exact magnitude `X`, in units of 2^-149, are nearest to `X`, and `q` is even at a tie
(R82). -/
structure NearestPlaces (X : ℝ) (k q : ℕ) : Prop where
  nonneg : 0 ≤ X
  place : k = lastPlace ⌊X⌋₊ 1
  near : |(q : ℝ) * 2 ^ k - X| ≤ 2 ^ k / 2
  tie : |(q : ℝ) * 2 ^ k - X| = 2 ^ k / 2 → q % 2 = 0

namespace NearestPlaces

variable {X : ℝ} {k q : ℕ}

/-- The magnitude is below the 24 bits kept. -/
theorem lt_top (h : NearestPlaces X k q) : X < 2 ^ 24 * 2 ^ k := by
  have hlt := lt_two_pow_lastPlace ⌊X⌋₊
  rw [← h.place, Nat.floor_lt h.nonneg] at hlt
  exact_mod_cast hlt

/-- Above the subnormal range the magnitude fills the 24 bits kept. -/
theorem lead_le (h : NearestPlaces X k q) (hk : k ≠ 0) : 2 ^ 23 * 2 ^ k ≤ X := by
  have hle := le_of_lastPlace_pos (h.place ▸ hk)
  rw [← h.place, Nat.le_floor_iff h.nonneg] at hle
  exact_mod_cast hle

theorem significand_le (h : NearestPlaces X k q) : q ≤ 2 ^ 24 := by
  have hpos : (0 : ℝ) < 2 ^ k := by positivity
  have hnear := (abs_le.mp h.near).2
  have hlt : (q : ℝ) * 2 ^ k < (2 ^ 24 + 1) * 2 ^ k := by linarith [h.lt_top]
  have hq : (q : ℝ) < 2 ^ 24 + 1 := lt_of_mul_lt_mul_right hlt hpos.le
  exact Nat.lt_succ_iff.mp (by exact_mod_cast hq)

theorem le_significand (h : NearestPlaces X k q) (hk : k ≠ 0) : 2 ^ 23 ≤ q := by
  have hpos : (0 : ℝ) < 2 ^ k := by positivity
  have hnear := (abs_le.mp h.near).1
  have hlt : (2 ^ 23 : ℝ) * 2 ^ k < (q + 1) * 2 ^ k := by linarith [h.lead_le hk]
  have hq : (2 ^ 23 : ℝ) < q + 1 := lt_of_mul_lt_mul_right hlt hpos.le
  exact Nat.lt_succ_iff.mp (by exact_mod_cast hq)

/-- Another number of last places is no nearer, and equally near only at a tie. -/
theorem multiple_no_nearer (h : NearestPlaces X k q) {z : ℤ} (hz : z ≠ q) :
    |(q : ℝ) * 2 ^ k - X| ≤ |(z : ℝ) * 2 ^ k - X| ∧
      (|(q : ℝ) * 2 ^ k - X| = |(z : ℝ) * 2 ^ k - X| → q % 2 = 0) := by
  have hpos : (0 : ℝ) < 2 ^ k := by positivity
  have hone : (1 : ℝ) ≤ |(z : ℝ) - q| := by
    have hint : (1 : ℤ) ≤ |z - q| := Int.one_le_abs (sub_ne_zero.mpr hz)
    exact_mod_cast hint
  have hapart : (2 : ℝ) ^ k ≤ |(z : ℝ) * 2 ^ k - X| + |(q : ℝ) * 2 ^ k - X| := by
    calc (2 : ℝ) ^ k ≤ |(z : ℝ) - q| * 2 ^ k := le_mul_of_one_le_left hpos.le hone
      _ = |((z : ℝ) * 2 ^ k - X) - ((q : ℝ) * 2 ^ k - X)| := by
        rw [sub_sub_sub_cancel_right, ← sub_mul, abs_mul, abs_of_pos hpos]
      _ ≤ _ := abs_sub _ _
  have hnear := h.near
  exact ⟨by linarith, fun heq => h.tie (by linarith)⟩

/-- No finite real is nearer to `X` than `q` last places, and another one equally near means a tie. -/
theorem no_nearer (h : NearestPlaces X k q) {c : F32} (hc : c.isFinite = true) :
    |(q : ℝ) * 2 ^ k - X| ≤ |(c.units : ℝ) - X| ∧
      (|(q : ℝ) * 2 ^ k - X| = |(c.units : ℝ) - X| → (q : ℝ) * 2 ^ k ≠ c.units → q % 2 = 0) := by
  rcases units_multiple_or_lt hc ⌊X⌋₊ with ⟨z, hz⟩ | ⟨hlt, hlead⟩
  · rw [← h.place] at hz
    rw [hz]
    push_cast
    by_cases hzq : z = q
    · subst hzq
      exact ⟨le_rfl, fun _ hne => absurd rfl hne⟩
    · obtain ⟨hle, htie⟩ := h.multiple_no_nearer hzq
      exact ⟨hle, fun heq _ => htie heq⟩
  · rw [← h.place] at hlt hlead
    have hlt' : (c.units : ℝ) < 2 ^ 23 * 2 ^ k := by exact_mod_cast hlt
    have hlead' : (2 ^ 23 : ℝ) * 2 ^ k ≤ X := by exact_mod_cast (Nat.le_floor_iff h.nonneg).mp hlead
    have hgap : |(2 ^ 23 : ℝ) * 2 ^ k - X| < |(c.units : ℝ) - X| := by
      rw [abs_of_nonpos (by linarith), abs_of_neg (by linarith)]
      linarith
    have hbound : |(q : ℝ) * 2 ^ k - X| ≤ |(2 ^ 23 : ℝ) * 2 ^ k - X| := by
      by_cases hq : ((2 ^ 23 : ℕ) : ℤ) = q
      · have hq' : (q : ℝ) = 2 ^ 23 := by exact_mod_cast hq.symm
        rw [hq']
      · exact_mod_cast (h.multiple_no_nearer hq).1
    exact ⟨by linarith, fun heq => by linarith⟩

/-- The rounded magnitude reaches the limit of the format from half a place above the largest finite number on: the
largest significand is odd, so the tie goes up (R82). -/
theorem overflow_iff (h : NearestPlaces X k q) : unitLimit ≤ q * 2 ^ k ↔ (2 ^ 25 - 1) * 2 ^ 252 ≤ X := by
  have hlimit : unitLimit = 2 ^ 24 * 2 ^ 253 := rfl
  have htop := h.lt_top
  have hq := h.significand_le
  obtain ⟨hup, hdown⟩ := abs_le.mp h.near
  rcases lt_trichotomy k 253 with hk | rfl | hk
  · have hpow : (2 : ℝ) ^ k ≤ 2 ^ 252 := pow_le_pow_right₀ (by norm_num) (by omega)
    have hpow' : 2 ^ k ≤ 2 ^ 252 := Nat.pow_le_pow_right (by decide) (by omega)
    have hlow : q * 2 ^ k ≤ 2 ^ 24 * 2 ^ 252 := Nat.mul_le_mul hq hpow'
    exact ⟨fun hlim => by omega, fun hlim => by linarith⟩
  · constructor
    · intro hlim
      have hq' : (2 ^ 24 : ℝ) ≤ q := by exact_mod_cast (by omega : 2 ^ 24 ≤ q)
      linarith
    · intro hlim
      rcases hq.eq_or_lt with rfl | hlt
      · rfl
      have hle : (q : ℝ) + 1 ≤ 2 ^ 24 := by exact_mod_cast hlt
      have hge : (2 ^ 24 : ℝ) ≤ q + 1 := by linarith
      have hodd : q + 1 = 2 ^ 24 := by exact_mod_cast le_antisymm hle hge
      have heven := h.tie (by rw [abs_of_nonpos (by linarith)]; linarith)
      omega
  · have hpow : (2 : ℝ) ^ 254 ≤ 2 ^ k := pow_le_pow_right₀ (by norm_num) (by omega)
    have hpow' : 2 ^ 254 ≤ 2 ^ k := Nat.pow_le_pow_right (by decide) (by omega)
    have hhigh : 2 ^ 23 * 2 ^ 254 ≤ q * 2 ^ k := Nat.mul_le_mul (h.le_significand (by omega)) hpow'
    have hlead := h.lead_le (by omega)
    exact ⟨fun _ => by linarith, fun _ => by omega⟩

/-- Packing the nearest number of last places rounds the magnitude (R82). -/
theorem roundsTo (h : NearestPlaces X k q) : Reference.RoundsTo (X / 2 ^ 149) (F32.pack false q k) := by
  have hscale (u : ℝ) : |u / 2 ^ 149 - X / 2 ^ 149| = |u - X| / 2 ^ 149 := by
    rw [← sub_div, abs_div, abs_of_pos (by positivity : (0 : ℝ) < 2 ^ 149)]
  have hbound : |X / 2 ^ 149| < 2 ^ 128 - 2 ^ 103 ↔ ¬unitLimit ≤ q * 2 ^ k := by
    rw [h.overflow_iff, not_le, abs_of_nonneg (div_nonneg h.nonneg (by positivity)), div_lt_iff₀ (by positivity)]
    norm_num
  unfold Reference.RoundsTo
  rcases F32.pack_cases false h.significand_le (fun hq => of_not_not fun hk => by have := h.le_significand hk; omega)
    with ⟨e, f, hpack, hmag⟩ | ⟨hpack, hlim⟩
  · have hfin : (F32.pack false q k).isFinite = true := by rw [hpack]; rfl
    have hvalue : ((Reference.value (F32.pack false q k) : ℚ) : ℝ) = q * 2 ^ k / 2 ^ 149 := by
      rw [value_eq_units hfin, hpack, units_fin, hmag]
      simp [signed]
    rw [if_pos (hbound.mpr (by rw [← hmag]; exact not_le.mpr (F32.mag_lt e f)))]
    refine ⟨hfin, fun c hc => ?_⟩
    have hvalue' : ((Reference.value c : ℚ) : ℝ) = c.units / 2 ^ 149 := by
      rw [value_eq_units hc]
      push_cast
      rfl
    obtain ⟨hle, htie⟩ := h.no_nearer hc
    rw [hvalue, hvalue', hscale, hscale, div_le_div_iff_of_pos_right (by positivity), div_left_inj' (by positivity)]
    refine ⟨hle, fun heq hne => even_pack hfin (htie heq fun hsame => hne ?_)⟩
    have hreal : ((Reference.value (F32.pack false q k) : ℚ) : ℝ) = (Reference.value c : ℚ) := by
      rw [hvalue, hvalue', hsame]
    exact_mod_cast hreal
  · rw [if_neg (mt hbound.mp (not_not.mpr hlim))]
    have hX : 0 ≤ X / 2 ^ 149 := div_nonneg h.nonneg (by positivity)
    exact ⟨fun _ => hpack, fun hneg => absurd hX (not_le.mpr hneg)⟩

end NearestPlaces

/-- A rounded quotient half a unit from the exact one is even. -/
theorem nearestEven_even_of_half {n u : ℕ} (hu : 0 < u)
    (h : 2 * (u * nearestEven n u) = 2 * n + u ∨ 2 * n = 2 * (u * nearestEven n u) + u) : nearestEven n u % 2 = 0 := by
  refine nearestEven_tie n u ?_
  have hdiv := Nat.div_add_mod n u
  have hmod := Nat.mod_lt n hu
  unfold nearestEven at h
  dsimp only at h
  split_ifs at h
  · omega
  · rw [Nat.mul_add] at h
    omega
  · omega

/-- The rounded quotient is the nearest number of last places of the fraction. -/
theorem nearestPlaces_nearestEven (n : ℕ) {d : ℕ} (hd : 0 < d) :
    NearestPlaces (n / d) (lastPlace n d) (nearestEven n (d * 2 ^ lastPlace n d)) := by
  have hd' : (0 : ℝ) < d := by exact_mod_cast hd
  have hplace : lastPlace n d = lastPlace ⌊(n / d : ℝ)⌋₊ 1 := by
    rw [Nat.floor_div_eq_div]
    simp [lastPlace]
  generalize lastPlace n d = k at hplace ⊢
  have hunit : 0 < d * 2 ^ k := Nat.mul_pos hd (Nat.two_pow_pos k)
  have hscale (u : ℝ) : |u * 2 ^ k - n / d| = |d * 2 ^ k * u - n| / d := by
    rw [← abs_of_pos hd', ← abs_div, abs_of_pos hd']
    congr 1
    field_simp
  obtain ⟨hup, hdown⟩ := nearestEven_near n _ hunit
  have htie := nearestEven_even_of_half (n := n) hunit
  refine ⟨by positivity, hplace, ?_, fun hhalf => htie ?_⟩
  · have hup' : (2 * (d * 2 ^ k * nearestEven n (d * 2 ^ k)) : ℝ) ≤ 2 * n + d * 2 ^ k := by exact_mod_cast hup
    have hdown' : (2 * n : ℝ) ≤ 2 * (d * 2 ^ k * nearestEven n (d * 2 ^ k)) + d * 2 ^ k := by exact_mod_cast hdown
    rw [hscale, div_le_iff₀ hd', abs_le]
    constructor <;> linarith
  · rw [hscale, div_eq_iff hd'.ne'] at hhalf
    rcases abs_cases (d * 2 ^ k * nearestEven n (d * 2 ^ k) - n : ℝ) with ⟨habs, -⟩ | ⟨habs, -⟩
    · left
      have hreal : (2 * (d * 2 ^ k * nearestEven n (d * 2 ^ k)) : ℝ) = 2 * n + d * 2 ^ k := by linarith
      exact_mod_cast hreal
    · right
      have hreal : (2 * n : ℝ) = 2 * (d * 2 ^ k * nearestEven n (d * 2 ^ k)) + d * 2 ^ k := by linarith
      exact_mod_cast hreal

/-! ### The sign, and the rounding of a fraction -/

@[simp] theorem F32.neg_neg_eq (a : F32) : a.neg.neg = a := by
  cases a <;> simp [F32.neg]

theorem value_neg (a : F32) : Reference.value a.neg = -Reference.value a := by
  cases a with
  | nan => simp [F32.neg, Reference.value]
  | inf neg => simp [F32.neg, Reference.value]
  | fin neg e f =>
    cases neg <;> simp only [F32.neg, Reference.value, Bool.not_false, Bool.not_true, Bool.false_eq_true, if_true,
      if_false, neg_mul, one_mul, neg_neg]

theorem even_neg (a : F32) : Reference.even a.neg = Reference.even a := by cases a <;> rfl

/-- Rounding to nearest is symmetric. -/
theorem roundsTo_neg {x : ℝ} {r : F32} (h : Reference.RoundsTo x r) : Reference.RoundsTo (-x) r.neg := by
  unfold Reference.RoundsTo at h ⊢
  rw [abs_neg]
  by_cases hlt : |x| < 2 ^ 128 - 2 ^ 103
  · rw [if_pos hlt] at h ⊢
    obtain ⟨hfin, hnear⟩ := h
    refine ⟨by simpa using hfin, fun c hc => ?_⟩
    have hflip (y : F32) : |((Reference.value y.neg : ℚ) : ℝ) - -x| = |((Reference.value y : ℚ) : ℝ) - x| := by
      rw [value_neg, Rat.cast_neg, ← neg_sub', abs_neg]
    obtain ⟨hle, htie⟩ := hnear c.neg (by simpa using hc)
    rw [← hflip c.neg, F32.neg_neg_eq] at hle htie
    rw [hflip, even_neg]
    exact ⟨hle, fun heq hne => htie heq fun hsame => hne (by rw [value_neg, hsame, value_neg, neg_neg])⟩
  · rw [if_neg hlt] at h ⊢
    obtain ⟨hpos, hneg⟩ := h
    refine ⟨fun hx => ?_, fun hx => ?_⟩
    · rw [hneg (by linarith)]
      rfl
    · rw [hpos (by linarith)]
      rfl

theorem pack_true (m k : ℕ) : F32.pack true m k = (F32.pack false m k).neg := by
  unfold F32.pack
  dsimp only
  split_ifs <;> rfl

/-- `-X` where the sign says so. -/
def signedReal (neg : Bool) (X : ℝ) : ℝ := if neg then -X else X

theorem cast_signed_div (neg : Bool) (n : ℕ) (c : ℝ) : ((signed neg n : ℤ) : ℝ) / c = signedReal neg (n / c) := by
  cases neg <;> simp [signed, signedReal, neg_div]

/-- Packing the nearest number of last places, with a sign, rounds the number of that sign. -/
theorem NearestPlaces.roundsTo_signed {X : ℝ} {k q : ℕ} (h : NearestPlaces X k q) (neg : Bool) :
    Reference.RoundsTo (signedReal neg (X / 2 ^ 149)) (F32.pack neg q k) := by
  cases neg with
  | false => exact h.roundsTo
  | true =>
    rw [pack_true]
    exact roundsTo_neg h.roundsTo

/-- `round` rounds the fraction of its two arguments (R82). -/
theorem roundsTo_round (neg : Bool) (n : ℕ) {d : ℕ} (hd : 0 < d) :
    Reference.RoundsTo (signedReal neg (n / d / 2 ^ 149)) (F32.round neg n d) :=
  (nearestPlaces_nearestEven n hd).roundsTo_signed neg

/-- Rounding a whole number of units with its sign. -/
theorem roundsTo_round_int (z : ℤ) :
    Reference.RoundsTo (z / 2 ^ 149) (F32.round (decide (z < 0)) z.natAbs 1) := by
  have h := roundsTo_round (decide (z < 0)) z.natAbs one_pos
  rw [Nat.cast_one, div_one, ← cast_signed_div] at h
  have hz : signed (decide (z < 0)) z.natAbs = z := by
    unfold signed
    split_ifs with hneg <;> rw [decide_eq_true_iff] at hneg <;> omega
  rwa [hz] at h

/-- Zero of either sign is zero rounded. -/
theorem roundsTo_zero (neg : Bool) : Reference.RoundsTo 0 (.fin neg 0 0) := by
  have h := roundsTo_round neg 0 one_pos
  have hzero : signedReal neg ((0 : ℕ) / (1 : ℕ) / 2 ^ 149) = 0 := by cases neg <;> simp [signedReal]
  rw [hzero] at h
  exact h

/-! ### The square root -/

/-- Where the middle between the whole numbers `r` and `r + 1` lies within half a place of `q` places of at least two units,
both whole numbers do: the middle itself is never half a place away. -/
theorem whole_within_half {r q j : ℕ} (h : |(q : ℝ) * 2 ^ (j + 1) - (2 * r + 1 : ℕ) / (2 : ℕ)| ≤ 2 ^ (j + 1) / 2) :
    (r + 1 : ℝ) ≤ q * 2 ^ (j + 1) + 2 ^ (j + 1) / 2 ∧ (q : ℝ) * 2 ^ (j + 1) ≤ r + 2 ^ (j + 1) / 2 := by
  obtain ⟨hup, hdown⟩ := abs_le.mp h
  push_cast at hup hdown
  rw [pow_succ] at hup hdown ⊢
  have hupNat : 2 * r + 1 ≤ 2 * (q * (2 ^ j * 2)) + 2 ^ j * 2 := by
    have hreal : (2 * r + 1 : ℝ) ≤ 2 * (q * (2 ^ j * 2)) + 2 ^ j * 2 := by linarith
    exact_mod_cast hreal
  have hdownNat : 2 * (q * (2 ^ j * 2)) ≤ 2 * r + 1 + 2 ^ j * 2 := by
    have hreal : (2 * (q * (2 ^ j * 2)) : ℝ) ≤ 2 * r + 1 + 2 ^ j * 2 := by linarith
    exact_mod_cast hreal
  rw [mul_div_cancel_right₀ _ (two_ne_zero' ℝ)]
  constructor
  · exact_mod_cast (by omega : r + 1 ≤ q * (2 ^ j * 2) + 2 ^ j)
  · exact_mod_cast (by omega : q * (2 ^ j * 2) ≤ r + 2 ^ j)

/-- The number `F32.sqrt` rounds, over 2, is the exact root where that is whole. Otherwise it is half way between the two
whole numbers around the root, which no tie between numbers of at least two units tells from the root. -/
theorem nearestPlaces_sqrt {n k q : ℕ} (hk : k ≠ 0)
    (h : NearestPlaces ((2 * isqrt n + if isqrt n * isqrt n = n then 0 else 1 : ℕ) / (2 : ℕ)) k q) :
    NearestPlaces (√(n : ℝ)) k q := by
  obtain ⟨hle, hlt⟩ := isqrt_spec n
  generalize isqrt n = r at h hle hlt
  by_cases hexact : r * r = n
  · have hroot : √(n : ℝ) = (2 * r + 0 : ℕ) / (2 : ℕ) := by
      rw [← hexact, Nat.cast_mul, Real.sqrt_mul_self r.cast_nonneg]
      push_cast
      ring
    rwa [if_pos hexact, ← hroot] at h
  rw [if_neg hexact] at h
  have hlow : (r : ℝ) < √(n : ℝ) := by
    rw [Real.lt_sqrt r.cast_nonneg, sq]
    exact_mod_cast lt_of_le_of_ne hle hexact
  have hhigh : √(n : ℝ) < r + 1 := by
    rw [Real.sqrt_lt' (by positivity), sq]
    exact_mod_cast hlt
  obtain ⟨-, hplace, hnear, -⟩ := h
  have hfloor : ⌊√(n : ℝ)⌋₊ = r := (Nat.floor_eq_iff (Real.sqrt_nonneg _)).mpr ⟨hlow.le, hhigh⟩
  have hhalf : (2 * r + 1) / 2 = r := by omega
  rw [Nat.floor_div_eq_div, hhalf, ← hfloor] at hplace
  obtain ⟨j, rfl⟩ := Nat.exists_eq_succ_of_ne_zero hk
  obtain ⟨hup, hdown⟩ := whole_within_half hnear
  have hstrict : |(q : ℝ) * 2 ^ (j + 1) - √(n : ℝ)| < 2 ^ (j + 1) / 2 := by
    rw [abs_lt]
    constructor <;> linarith
  exact ⟨Real.sqrt_nonneg _, hplace, hstrict.le, fun htie => absurd htie hstrict.ne⟩

/-- The last place kept of the root of a finite number lies above the unit: the root of its smallest magnitude is beyond
2^74 units. -/
theorem lastPlace_sqrt_pos {m : ℕ} (hm : m ≠ 0) (b : ℕ) :
    lastPlace (2 * isqrt (m * 2 ^ 149) + b) 2 ≠ 0 := by
  obtain ⟨-, hlt⟩ := isqrt_spec (m * 2 ^ 149)
  have hbig : 2 ^ 74 ≤ isqrt (m * 2 ^ 149) := by
    by_contra hsmall
    have hsq : (isqrt (m * 2 ^ 149) + 1) * (isqrt (m * 2 ^ 149) + 1) ≤ 2 ^ 74 * 2 ^ 74 :=
      Nat.mul_le_mul (by omega) (by omega)
    omega
  have hlog : 74 ≤ ((2 * isqrt (m * 2 ^ 149) + b) / 2).log2 :=
    (Nat.le_log2 (by omega)).mpr (by omega)
  unfold lastPlace
  omega

/-! ### The five operations on finite reals -/

theorem F32.exists_fin {a : F32} (h : a.isFinite = true) : ∃ neg e f, a = .fin neg e f := by
  cases a with
  | nan => cases h
  | inf => cases h
  | fin neg e f => exact ⟨neg, e, f, rfl⟩

/-- The value of a finite real as a real number, in units. -/
theorem cast_value {a : F32} (h : a.isFinite = true) : ((Reference.value a : ℚ) : ℝ) = a.units / 2 ^ 149 := by
  rw [value_eq_units h]
  push_cast
  rfl

/-- A finite magnitude of zero is that of the two zeros (R80). -/
theorem F32.mag_eq_zero_iff {e : Fin 255} {f : BitVec 23} : F32.mag e f = 0 ↔ e = 0 ∧ f = 0 := by
  unfold F32.mag
  by_cases he : e = 0
  · simpa [he] using (BitVec.toNat_inj (y := 0#23)).trans Iff.rfl
  · have hval : e.val ≠ 0 := fun h => he (Fin.ext h)
    simp [he]

theorem roundsTo_add {a b : F32} (ha : a.isFinite = true) (hb : b.isFinite = true) :
    Reference.RoundsTo ((Reference.value a : ℚ) + (Reference.value b : ℚ)) (a.add b) := by
  rw [cast_value ha, cast_value hb, ← add_div, ← Int.cast_add]
  obtain ⟨s, e, f, rfl⟩ := F32.exists_fin ha
  obtain ⟨t, e', f', rfl⟩ := F32.exists_fin hb
  simp only [F32.add, units_fin]
  split_ifs with hz
  · rw [hz, Int.cast_zero, zero_div]
    exact roundsTo_zero _
  · exact roundsTo_round_int _

theorem roundsTo_sub {a b : F32} (ha : a.isFinite = true) (hb : b.isFinite = true) :
    Reference.RoundsTo ((Reference.value a : ℚ) - (Reference.value b : ℚ)) (a.sub b) := by
  have h := roundsTo_add ha (by simpa using hb : b.neg.isFinite = true)
  rwa [value_neg, Rat.cast_neg, ← sub_eq_add_neg] at h

/-- A product of two signed magnitudes has the product of the signs. -/
theorem signedReal_mul (s t : Bool) (X Y : ℝ) : signedReal s X * signedReal t Y = signedReal (s != t) (X * Y) := by
  cases s <;> cases t <;> simp [signedReal]

theorem signedReal_div (s t : Bool) (X Y : ℝ) : signedReal s X / signedReal t Y = signedReal (s != t) (X / Y) := by
  cases s <;> cases t <;> simp [signedReal, neg_div, div_neg]

theorem cast_value_fin (s : Bool) (e : Fin 255) (f : BitVec 23) :
    ((Reference.value (.fin s e f) : ℚ) : ℝ) = signedReal s (F32.mag e f / 2 ^ 149) := by
  rw [cast_value rfl, units_fin, cast_signed_div]

theorem roundsTo_mul {a b : F32} (ha : a.isFinite = true) (hb : b.isFinite = true) :
    Reference.RoundsTo ((Reference.value a : ℚ) * (Reference.value b : ℚ)) (a.mul b) := by
  obtain ⟨s, e, f, rfl⟩ := F32.exists_fin ha
  obtain ⟨t, e', f', rfl⟩ := F32.exists_fin hb
  have h := roundsTo_round (s != t) (F32.mag e f * F32.mag e' f') (Nat.two_pow_pos 149)
  have hval : (F32.mag e f / 2 ^ 149 * (F32.mag e' f' / 2 ^ 149) : ℝ) =
      (F32.mag e f * F32.mag e' f' : ℕ) / (2 ^ 149 : ℕ) / 2 ^ 149 := by
    push_cast
    ring
  rw [cast_value_fin, cast_value_fin, signedReal_mul, hval]
  exact h

theorem roundsTo_div {a b : F32} (ha : a.isFinite = true) (hb : b.isFinite = true)
    (hzero : ((Reference.value b : ℚ) : ℝ) ≠ 0) :
    Reference.RoundsTo ((Reference.value a : ℚ) / (Reference.value b : ℚ)) (a.div b) := by
  obtain ⟨s, e, f, rfl⟩ := F32.exists_fin ha
  obtain ⟨t, e', f', rfl⟩ := F32.exists_fin hb
  have hmag : F32.mag e' f' ≠ 0 := by
    intro hm
    refine hzero ?_
    rw [cast_value_fin, hm]
    cases t <;> simp [signedReal]
  have h := roundsTo_round (s != t) (F32.mag e f * 2 ^ 149) (Nat.pos_of_ne_zero hmag)
  have hval : (F32.mag e f / 2 ^ 149 / (F32.mag e' f' / 2 ^ 149) : ℝ) =
      (F32.mag e f * 2 ^ 149 : ℕ) / (F32.mag e' f' : ℕ) / 2 ^ 149 := by
    have hreal : (F32.mag e' f' : ℝ) ≠ 0 := by exact_mod_cast hmag
    push_cast
    field_simp
    norm_num
  rw [cast_value_fin, cast_value_fin, signedReal_div, hval]
  simp only [F32.div, if_neg hmag]
  exact h

theorem roundsTo_sqrt {a : F32} (ha : a.isFinite = true) (hnonneg : 0 ≤ ((Reference.value a : ℚ) : ℝ)) :
    Reference.RoundsTo (√((Reference.value a : ℚ) : ℝ)) a.sqrt := by
  obtain ⟨s, e, f, rfl⟩ := F32.exists_fin ha
  rw [cast_value_fin] at hnonneg ⊢
  by_cases hmag : F32.mag e f = 0
  · obtain ⟨rfl, rfl⟩ := F32.mag_eq_zero_iff.mp hmag
    have hzero : √(signedReal s (F32.mag 0 0 / 2 ^ 149)) = 0 := by rw [hmag]; cases s <;> simp [signedReal]
    rw [hzero]
    exact roundsTo_zero s
  have hpos : (0 : ℝ) < F32.mag e f := by exact_mod_cast Nat.pos_of_ne_zero hmag
  cases s with
  | true =>
    have hneg : signedReal true (F32.mag e f / 2 ^ 149) < 0 := neg_neg_of_pos (by positivity)
    exact absurd hnonneg (not_le.mpr hneg)
  | false =>
    have hroot : √(signedReal false (F32.mag e f / 2 ^ 149)) = √((F32.mag e f * 2 ^ 149 : ℕ) : ℝ) / 2 ^ 149 := by
      have hsquare : signedReal false (F32.mag e f / 2 ^ 149) = ((F32.mag e f * 2 ^ 149 : ℕ) : ℝ) / (2 ^ 149) ^ 2 := by
        simp only [signedReal, Bool.false_eq_true, if_false]
        push_cast
        field_simp
        norm_num
      rw [hsquare, Real.sqrt_div' _ (by positivity), Real.sqrt_sq (by positivity)]
    rw [hroot]
    simp only [F32.sqrt, if_neg hmag, Bool.false_eq_true, if_false]
    exact (nearestPlaces_sqrt (lastPlace_sqrt_pos hmag _) (nearestPlaces_nearestEven _ two_pos)).roundsTo

end Sys2Proof
end

