-- ==== Sys2Proof/Proofs/Patterns.lean ====
section
/-! Proofs/Patterns.lean: the patterns of the reals (spec/40_numerics.md R80, R81, spec/30_encoding.md R64) by their three
fields: sign, exponent and fraction. -/

namespace Sys2Proof

/-! ### The real of three fields -/

/-- The real whose pattern has these fields (R80, R81). -/
def F32.ofFields (s : Bool) (e : ℕ) (f : BitVec 23) : F32 :=
  if h : e < 255 then .fin s ⟨e, h⟩ f else if f = 0 then .inf s else .nan

theorem ofBits_eq_ofFields (w : Word) :
    F32.ofBits w = F32.ofFields (w.getLsbD 31) (w.extractLsb' 23 8).toNat (w.extractLsb' 0 23) := rfl

theorem neg_ofFields (s : Bool) (e : ℕ) (f : BitVec 23) : (F32.ofFields s e f).neg = F32.ofFields (!s) e f := by
  unfold F32.ofFields
  split_ifs <;> rfl

theorem abs_ofFields (s : Bool) (e : ℕ) (f : BitVec 23) : (F32.ofFields s e f).abs = F32.ofFields false e f := by
  unfold F32.ofFields
  split_ifs <;> rfl

theorem ofFields_eq_nan_iff {s : Bool} {e : ℕ} {f : BitVec 23} :
    F32.ofFields s e f = .nan ↔ 255 ≤ e ∧ f ≠ 0 := by
  unfold F32.ofFields
  split_ifs with he hf
  · exact iff_of_false nofun fun ⟨htop, _⟩ => absurd he (not_lt.mpr htop)
  · exact iff_of_false nofun fun ⟨_, hne⟩ => hne hf
  · exact iff_of_true rfl ⟨not_lt.mp he, hf⟩

/-- The pattern of a real that is no NaN has the fields of the real (R81). -/
theorem bits_ofFields {s : Bool} {e : ℕ} {f : BitVec 23} (n : ℕ) (he : e < 256) (h : F32.ofFields s e f ≠ .nan) :
    (F32.ofFields s e f).bits n = packBits s e f := by
  unfold F32.ofFields at h ⊢
  split_ifs at h ⊢ with hfin hinf
  · rfl
  · have htop : e = 255 := by omega
    rw [htop, hinf]
    rfl
  · exact absurd rfl h

/-! ### The fields of a pattern put together -/

@[simp] theorem packBits_sign (s : Bool) (e : ℕ) (f : BitVec 23) : (packBits s e f).getLsbD 31 = s := by
  rw [packBits, BitVec.getLsbD_append, if_neg (by decide), BitVec.getLsbD_append, if_neg (by decide)]
  cases s <;> rfl

@[simp] theorem packBits_exponent (s : Bool) (e : ℕ) (f : BitVec 23) :
    (packBits s e f).extractLsb' 23 8 = BitVec.ofNat 8 e := by
  rw [packBits, BitVec.extractLsb'_append_eq_of_le (by decide), BitVec.extractLsb'_append_eq_right]

@[simp] theorem packBits_fraction (s : Bool) (e : ℕ) (f : BitVec 23) : (packBits s e f).extractLsb' 0 23 = f := by
  rw [packBits, BitVec.extractLsb'_append_eq_right]

/-- A pattern is its three fields put together (R80). -/
theorem packBits_fields (w : Word) :
    packBits (w.getLsbD 31) (w.extractLsb' 23 8).toNat (w.extractLsb' 0 23) = w := by
  have hsign : BitVec.ofBool (w.getLsbD 31) = w.extractLsb' 31 1 := by
    ext i hi
    obtain rfl : i = 0 := by omega
    simp
  rw [packBits, BitVec.ofNat_toNat, BitVec.setWidth_eq, hsign,
    BitVec.extractLsb'_append_extractLsb'_eq_extractLsb' (by decide),
    BitVec.extractLsb'_append_extractLsb'_eq_extractLsb' (by decide), BitVec.extractLsb'_eq_self]

theorem ofBits_packBits (s : Bool) {e : ℕ} (he : e < 256) (f : BitVec 23) :
    F32.ofBits (packBits s e f) = F32.ofFields s e f := by
  rw [ofBits_eq_ofFields, packBits_sign, packBits_exponent, packBits_fraction, BitVec.toNat_ofNat,
    Nat.mod_eq_of_lt he]

/-! ### The fields under the sign masks (R84) -/

/-- `-a` flips the sign bit of the pattern. -/
theorem neg_ofBits (w : Word) : (F32.ofBits w).neg = F32.ofBits (w ^^^ 0x80000000) := by
  have hexp : (0x80000000 : Word).extractLsb' 23 8 = 0#8 := by decide
  have hfrac : (0x80000000 : Word).extractLsb' 0 23 = 0#23 := by decide
  have hsign : (0x80000000 : Word).getLsbD 31 = true := by decide
  rw [ofBits_eq_ofFields, ofBits_eq_ofFields, neg_ofFields, BitVec.getLsbD_xor, BitVec.extractLsb'_xor,
    BitVec.extractLsb'_xor, hexp, hfrac, hsign, Bool.xor_true, BitVec.xor_zero, BitVec.xor_zero]

/-- `abs(a)` clears the sign bit of the pattern. -/
theorem abs_ofBits (w : Word) : (F32.ofBits w).abs = F32.ofBits (w &&& 0x7FFFFFFF) := by
  have hexp : (0x7FFFFFFF : Word).extractLsb' 23 8 = BitVec.allOnes 8 := by decide
  have hfrac : (0x7FFFFFFF : Word).extractLsb' 0 23 = BitVec.allOnes 23 := by decide
  have hsign : (0x7FFFFFFF : Word).getLsbD 31 = false := by decide
  rw [ofBits_eq_ofFields, ofBits_eq_ofFields, abs_ofFields, BitVec.getLsbD_and, BitVec.extractLsb'_and,
    BitVec.extractLsb'_and, hexp, hfrac, hsign, Bool.and_false, BitVec.and_allOnes, BitVec.and_allOnes]

/-! ### The patterns that leave the block (R64) -/

/-- The free pattern of a NaN has the quiet bit. -/
theorem nanPattern_quiet (n : ℕ) : (nanPattern n).getLsbD 22 = true := by
  have hbit : (0x7FC00000 : Word).getLsbD 22 = true := by decide
  rw [nanPattern, BitVec.getLsbD_or, hbit, Bool.or_true]

theorem ofBits_nanPattern (n : ℕ) : F32.ofBits (nanPattern n) = .nan := by
  rw [ofBits_eq_ofFields, ofFields_eq_nan_iff]
  constructor
  · have hexp : (0x7FC00000 : Word).extractLsb' 23 8 = BitVec.allOnes 8 := by decide
    rw [nanPattern, BitVec.extractLsb'_or, hexp, BitVec.or_allOnes]
    decide
  · intro hzero
    have hquiet : ((nanPattern n).extractLsb' 0 23).getLsbD 22 = true := by
      rw [BitVec.getLsbD_extractLsb']
      simpa using nanPattern_quiet n
    rw [hzero] at hquiet
    cases hquiet

/-- The pattern of a real reads back as the real (R81). -/
theorem ofBits_bits (n : ℕ) (v : F32) : F32.ofBits (v.bits n) = v := by
  cases v with
  | nan => exact ofBits_nanPattern n
  | inf s => exact ofBits_packBits s (by decide) 0
  | fin s e f =>
    have he := e.isLt
    rw [F32.bits, ofBits_packBits s (by omega), F32.ofFields, dif_pos he]

/-- The real of a pattern has that pattern, a NaN aside (R81). -/
theorem bits_ofBits (n : ℕ) {w : Word} (h : F32.ofBits w ≠ .nan) : (F32.ofBits w).bits n = w := by
  rw [ofBits_eq_ofFields] at h ⊢
  rw [bits_ofFields n (BitVec.isLt _) h, packBits_fields]

/-- The NaN patterns, by the number of the word (R80). -/
theorem ofBits_eq_nan_iff (w : Word) :
    F32.ofBits w = .nan ↔ w.toNat / 2 ^ 23 % 256 = 255 ∧ w.toNat % 2 ^ 23 ≠ 0 := by
  have hexp : (w.extractLsb' 23 8).toNat = w.toNat / 2 ^ 23 % 256 := by
    rw [BitVec.extractLsb'_toNat, Nat.shiftRight_eq_div_pow]
  have hfrac : w.extractLsb' 0 23 = 0 ↔ w.toNat % 2 ^ 23 = 0 := by
    rw [← BitVec.toNat_inj, BitVec.extractLsb'_toNat, Nat.shiftRight_zero]
    rfl
  rw [ofBits_eq_ofFields, ofFields_eq_nan_iff, hexp, ne_eq, hfrac]
  omega

end Sys2Proof
end

