-- ==== Sys2Proof/Proofs/Comparisons.lean ====
section
/-! Proofs/Comparisons.lean: the comparisons and signs of spec/40_numerics.md R83, R84 in units of 2^-149 and by the values
of R80. -/

namespace Sys2Proof

/-! ### The predicates -/

theorem F32.isNan_iff {a : F32} : a.isNan = true ↔ a = .nan := by cases a <;> simp [F32.isNan]

theorem F32.isFinite_iff {a : F32} : a.isFinite = true ↔ a ≠ .nan ∧ ∀ s, a ≠ .inf s := by
  cases a <;> simp [F32.isFinite]

/-! ### Values by their units -/

theorem value_lt_iff {a b : F32} (ha : a.isFinite = true) (hb : b.isFinite = true) :
    Reference.value a < Reference.value b ↔ a.units < b.units := by
  rw [← not_le, value_le_iff hb ha, not_le]

theorem value_eq_iff {a b : F32} (ha : a.isFinite = true) (hb : b.isFinite = true) :
    Reference.value a = Reference.value b ↔ a.units = b.units := by
  rw [le_antisymm_iff, value_le_iff ha hb, value_le_iff hb ha, ← le_antisymm_iff]

theorem value_zero : Reference.value .zero = 0 := by simp [Reference.value, F32.zero]

theorem units_zero : F32.zero.units = 0 := rfl

theorem value_pos_iff {a : F32} (ha : a.isFinite = true) : 0 < Reference.value a ↔ 0 < a.units := by
  rw [← value_zero, value_lt_iff rfl ha, units_zero]

theorem value_neg_iff {a : F32} (ha : a.isFinite = true) : Reference.value a < 0 ↔ a.units < 0 := by
  rw [← value_zero, value_lt_iff ha rfl, units_zero]

theorem value_zero_iff {a : F32} (ha : a.isFinite = true) : Reference.value a = 0 ↔ a.units = 0 := by
  rw [← value_zero, value_eq_iff ha rfl, units_zero]

/-! ### Comparisons of operands that are no NaN -/

/-- Between two reals that are no NaN, `==` (R83) is equality of the units. -/
theorem F32.eq_iff_units {a b : F32} (ha : a.isNan = false) (hb : b.isNan = false) :
    a.eq b = true ↔ a.units = b.units := by
  simp [F32.eq, ordered, ha, hb]

theorem F32.lt_iff_value {a b : F32} (ha : a.isFinite = true) (hb : b.isFinite = true) :
    a.lt b = true ↔ Reference.value a < Reference.value b := by
  rw [F32.lt_iff_units (F32.isNan_of_isFinite ha) (F32.isNan_of_isFinite hb), value_lt_iff ha hb]

theorem F32.le_iff_value {a b : F32} (ha : a.isFinite = true) (hb : b.isFinite = true) :
    a.le b = true ↔ Reference.value a ≤ Reference.value b := by
  rw [F32.le_iff_units (F32.isNan_of_isFinite ha) (F32.isNan_of_isFinite hb), value_le_iff ha hb]

theorem F32.eq_iff_value {a b : F32} (ha : a.isFinite = true) (hb : b.isFinite = true) :
    a.eq b = true ↔ Reference.value a = Reference.value b := by
  rw [F32.eq_iff_units (F32.isNan_of_isFinite ha) (F32.isNan_of_isFinite hb), value_eq_iff ha hb]

theorem F32.ne_iff_value {a b : F32} (ha : a.isFinite = true) (hb : b.isFinite = true) :
    a.ne b = true ↔ Reference.value a ≠ Reference.value b := by
  rw [F32.ne, Bool.not_eq_true', ← Bool.not_eq_true, F32.eq_iff_value ha hb]

/-- Every comparison of two reals of which the first stands below the second (R83). -/
theorem compare_of_units_lt {a b : F32} (ha : a.isNan = false) (hb : b.isNan = false) (h : a.units < b.units) :
    (a.lt b = true ∧ a.le b = true ∧ a.gt b = false ∧ a.ge b = false ∧ a.eq b = false ∧ a.ne b = true) ∧
      b.lt a = false ∧ b.le a = false ∧ b.gt a = true ∧ b.ge a = true ∧ b.eq a = false ∧ b.ne a = true := by
  simp [F32.gt, F32.ge, F32.ne, F32.lt, F32.le, F32.eq, ordered, ha, hb, h, h.le, h.not_gt, h.ne, h.ne']

/-- Every comparison of a real that is no NaN with itself (R83). -/
theorem compare_self {a : F32} (ha : a.isNan = false) :
    a.lt a = false ∧ a.le a = true ∧ a.gt a = false ∧ a.ge a = true ∧ a.eq a = true ∧ a.ne a = false := by
  simp [F32.gt, F32.ge, F32.ne, F32.lt, F32.le, F32.eq, ordered, ha]

/-! ### NaN -/

theorem ordered_nan_right (a : F32) : ordered a .nan = false := by simp [ordered, F32.isNan]

/-- Comparisons with a NaN: all false, and `!=` true (R83). -/
theorem compare_of_not_ordered {a b : F32} (h : ordered a b = false) :
    a.lt b = false ∧ a.le b = false ∧ a.gt b = false ∧ a.ge b = false ∧ a.eq b = false ∧ a.ne b = true := by
  have hswap : ordered b a = false := by rwa [ordered, Bool.and_comm]
  simp [F32.gt, F32.ge, F32.ne, F32.lt, F32.le, F32.eq, h, hswap]

/-! ### Infinities -/

/-- `-Inf` stands below every finite real. -/
theorem units_neg_inf_lt {a : F32} (ha : a.isFinite = true) : (F32.inf true).units < a.units := by
  obtain ⟨n, hn, hlim⟩ := units_inf true
  obtain ⟨hlow, -⟩ := abs_lt.mp (F32.abs_units_lt ha)
  rw [hn]
  simp only [signed, if_true]
  omega

/-- `+Inf` stands above every finite real. -/
theorem lt_units_pos_inf {a : F32} (ha : a.isFinite = true) : a.units < (F32.inf false).units := by
  obtain ⟨n, hn, hlim⟩ := units_inf false
  obtain ⟨-, hhigh⟩ := abs_lt.mp (F32.abs_units_lt ha)
  rw [hn]
  simp only [signed, Bool.false_eq_true, if_false]
  omega

theorem units_neg_inf_lt_pos_inf : (F32.inf true).units < (F32.inf false).units :=
  (units_neg_inf_lt (a := .zero) rfl).trans (lt_units_pos_inf rfl)

/-! ### `abs` and `sgn` (R84) -/

theorem value_abs {a : F32} (ha : a.isFinite = true) : Reference.value a.abs = |Reference.value a| := by
  rw [value_eq_units (by simpa using ha), value_eq_units ha, F32.units_abs, abs_div, Int.cast_abs,
    abs_of_pos (by positivity : (0 : ℚ) < 2 ^ 149)]

theorem F32.lt_eq_true_iff {a b : F32} :
    a.lt b = true ↔ a.isNan = false ∧ b.isNan = false ∧ a.units < b.units := by
  simp [F32.lt, ordered, and_assoc]

theorem F32.sgn_of_gt {a : F32} (h : a.gt .zero = true) : a.sgn = .one := by
  obtain ⟨-, hnan, hpos⟩ := F32.lt_eq_true_iff.mp h
  exact F32.sgn_of_pos hnan hpos

theorem F32.sgn_of_lt {a : F32} (h : a.lt .zero = true) : a.sgn = F32.one.neg := by
  obtain ⟨hnan, -, hneg⟩ := F32.lt_eq_true_iff.mp h
  exact F32.sgn_of_neg hnan hneg

/-- `sgn` of a zero is that zero. -/
theorem F32.sgn_of_units_zero {a : F32} (h : a.units = 0) : a.sgn = a := by
  have hgt : a.gt .zero = false := by simp [F32.gt, F32.lt, h, units_zero]
  have hlt : a.lt .zero = false := by simp [F32.lt, h, units_zero]
  simp [F32.sgn, hgt, hlt]

theorem F32.sgn_of_eq {a : F32} (h : a.eq .zero = true) : a.sgn = a := by
  refine F32.sgn_of_units_zero ?_
  simp only [F32.eq, Bool.and_eq_true, decide_eq_true_eq] at h
  exact h.2

end Sys2Proof
end

