-- ==== Sys2Proof/Proofs/SpecialCases.lean ====
section
/-! Proofs/SpecialCases.lean: the special cases of spec/40_numerics.md R82 by the sign of the operand, and the range of sine
and cosine (R88). -/

namespace Sys2Proof

/-! ### The sign of a number by its units -/

theorem F32.exists_of_units_pos {a : F32} (ha : a.isFinite = true) (h : 0 < a.units) :
    ∃ e f, a = .fin false e f ∧ F32.mag e f ≠ 0 := by
  obtain ⟨s, e, f, rfl⟩ := F32.exists_fin ha
  cases s <;> simp only [units_fin, signed, Bool.false_eq_true, if_true, if_false] at h
  · exact ⟨e, f, rfl, by omega⟩
  · omega

theorem F32.exists_of_units_neg {a : F32} (ha : a.isFinite = true) (h : a.units < 0) :
    ∃ e f, a = .fin true e f ∧ F32.mag e f ≠ 0 := by
  obtain ⟨s, e, f, rfl⟩ := F32.exists_fin ha
  cases s <;> simp only [units_fin, signed, Bool.false_eq_true, if_true, if_false] at h
  · omega
  · exact ⟨e, f, rfl, by omega⟩

/-! ### The special cases -/

theorem F32.sqrt_of_units_neg {a : F32} (ha : a.isFinite = true) (h : a.units < 0) : a.sqrt = .nan := by
  obtain ⟨e, f, rfl, hmag⟩ := F32.exists_of_units_neg ha h
  simp [F32.sqrt, hmag]

theorem F32.mag_zero : F32.mag 0 0 = 0 := F32.mag_eq_zero_iff.mpr ⟨rfl, rfl⟩

theorem F32.div_zero_of_units_pos {a : F32} (ha : a.isFinite = true) (s : Bool) (h : 0 < a.units) :
    a.div (.fin s 0 0) = .inf s := by
  obtain ⟨e, f, rfl, hmag⟩ := F32.exists_of_units_pos ha h
  simp only [F32.div, F32.mag_zero, hmag, if_true, if_false, Bool.false_bne]

theorem F32.div_zero_of_units_neg {a : F32} (ha : a.isFinite = true) (s : Bool) (h : a.units < 0) :
    a.div (.fin s 0 0) = .inf !s := by
  obtain ⟨e, f, rfl, hmag⟩ := F32.exists_of_units_neg ha h
  simp only [F32.div, F32.mag_zero, hmag, if_true, if_false, Bool.true_bne]

theorem F32.sub_self {a : F32} (ha : a.isFinite = true) : a.sub a = .zero := by
  obtain ⟨s, e, f, rfl⟩ := F32.exists_fin ha
  have hsum : signed s (F32.mag e f) + signed (!s) (F32.mag e f) = 0 := by rw [signed_not, add_neg_cancel]
  simp only [F32.sub, F32.neg, F32.add, hsum, if_true, Bool.and_not_self]
  rfl

/-! ### Sine and cosine -/

/-- The results that law c of R88 allows. -/
def F32.UnitRange (v : F32) : Prop := F32.one.neg.le v = true ∧ v.le .one = true

theorem inUnitRange_unitRange (v : F32) : (inUnitRange v).UnitRange := by
  unfold inUnitRange
  split_ifs with hrange
  · rwa [Bool.and_eq_true] at hrange
  · exact ⟨by decide, by decide⟩

theorem F32.sin_unitRange {a : F32} (ha : a.isFinite = true) : a.sin.UnitRange := by
  obtain ⟨s, e, f, rfl⟩ := F32.exists_fin ha
  unfold F32.sin
  dsimp only
  split_ifs with hmag
  · obtain ⟨rfl, rfl⟩ := F32.mag_eq_zero_iff.mp hmag
    cases s <;> exact ⟨by decide, by decide⟩
  · exact inUnitRange_unitRange _

theorem F32.cos_unitRange {a : F32} (ha : a.isFinite = true) : a.cos.UnitRange := by
  obtain ⟨s, e, f, rfl⟩ := F32.exists_fin ha
  unfold F32.cos
  dsimp only
  split_ifs
  · exact ⟨by decide, by decide⟩
  · exact inUnitRange_unitRange _

end Sys2Proof
end

