-- ==== Sys2Proof/Proofs/FloorFrac.lean ====
section
/-! Proofs/FloorFrac.lean: `floor`, `frac` and `trunc` of spec/40_numerics.md R85 to R87 in units of 2^-149: `floor` is the
exact whole part and `frac` the rounded remainder of the division of the units by 2^149. -/

namespace Sys2Proof

/-! ### The numbers of the format -/

/-- A number of at most 24 significant bits in the range of the format is a number of the format, and rounding gives
it. -/
theorem F32.round_shifted (neg : Bool) {q j : ℕ} (hq : q < 2 ^ 24) (hj : j ≤ 253) :
    ∃ e f, F32.round neg (q * 2 ^ j) 1 = .fin neg e f ∧ F32.mag e f = q * 2 ^ j := by
  have hplace : lastPlace (q * 2 ^ j) 1 ≤ j := by
    rcases Nat.eq_zero_or_pos q with rfl | hpos
    · simp [lastPlace]
    · have hlt : q * 2 ^ j < 2 ^ (24 + j) := by
        rw [Nat.pow_add]
        exact Nat.mul_lt_mul_of_pos_right hq (Nat.two_pow_pos j)
      have hlog := (Nat.log2_lt (Nat.mul_pos hpos (Nat.two_pow_pos j)).ne').mpr hlt
      unfold lastPlace
      rw [Nat.div_one]
      omega
  obtain ⟨p, hp⟩ : 2 ^ lastPlace (q * 2 ^ j) 1 ∣ q * 2 ^ j := (Nat.pow_dvd_pow 2 hplace).mul_left q
  have hself : roundedMag (q * 2 ^ j) = q * 2 ^ j := by
    have hexact := nearestEven_exact p _ (Nat.two_pow_pos (lastPlace (q * 2 ^ j) 1))
    rw [Nat.mul_comm p, ← hp] at hexact
    rw [roundedMag, hexact, Nat.mul_comm, ← hp]
  rcases F32.round_cases neg (q * 2 ^ j) with ⟨e, f, hr, hmag⟩ | ⟨-, hlim⟩
  · exact ⟨e, f, hr, hmag.trans hself⟩
  · have hlt : q * 2 ^ j < unitLimit := calc
      q * 2 ^ j < 2 ^ 24 * 2 ^ j := Nat.mul_lt_mul_of_pos_right hq (Nat.two_pow_pos j)
      _ ≤ 2 ^ 24 * 2 ^ 253 := Nat.mul_le_mul_left _ (Nat.pow_le_pow_right (by decide) hj)
    omega

/-- A larger exponent field is a larger magnitude (R80). -/
theorem F32.mag_lt_mag {e e' : Fin 255} (h : e < e') (f f' : BitVec 23) : F32.mag e f < F32.mag e' f' := by
  have hf := f.isLt
  have hlt : e.val < e'.val := h
  have hbelow : F32.mag e f < 2 ^ 23 * 2 ^ e.val := by
    unfold F32.mag
    split_ifs with he
    · simpa [he] using hf
    · have hpow : 2 ^ e.val = 2 * 2 ^ (e.val - 1) := by rw [← Nat.pow_succ']; congr 1; omega
      have hpos := Nat.two_pow_pos (e.val - 1)
      rw [hpow, ← Nat.mul_assoc]
      exact Nat.mul_lt_mul_of_pos_right (by omega) hpos
  calc F32.mag e f < 2 ^ 23 * 2 ^ e.val := hbelow
    _ ≤ 2 ^ 23 * 2 ^ (e'.val - 1) := Nat.mul_le_mul_left _ (Nat.pow_le_pow_right (by decide) (by omega))
    _ ≤ F32.mag e' f' := by
      unfold F32.mag
      rw [if_neg (by omega)]
      exact Nat.mul_le_mul_right _ (by omega)

/-- Every magnitude has one exponent field and one fraction field (R80). -/
theorem F32.mag_inj {e e' : Fin 255} {f f' : BitVec 23} (h : F32.mag e f = F32.mag e' f') : e = e' ∧ f = f' := by
  rcases lt_trichotomy e e' with hlt | rfl | hlt
  · exact absurd h (F32.mag_lt_mag hlt f f').ne
  · refine ⟨rfl, BitVec.eq_of_toNat_eq ?_⟩
    unfold F32.mag at h
    split_ifs at h
    · exact h
    · have hsum := Nat.eq_of_mul_eq_mul_right (Nat.two_pow_pos _) h
      omega
  · exact absurd h (F32.mag_lt_mag hlt f' f).ne'

/-- A finite number other than zero is given by its units. -/
theorem F32.eq_of_units_eq {a b : F32} (ha : a.isFinite = true) (hb : b.isFinite = true) (hne : a.units ≠ 0)
    (h : a.units = b.units) : a = b := by
  obtain ⟨s, e, f, rfl⟩ := F32.exists_fin ha
  obtain ⟨t, e', f', rfl⟩ := F32.exists_fin hb
  have hmag : F32.mag e f = F32.mag e' f' := by
    have habs := congrArg (|·|) h
    simp only [units_fin, abs_signed] at habs
    exact_mod_cast habs
  have hsign : s = t := by
    rw [units_fin, units_fin, ← hmag] at h
    rw [units_fin] at hne
    cases s <;> cases t <;> simp only [signed, Bool.false_eq_true, if_true, if_false] at h hne ⊢ <;> omega
  obtain ⟨rfl, rfl⟩ := F32.mag_inj hmag
  rw [hsign]

/-! ### `floor` -/

/-- From 2^23 on, a number is whole (R85). -/
theorem F32.one_dvd_mag {e : Fin 255} {f : BitVec 23} (h : 2 ^ 23 * 2 ^ 149 ≤ F32.mag e f) : 2 ^ 149 ∣ F32.mag e f := by
  obtain ⟨q, j, hmag, hq, -⟩ := F32.mag_eq_shifted e f
  rcases Nat.lt_or_ge j 149 with hj | hj
  · have hpow : 2 ^ j ≤ 2 ^ 148 := Nat.pow_le_pow_right (by decide) (by omega)
    have hle : q * 2 ^ j ≤ (2 ^ 24 - 1) * 2 ^ 148 := Nat.mul_le_mul (by omega) hpow
    omega
  · rw [hmag]
    exact (Nat.pow_dvd_pow 2 hj).mul_left q

/-- A whole number less than 1 away from a number of the format is one, and rounding gives it. -/
theorem F32.round_whole (neg : Bool) {e : Fin 255} {f : BitVec 23} {n : ℕ} (hlow : F32.mag e f < n * 2 ^ 149 + 2 ^ 149)
    (hhigh : n * 2 ^ 149 < F32.mag e f + 2 ^ 149) :
    ∃ e' f', F32.round neg (n * 2 ^ 149) 1 = .fin neg e' f' ∧ F32.mag e' f' = n * 2 ^ 149 := by
  rcases Nat.lt_or_ge (F32.mag e f) (2 ^ 23 * 2 ^ 149) with hsmall | hbig
  · exact F32.round_shifted neg (by omega) (by decide)
  · obtain ⟨p, hp⟩ := F32.one_dvd_mag hbig
    have hself : n * 2 ^ 149 = F32.mag e f := by omega
    obtain ⟨q, j, hmag, hq, hj⟩ := F32.mag_eq_shifted e f
    rw [hself, hmag]
    exact F32.round_shifted neg hq hj

/-- `floor` is the whole part, exact (R85). -/
theorem F32.floor_units {a : F32} (ha : a.isFinite = true) :
    a.floor.isFinite = true ∧ a.floor.units = a.units / 2 ^ 149 * 2 ^ 149 := by
  obtain ⟨s, e, f, rfl⟩ := F32.exists_fin ha
  cases s with
  | false =>
    obtain ⟨e', f', hr, hmag⟩ := F32.round_whole false (e := e) (f := f) (n := F32.mag e f / 2 ^ 149)
      (by omega) (by omega)
    simp only [F32.floor, Bool.false_eq_true, if_false, hr, units_fin, hmag, signed]
    exact ⟨rfl, by omega⟩
  | true =>
    obtain ⟨e', f', hr, hmag⟩ := F32.round_whole true (e := e) (f := f) (n := (F32.mag e f + (2 ^ 149 - 1)) / 2 ^ 149)
      (by omega) (by omega)
    simp only [F32.floor, if_true, hr, units_fin, hmag, signed]
    exact ⟨rfl, by omega⟩

/-- The whole part of the value by the units. -/
theorem floor_value {a : F32} (ha : a.isFinite = true) : ⌊Reference.value a⌋ = a.units / 2 ^ 149 := by
  have h := Rat.floor_intCast_div_natCast a.units (2 ^ 149)
  rw [value_eq_units ha]
  exact_mod_cast h

theorem value_floor {a : F32} (ha : a.isFinite = true) : Reference.value a.floor = ⌊Reference.value a⌋ := by
  obtain ⟨hfin, hunits⟩ := F32.floor_units ha
  rw [value_eq_units hfin, hunits, floor_value ha]
  push_cast
  exact mul_div_cancel_right₀ _ (by positivity)

/-- `floor` keeps the numbers of magnitude 2^23 and more (R85). -/
theorem F32.floor_of_large {a : F32} (ha : a.isFinite = true) (h : 2 ^ 23 ≤ |Reference.value a|) : a.floor = a := by
  obtain ⟨hfin, hunits⟩ := F32.floor_units ha
  have hbig : 2 ^ 23 * 2 ^ 149 ≤ |a.units| := by
    rw [value_eq_units ha, abs_div, abs_of_pos (by positivity : (0 : ℚ) < 2 ^ 149), le_div_iff₀ (by positivity)] at h
    exact_mod_cast h
  have hdvd : (2 ^ 149 : ℤ) ∣ a.units := by
    obtain ⟨s, e, f, rfl⟩ := F32.exists_fin ha
    rw [units_fin] at hbig ⊢
    rw [abs_signed] at hbig
    rw [← dvd_abs, abs_signed]
    exact_mod_cast F32.one_dvd_mag (by exact_mod_cast hbig)
  rw [Int.ediv_mul_cancel hdvd] at hunits
  exact (F32.eq_of_units_eq ha hfin (by intro hzero; rw [hzero] at hbig; norm_num at hbig) hunits.symm).symm

/-- `floor` of a zero is that zero (R85). -/
theorem F32.floor_zero (s : Bool) : (F32.fin s 0 0).floor = .fin s 0 0 := by
  have hceil : (0 + (2 ^ 149 - 1)) / 2 ^ 149 * 2 ^ 149 = 0 := by norm_num
  cases s with
  | false =>
    simp only [F32.floor, F32.mag_zero, Bool.false_eq_true, if_false, Nat.zero_div, Nat.zero_mul]
    rfl
  | true =>
    simp only [F32.floor, F32.mag_zero, hceil, if_true]
    rfl

/-! ### `frac` -/

/-- `frac` of a zero is `+0` (R86). -/
theorem F32.frac_zero (s : Bool) : (F32.fin s 0 0).frac = .zero := by
  rw [F32.frac, F32.floor_zero, F32.sub_self rfl]

/-- `frac` stands on the same side of every finite real as the exact remainder, or on it (R86). -/
theorem F32.frac_mono {a c : F32} (ha : a.isFinite = true) (hc : c.isFinite = true) :
    (c.units ≤ a.units % 2 ^ 149 → c.units ≤ a.frac.units) ∧ (a.units % 2 ^ 149 ≤ c.units → a.frac.units ≤ c.units) := by
  obtain ⟨hfin, hunits⟩ := F32.floor_units ha
  have hmono := units_add_mono (b := a.floor.neg) ha (by simpa using hfin) hc
  have hrem : a.units + -(a.units / 2 ^ 149 * 2 ^ 149) = a.units % 2 ^ 149 := by omega
  rwa [F32.units_neg, hunits, hrem] at hmono

theorem F32.isNan_frac {a : F32} (ha : a.isFinite = true) : a.frac.isNan = false :=
  isNan_add ha (by simpa using (F32.floor_units ha).1)

theorem F32.units_one : F32.one.units = 2 ^ 149 := by decide

/-- `frac` lies in [0, 1] (R86). -/
theorem F32.frac_units_range {a : F32} (ha : a.isFinite = true) : 0 ≤ a.frac.units ∧ a.frac.units ≤ F32.one.units := by
  have hlow := (F32.frac_mono ha (c := .zero) rfl).1
  have hhigh := (F32.frac_mono ha (c := .one) rfl).2
  rw [units_zero] at hlow
  rw [F32.units_one] at hhigh ⊢
  exact ⟨hlow (by omega), hhigh (by omega)⟩

theorem F32.isFinite_frac {a : F32} (ha : a.isFinite = true) : a.frac.isFinite = true :=
  F32.isFinite_of_between (a := .zero) (c := .one) rfl rfl (F32.isNan_frac ha) (F32.frac_units_range ha).1
    (F32.frac_units_range ha).2

/-- The remainder of a number of the format by 1 is a whole number of the places of that number. -/
theorem dvd_emod_one {n : ℤ} {j : ℕ} (h : (2 : ℤ) ^ j ∣ n) : (2 : ℤ) ^ j ∣ n % 2 ^ 149 := by
  rcases Nat.le_total j 149 with hj | hj
  · exact (EuclideanDomain.dvd_mod_iff (pow_dvd_pow 2 hj)).mpr h
  · rw [Int.emod_eq_zero_of_dvd ((pow_dvd_pow 2 hj).trans h)]
    exact dvd_zero _

/-- Outside (-1, 0) the remainder has no more significant bits than the number, so it is a number of the format. -/
theorem F32.exists_units_eq_emod {a : F32} (ha : a.isFinite = true) (hout : ¬(-2 ^ 149 < a.units ∧ a.units < 0)) :
    ∃ c : F32, c.isFinite = true ∧ c.units = a.units % 2 ^ 149 := by
  obtain ⟨s, e, f, rfl⟩ := F32.exists_fin ha
  obtain ⟨q, j, hmag, hq, hj⟩ := F32.mag_eq_shifted e f
  have habs : |(F32.fin s e f).units| = q * 2 ^ j := by
    rw [units_fin, abs_signed, hmag]
    push_cast
    rfl
  have hdvd : (2 : ℤ) ^ j ∣ (F32.fin s e f).units := (dvd_abs _ _).mp (habs ▸ dvd_mul_left _ _)
  generalize (F32.fin s e f).units = n at hout habs hdvd ⊢
  obtain ⟨p, hp⟩ := dvd_emod_one hdvd
  have hunit : (0 : ℤ) < 2 ^ j := by positivity
  have hsize : n % 2 ^ 149 ≤ |n| := by
    rcases abs_cases n with ⟨h, hn⟩ | ⟨h, hn⟩ <;> rw [h] <;> omega
  have hle : p * 2 ^ j ≤ q * 2 ^ j := by
    rwa [habs, hp, mul_comm] at hsize
  have hpq : p ≤ q := le_of_mul_le_mul_right hle hunit
  have hpos : 0 ≤ p := by
    refine nonneg_of_mul_nonneg_right ?_ hunit
    rw [← hp]
    omega
  obtain ⟨m, rfl⟩ := Int.eq_ofNat_of_zero_le hpos
  obtain ⟨e', f', -, hmag'⟩ := F32.round_shifted false (q := m) (by omega) hj
  refine ⟨.fin false e' f', rfl, ?_⟩
  rw [units_fin, hmag', hp, mul_comm]
  simp [signed]

/-- Outside (-1, 0) `frac` is exact (R86). -/
theorem F32.frac_exact {a : F32} (ha : a.isFinite = true) (hout : ¬(-2 ^ 149 < a.units ∧ a.units < 0)) :
    a.frac.units = a.units % 2 ^ 149 := by
  obtain ⟨c, hc, hunits⟩ := F32.exists_units_eq_emod ha hout
  obtain ⟨hlow, hhigh⟩ := F32.frac_mono ha hc
  omega

/-- A sum other than zero is rounded as the whole number of its units. -/
theorem F32.add_eq_round {a b : F32} (ha : a.isFinite = true) (hb : b.isFinite = true) (hne : a.units + b.units ≠ 0) :
    a.add b = F32.round (decide (a.units + b.units < 0)) (a.units + b.units).natAbs 1 := by
  obtain ⟨s, e, f, rfl⟩ := F32.exists_fin ha
  obtain ⟨t, e', f', rfl⟩ := F32.exists_fin hb
  simp only [F32.add, ← units_fin]
  exact if_neg hne

/-- The rounded remainder of a number in the upper half of [0, 1): the last place kept there is 2^125 units. -/
theorem F32.frac_units_of_high {a : F32} (ha : a.isFinite = true) {n : ℕ} (hrem : a.units % 2 ^ 149 = n)
    (hlow : 2 ^ 148 ≤ n) (hhigh : n < 2 ^ 149) : a.frac.units = nearestEven n (2 ^ 125) * 2 ^ 125 := by
  obtain ⟨hfin, hunits⟩ := F32.floor_units ha
  have hsum : a.units + a.floor.neg.units = n := by
    rw [F32.units_neg, hunits]
    omega
  have hround : a.frac = F32.round false n 1 := by
    have h := F32.add_eq_round (b := a.floor.neg) ha (by simpa using hfin) (by rw [hsum]; omega)
    rwa [hsum, decide_eq_false (by omega), Int.natAbs_natCast] at h
  have hplace : lastPlace n 1 = 125 := by
    have hlog : n.log2 = 148 := (Nat.log2_eq_iff (by omega)).mpr ⟨hlow, hhigh⟩
    rw [lastPlace, Nat.div_one, hlog]
  have hmag : roundedMag n = nearestEven n (2 ^ 125) * 2 ^ 125 := by rw [roundedMag, hplace]
  rcases F32.round_cases false n with ⟨e, f, hr, h⟩ | ⟨hr, -⟩
  · rw [hround, hr, units_fin, h, hmag]
    simp [signed]
  · have hfrac := F32.isFinite_frac ha
    rw [hround, hr] at hfrac
    cases hfrac

/-- In the upper half of [0, 1) a remainder is rounded to 1 from half a last place below 1 on: the largest significand is
odd, so the tie goes up. -/
theorem nearestEven_eq_top_iff {n : ℕ} (hlow : 2 ^ 148 ≤ n) (hhigh : n < 2 ^ 149) :
    nearestEven n (2 ^ 125) * 2 ^ 125 = 2 ^ 149 ↔ 2 ^ 149 - 2 ^ 124 ≤ n := by
  unfold nearestEven
  dsimp only
  split_ifs <;> omega

/-- The remainders that are rounded to 1 (R86). -/
theorem F32.frac_eq_one_iff {a : F32} (ha : a.isFinite = true) :
    a.frac = .one ↔ -2 ^ 124 ≤ a.units ∧ a.units < 0 := by
  have hone : a.frac = .one ↔ a.frac.units = 2 ^ 149 := by
    rw [← F32.units_one]
    exact ⟨congrArg F32.units, fun h =>
      F32.eq_of_units_eq (F32.isFinite_frac ha) rfl (by rw [h, F32.units_one]; norm_num) h⟩
  rw [hone]
  by_cases hin : -2 ^ 149 < a.units ∧ a.units < 0
  · obtain ⟨n, hrem⟩ := Int.eq_ofNat_of_zero_le (by omega : 0 ≤ a.units % 2 ^ 149)
    rcases Nat.lt_or_ge n (2 ^ 148) with hlow | hhigh
    · have hhalf : F32.half.units = 2 ^ 148 := by decide
      have hle := (F32.frac_mono ha (c := .half) rfl).2
      omega
    · have htop := nearestEven_eq_top_iff hhigh (by omega)
      have hunits := F32.frac_units_of_high ha hrem hhigh (by omega)
      omega
  · have hexact := F32.frac_exact ha hin
    omega

/-! ### The laws by the values (R80) -/

/-- A bound that is a whole number of units, on a value. -/
theorem value_lt_div_iff {a : F32} (ha : a.isFinite = true) (z : ℤ) :
    (z : ℚ) / 2 ^ 149 < Reference.value a ↔ z < a.units := by
  rw [value_eq_units ha, div_lt_div_iff_of_pos_right (by positivity), Int.cast_lt]

theorem neg_one_lt_value_iff {a : F32} (ha : a.isFinite = true) : -1 < Reference.value a ↔ -2 ^ 149 < a.units := by
  rw [← value_lt_div_iff ha]
  norm_num

theorem neg_two_pow_le_value_iff {a : F32} (ha : a.isFinite = true) :
    -(2 : ℚ) ^ (-25 : ℤ) ≤ Reference.value a ↔ -2 ^ 124 ≤ a.units := by
  have hbound : -(2 : ℚ) ^ (-25 : ℤ) = ((-2 ^ 124 : ℤ) : ℚ) / 2 ^ 149 := by norm_num
  rw [hbound, value_eq_units ha, div_le_div_iff_of_pos_right (by positivity), Int.cast_le]

/-- `frac` is 1 exactly for -2^-25 <= a < 0 (R86). -/
theorem F32.frac_eq_one_iff_value {a : F32} (ha : a.isFinite = true) :
    a.frac = .one ↔ -(2 : ℚ) ^ (-25 : ℤ) ≤ Reference.value a ∧ Reference.value a < 0 := by
  rw [neg_two_pow_le_value_iff ha, value_neg_iff ha, F32.frac_eq_one_iff ha]

theorem value_frac {a : F32} (ha : a.isFinite = true) (hout : ¬(-1 < Reference.value a ∧ Reference.value a < 0)) :
    Reference.value a.frac = Reference.value a - ⌊Reference.value a⌋ := by
  rw [neg_one_lt_value_iff ha, value_neg_iff ha] at hout
  have hrem : a.units % 2 ^ 149 = a.units - 2 ^ 149 * (a.units / 2 ^ 149) := Int.emod_def _ _
  rw [value_eq_units (F32.isFinite_frac ha), F32.frac_exact ha hout, hrem, floor_value ha, value_eq_units ha]
  push_cast
  ring

/-- Inside (-1, 0) `frac` is `1 + a` rounded once (R86). -/
theorem roundsTo_frac {a : F32} (ha : a.isFinite = true) (hlow : -1 < Reference.value a)
    (hhigh : Reference.value a < 0) :
    Reference.RoundsTo (1 + ((Reference.value a : ℚ) : ℝ)) a.frac := by
  have hfloor : ⌊Reference.value a⌋ = -1 := by
    rw [Int.floor_eq_iff]
    push_cast
    exact ⟨hlow.le, by linarith⟩
  have h := roundsTo_sub ha (F32.floor_units ha).1
  rw [value_floor ha, hfloor] at h
  push_cast at h
  rwa [sub_neg_eq_add, add_comm] at h

theorem F32.frac_range {a : F32} (ha : a.isFinite = true) : F32.zero.le a.frac = true ∧ a.frac.le .one = true := by
  have hnan := F32.isNan_frac ha
  rw [F32.le_iff_units rfl hnan, F32.le_iff_units hnan rfl]
  exact F32.frac_units_range ha

/-- `trunc` is the quotient of the units by those of 1, rounded toward zero (R87). -/
theorem F32.trunc_units {a : F32} (ha : a.isFinite = true) : a.trunc = some (a.units.tdiv (2 ^ 149)) := by
  obtain ⟨s, e, f, rfl⟩ := F32.exists_fin ha
  cases s <;> simp [F32.trunc, signed, Int.neg_tdiv]

theorem F32.trunc_of_nonneg {a : F32} (ha : a.isFinite = true) (h : 0 ≤ Reference.value a) :
    a.trunc = some ⌊Reference.value a⌋ := by
  rw [← not_lt, value_neg_iff ha, not_lt] at h
  rw [F32.trunc_units ha, floor_value ha, Int.tdiv_eq_ediv_of_nonneg h]

theorem F32.trunc_of_nonpos {a : F32} (ha : a.isFinite = true) (h : Reference.value a ≤ 0) :
    a.trunc = some ⌈Reference.value a⌉ := by
  have hceil : ⌈Reference.value a⌉ = -(-a.units / 2 ^ 149) := by
    rw [← F32.units_neg, ← floor_value (by simpa using ha), value_neg, Int.floor_neg, neg_neg]
  rw [← not_lt, value_pos_iff ha, not_lt] at h
  rw [F32.trunc_units ha, hceil, ← Int.tdiv_eq_ediv_of_nonneg (by omega), Int.neg_tdiv, neg_neg]

end Sys2Proof
end

