-- ==== Sys2Proof/Proofs/NumericsFamily.lean ====
section
/-! Proofs/NumericsFamily.lean: the obligations of spec/40_numerics.md. -/

namespace Sys2Proof

/-- Settles O55: each operation computes the exact result in units and packs the nearest number of last places. -/
theorem arithmeticRoundsToNearestEven : Obligations.ArithmeticRoundsToNearestEven := fun _ _ ha hb =>
  ⟨roundsTo_add ha hb, roundsTo_sub ha hb, roundsTo_mul ha hb, roundsTo_div ha hb, roundsTo_sqrt ha⟩

/-- Settles O56: NaN, the infinities and the zeros are cases of the definitions; a number's sign is that of its units, and an
exact sum of zero is `+0`. -/
theorem arithmeticSpecialCases : Obligations.ArithmeticSpecialCases := by
  refine ⟨fun a => ?_, rfl, fun s => ?_, fun s u => ?_, fun a ha hneg => ?_, fun a s ha => ?_, rfl, rfl, rfl,
    fun a ha => F32.sub_self ha, rfl, rfl⟩
  · cases a <;> exact ⟨rfl, rfl, rfl, rfl, rfl, rfl, rfl, rfl⟩
  · cases s <;> exact ⟨rfl, rfl⟩
  · exact ⟨rfl, rfl, rfl, rfl⟩
  · exact F32.sqrt_of_units_neg ha ((value_neg_iff ha).mp hneg)
  · rw [value_pos_iff ha, value_neg_iff ha]
    exact ⟨F32.div_zero_of_units_pos ha s, F32.div_zero_of_units_neg ha s⟩

/-- Settles O57: between operands that are no NaN a comparison is that of the units, and those of an infinity stand beyond
the units of every finite number; the signs are on the fields of the pattern. -/
theorem comparisonsAndSigns : Obligations.ComparisonsAndSigns := by
  refine ⟨fun a => ⟨F32.isNan_iff, F32.isFinite_iff⟩, fun a b ha hb => ?_, fun a p hp => ?_, fun s a ha => ?_,
    fun s u => ?_, fun w => ⟨neg_ofBits w, abs_ofBits w⟩,
    fun a => ⟨F32.sgn_of_gt, F32.sgn_of_lt, F32.sgn_of_eq⟩, fun a ha => ?_, rfl, rfl, rfl⟩
  · exact ⟨F32.lt_iff_value ha hb, F32.le_iff_value ha hb, F32.lt_iff_value hb ha, F32.le_iff_value hb ha,
      F32.eq_iff_value ha hb, F32.ne_iff_value ha hb⟩
  · have hnan : ordered p.1 p.2 = false := by
      simp only [List.mem_cons, List.not_mem_nil, or_false] at hp
      rcases hp with rfl | rfl
      · exact ordered_nan_right a
      · rfl
    exact compare_of_not_ordered hnan
  · have hnan := F32.isNan_of_isFinite ha
    cases s with
    | true =>
      have hbelow := compare_of_units_lt rfl hnan (units_neg_inf_lt ha)
      simpa only [and_assoc, Bool.not_true, Bool.not_false] using hbelow
    | false =>
      have habove := compare_of_units_lt hnan rfl (lt_units_pos_inf ha)
      simpa only [and_assoc, Bool.not_true, Bool.not_false] using habove.symm
  · have hinf := compare_of_units_lt rfl rfl units_neg_inf_lt_pos_inf
    cases s with
    | true =>
      cases u with
      | true => exact compare_self rfl
      | false => exact hinf.1
    | false =>
      cases u with
      | true => exact hinf.2
      | false => exact compare_self rfl
  · have hnan := F32.isNan_of_isFinite ha
    rw [value_pos_iff ha, value_neg_iff ha, value_zero_iff ha]
    exact ⟨value_neg a, value_abs ha, F32.sgn_of_pos hnan, F32.sgn_of_neg hnan, F32.sgn_of_units_zero⟩

/-- Settles O58: `floor` and `frac` are quotient and remainder of the units by those of 1, and only inside (-1, 0) is the
remainder rounded. -/
theorem floorFracTruncLaws : Obligations.FloorFracTruncLaws := by
  refine ⟨fun _ => ⟨rfl, rfl⟩, fun a ha => ?_, fun s => ⟨rfl, ?_, ?_, rfl⟩, rfl, rfl, rfl, rfl, F32.floor_zero true,
    F32.frac_zero true⟩
  · exact ⟨⟨(F32.floor_units ha).1, value_floor ha⟩, F32.floor_of_large ha, F32.frac_range ha, value_frac ha,
      roundsTo_frac ha, rfl, F32.frac_eq_one_iff_value ha, F32.trunc_of_nonneg ha, F32.trunc_of_nonpos ha⟩
  · cases s <;> rfl
  · cases s <;> rfl

/-- Settles O59: the free values of sine and cosine are held to the range, and the special operands to their results. -/
theorem sineAndCosineLaws : Obligations.SineAndCosineLaws :=
  ⟨⟨rfl, rfl, fun _ => ⟨rfl, rfl⟩⟩, fun _ => ⟨rfl, rfl⟩, fun _ ha => ⟨F32.sin_unitRange ha, F32.cos_unitRange ha⟩⟩

/-- Settles O60: both directions go through the three fields of the pattern, and the free pattern of a NaN has the exponent
and the quiet bit of one. -/
theorem realsMoveBitExactly : Obligations.RealsMoveBitExactly := by
  refine ⟨fun n v => ⟨ofBits_bits n v, ?_⟩, fun n w => bits_ofBits n, ofBits_eq_nan_iff, ?_⟩
  · rintro rfl
    exact nanPattern_quiet n
  · decide

end Sys2Proof
end

