-- ==== Sys2Proof/Proofs/ZeroTerms.lean ====
section
/-! Proofs/ZeroTerms.lean: the arithmetic of spec/40_numerics.md R82 with a zero operand, as spec/41_envelope.md R101, R102
and R105 meet it at the start of a phase and in a zero-time advance: adding `+0`, the zero of a product, and the curves of
R102 at 0. -/

namespace Sys2Proof

/-! ### The sum with a zero -/

/-- The number other than `+0` that stands at zero (R80). -/
def F32.negZero : F32 := .fin true 0 0

theorem F32.eq_zero_of_units {a : F32} (ha : a.isFinite = true) (h : a.units = 0) : ∃ s, a = .fin s 0 0 := by
  obtain ⟨s, e, f, rfl⟩ := F32.exists_fin ha
  have hmag : F32.mag e f = 0 := by
    rw [units_fin, ← abs_eq_zero, abs_signed] at h
    exact_mod_cast h
  obtain ⟨rfl, rfl⟩ := F32.mag_eq_zero_iff.mp hmag
  exact ⟨s, rfl⟩

theorem units_zero_fin (s : Bool) : (F32.fin s 0 0).units = 0 := by cases s <;> rfl

/-- The sum with a zero of either sign is exact (R82). -/
theorem units_add_zero {a : F32} (ha : a.isFinite = true) (s : Bool) :
    (a.add (.fin s 0 0)).isFinite = true ∧ (a.add (.fin s 0 0)).units = a.units := by
  obtain ⟨hlow, hhigh⟩ := units_add_mono (b := .fin s 0 0) ha rfl ha
  rw [units_zero_fin, add_zero] at hlow hhigh
  have hunits := le_antisymm (hhigh le_rfl) (hlow le_rfl)
  exact ⟨F32.isFinite_of_between ha ha (isNan_add ha rfl) hunits.ge hunits.le, hunits⟩

/-- Adding `+0` changes no real but `-0` (R82). -/
theorem F32.add_posZero {a : F32} (h : a ≠ .negZero) : a.add .zero = a := by
  cases a with
  | nan => rfl
  | inf => rfl
  | fin s e f =>
    obtain ⟨hfin, hunits⟩ := units_add_zero (a := .fin s e f) rfl false
    by_cases hz : (F32.fin s e f).units = 0
    · obtain ⟨s', hs'⟩ := F32.eq_zero_of_units rfl hz
      rw [hs'] at h ⊢
      cases s' with
      | false => decide
      | true => exact absurd rfl h
    · exact F32.eq_of_units_eq hfin rfl (fun h0 => hz (hunits.symm.trans h0)) hunits

/-- A rounded sum of two finite reals is a zero only where the exact sum is: the smallest magnitudes of the format are one
unit (R80, R82). -/
theorem units_add_of_units_zero {a b : F32} (ha : a.isFinite = true) (hb : b.isFinite = true)
    (h : (a.add b).units = 0) : a.units + b.units = 0 := by
  have hone : (F32.fin false 0 1).units = 1 := rfl
  have hminus : (F32.fin true 0 1).units = -1 := rfl
  have hup := (units_add_mono ha hb (c := .fin false 0 1) rfl).1
  have hdown := (units_add_mono ha hb (c := .fin true 0 1) rfl).2
  omega

/-- A sum is `-0` only where both operands are (R82). -/
theorem F32.add_eq_negZero {a b : F32} (h : a.add b = .negZero) : a = .negZero ∧ b = .negZero := by
  have hfin : a.isFinite = true ∧ b.isFinite = true := by
    cases a <;> cases b <;> simp only [F32.add, F32.negZero, reduceCtorEq] at h
    case inf.inf => split_ifs at h
    case fin.fin => exact ⟨rfl, rfl⟩
  obtain ⟨ha, hb⟩ := hfin
  have hsum : a.units + b.units = 0 := units_add_of_units_zero ha hb (by rw [h]; rfl)
  obtain ⟨s, e, f, rfl⟩ := F32.exists_fin ha
  obtain ⟨t, e', f', rfl⟩ := F32.exists_fin hb
  have hsigns : s = true ∧ t = true := by
    simp only [F32.add, ← units_fin, hsum, if_true, F32.negZero, F32.fin.injEq, Bool.and_eq_true] at h
    exact h.1
  obtain ⟨rfl, rfl⟩ := hsigns
  simp only [units_fin, signed, if_true] at hsum
  obtain ⟨rfl, rfl⟩ := F32.mag_eq_zero_iff.mp (by omega : F32.mag e f = 0)
  obtain ⟨rfl, rfl⟩ := F32.mag_eq_zero_iff.mp (by omega : F32.mag e' f' = 0)
  exact ⟨rfl, rfl⟩

/-! ### The zero of a product and of a quotient -/

/-- An exact zero is rounded to the zero of its sign (R82). -/
theorem F32.round_zero (neg : Bool) {d : ℕ} (hd : 0 < d) : F32.round neg 0 d = .fin neg 0 0 := by
  rw [← Nat.zero_mul d, F32.round_scale neg 0 hd]
  rfl

/-- A finite real times `+0` is a zero (R82). -/
theorem F32.mul_zero_of_isFinite {a : F32} (ha : a.isFinite = true) : ∃ s, a.mul .zero = .fin s 0 0 := by
  obtain ⟨s, e, f, rfl⟩ := F32.exists_fin ha
  refine ⟨s != false, ?_⟩
  simp only [F32.mul, F32.zero, F32.mag_zero, Nat.mul_zero]
  exact F32.round_zero _ (Nat.two_pow_pos 149)

/-- `+0` divided by a positive number is `+0` (R82). -/
theorem F32.zero_div_of_pos {d : F32} (hd : d.isFinite = true) (hpos : d.gt .zero = true) :
    F32.zero.div d = .zero := by
  obtain ⟨-, -, hunits⟩ := F32.lt_eq_true_iff.mp hpos
  obtain ⟨e, f, rfl, hmag⟩ := F32.exists_of_units_pos hd hunits
  simp only [F32.div, F32.zero, if_neg hmag, F32.mag_zero, Nat.zero_mul]
  exact F32.round_zero _ (Nat.pos_of_ne_zero hmag)

/-- Every curve of R102 is `+0` at `+0`. -/
theorem shape_zero (sh : Shape) : Reference.shape sh .zero = .zero := by
  cases sh with
  | linear => rfl
  | invSquare => decide
  | squareRoot => decide
  | quarterSine => decide

/-! ### Differences inside the format -/

/-- The largest finite number bounds the value of every finite real (R80). -/
theorem abs_value_le {a : F32} (ha : a.isFinite = true) : |Reference.value a| ≤ 2 ^ 128 - 2 ^ 104 := by
  obtain ⟨s, e, f, rfl⟩ := F32.exists_fin ha
  obtain ⟨q, j, hmag, hq, hj⟩ := F32.mag_eq_shifted e f
  have hle : F32.mag e f ≤ 0xFFFFFF * 2 ^ 253 := by
    rw [hmag]
    exact Nat.mul_le_mul (by omega) (Nat.pow_le_pow_right (by decide) hj)
  rw [value_eq_units ha, abs_div, ← Int.cast_abs, units_fin, abs_signed, abs_of_pos (by positivity : (0 : ℚ) < 2 ^ 149),
    div_le_iff₀ (by positivity)]
  calc ((F32.mag e f : ℤ) : ℚ) ≤ 0xFFFFFF * 2 ^ 253 := by exact_mod_cast hle
    _ = (2 ^ 128 - 2 ^ 104) * 2 ^ 149 := by norm_num

/-- A difference that lies inside the format is finite (R82). -/
theorem isFinite_sub {a b : F32} (ha : a.isFinite = true) (hb : b.isFinite = true)
    (h : |Reference.value a - Reference.value b| < 2 ^ 128 - 2 ^ 103) : (a.sub b).isFinite = true := by
  have hround := roundsTo_sub ha hb
  rw [Reference.RoundsTo, if_pos (by exact_mod_cast h)] at hround
  exact hround.1

end Sys2Proof
end

