-- ==== Sys2Proof/Proofs/EnvelopeRules.lean ====
section
/-! Proofs/EnvelopeRules.lean: the sub-operations of spec/41_envelope.md as later proofs use them: the state that a command
ending in `env_run` (R105) leaves, the rescale of `ENV.SETP` (R109) for each parameter, the envelopes that a zero-time
advance leaves alone, and `env_value` (R101) at the start of a phase. -/

namespace Sys2Proof.Machine

/-! ### What `env_run` leaves -/

/-- The state in which a command answers that has written `e` to the envelope and then run `env_run` (R105). -/
theorem respondNone_envRun_setEnv (dt : F32) (s : State) (e : Env) :
    respondNone (envRun dt (s.setEnv e)) =
      { s with
        env := (Reference.envRun dt e).1, evstat := s.evstat ||| (Reference.envRun dt e).2, rsp := some ⟨0, 0⟩ } := by
  rw [envRun_eq]
  rfl

/-! ### The edit of a parameter (R109) -/

/-- The rescale is skipped for a phase that is not active now. -/
theorem rescale_of_not_current {e : Env} {id : Phase} (h : ¬(e.active = true ∧ e.phase = id)) (v cur : F32) :
    e.rescale id v cur = e := by
  have hskip : (!(e.active && decide (id = e.phase))) = true := by
    rw [Bool.not_eq_true', ← Bool.not_eq_true, Bool.and_eq_true, decide_eq_true_eq, eq_comm (a := id)]
    exact h
  unfold Env.rescale
  exact if_pos hskip

theorem setParam_rescale_attack (e : Env) (v cur : F32) :
    (e.setParam .attack v).rescale .attack v cur =
      if e.active = true ∧ e.phase = .attack then { e with attack := v, t := v.mul cur } else { e with attack := v } := by
  by_cases h : e.active = true ∧ e.phase = .attack
  · simp [Env.rescale, Env.setParam, h]
  · rw [rescale_of_not_current (by simpa using h), if_neg h]
    rfl

theorem setParam_rescale_decay (e : Env) (v cur : F32) :
    (e.setParam .decay v).rescale .decay v cur =
      if e.active = true ∧ e.phase = .decay ∧ e.sustain.ne .one = true then
        { e with decay := v, t := (v.mul (F32.one.sub cur)).div (F32.one.sub e.sustain) }
      else { e with decay := v } := by
  by_cases h : e.active = true ∧ e.phase = .decay
  · simp [Env.rescale, Env.setParam, h]
  · rw [rescale_of_not_current (by simpa using h), if_neg fun ⟨hact, hp, _⟩ => h ⟨hact, hp⟩]
    rfl

theorem setParam_rescale_sustain (e : Env) (v cur : F32) :
    (e.setParam .sustain v).rescale .sustain v cur = { e with sustain := v } := by
  unfold Env.rescale
  split_ifs <;> rfl

theorem setParam_rescale_release (e : Env) (v cur : F32) :
    (e.setParam .release v).rescale .release v cur =
      if e.active = true ∧ e.phase = .release ∧ e.sustain.ne .zero = true then
        { e with release := v, t := (v.mul (e.sustain.sub cur)).div e.sustain }
      else { e with release := v } := by
  by_cases h : e.active = true ∧ e.phase = .release
  · simp [Env.rescale, Env.setParam, h]
  · rw [rescale_of_not_current (by simpa using h), if_neg fun ⟨hact, hp, _⟩ => h ⟨hact, hp⟩]
    rfl

/-- `ENV.SETP` (R109) ends in a zero-time advance of the edited envelope. -/
theorem exec_envSetp (id : Phase) (d0 : Word) (s : State) {e : Env}
    (h : (s.env.setParam id (laneReal d0)).rescale id (laneReal d0) (Reference.envValue s.env) = e) :
    exec (.envSetp id d0) s = .next
      { s with
        env := (Reference.envRun .zero e).1, evstat := s.evstat ||| (Reference.envRun .zero e).2,
        rsp := some ⟨0, 0⟩ } := by
  rw [← h, ← envValue_eq]
  exact congrArg Host.Outcome.next (respondNone_envRun_setEnv .zero s _)

/-! ### Zero-time advances -/

/-- The envelope is at rest: it is inactive, or its time is no `-0` and has not reached the end of its phase, where the phase
has one. -/
def Env.Settled (e : Env) : Prop :=
  e.active = true → e.t ≠ .negZero ∧ ∀ d, e.dur = some d → e.t.ge d = false

/-- A zero-time advance of a settled envelope is no operation (R105). -/
theorem refEnvRun_zero_of_settled {e : Env} (h : e.Settled) : Reference.envRun .zero e = (e, 0) := by
  obtain ⟨act, p, t, a, d, su, r, sh⟩ := e
  cases act with
  | false => exact refEnvRun_inactive _ _ rfl
  | true =>
    obtain ⟨ht, hdur⟩ := h rfl
    have hadd : t.add .zero = t := F32.add_posZero ht
    cases p with
    | attack | decay | release =>
      have hend := hdur _ rfl
      simp only at hend
      simp [Reference.envRun, hadd, hend]
    | sustain => simp [Reference.envRun, hadd]

/-- A zero-time advance leaves a settled envelope (R105): its loop goes on to a phase that has not ended, and neither the
advance nor the end of a phase makes a `-0`. -/
theorem refEnvRun_zero_settled (e : Env) : (Reference.envRun .zero e).1.Settled := by
  have hsub {u : F32} (x : F32) (hu : u ≠ .negZero) : u.sub x ≠ .negZero := fun h => hu (F32.add_eq_negZero h).1
  have hgoing {u x : F32} (h : ¬u.ge x = true) : ∀ d, some x = some d → u.ge d = false := by
    rintro _ ⟨⟩
    exact Bool.eq_false_iff.mpr h
  obtain ⟨act, p, t, a, d, su, r, sh⟩ := e
  cases act with
  | false =>
    rw [refEnvRun_inactive _ _ rfl]
    exact nofun
  | true =>
    have ht : t.add .zero ≠ .negZero := fun h => nomatch (F32.add_eq_negZero h).2
    cases p <;> simp only [Reference.envRun, Bool.true_eq_false, if_false]
    case attack =>
      split_ifs with hattack hdecay
      · exact fun _ => ⟨hsub _ (hsub _ ht), nofun⟩
      · exact fun _ => ⟨hsub _ ht, hgoing hdecay⟩
      · exact fun _ => ⟨ht, hgoing hattack⟩
    case decay =>
      split_ifs with hdecay
      · exact fun _ => ⟨hsub _ ht, nofun⟩
      · exact fun _ => ⟨ht, hgoing hdecay⟩
    case sustain => exact fun _ => ⟨ht, nofun⟩
    case release =>
      split_ifs with hrelease
      · exact nofun
      · exact fun _ => ⟨ht, hgoing hrelease⟩

/-- A second zero-time advance does nothing (R112 c). -/
theorem refEnvRun_zero_twice (e : Env) :
    Reference.envRun .zero (Reference.envRun .zero e).1 = ((Reference.envRun .zero e).1, 0) :=
  refEnvRun_zero_of_settled (refEnvRun_zero_settled e)

/-! ### The value at the start of a phase (R101) -/

theorem envValue_attack_start {e : Env} (hact : e.active = true) (hp : e.phase = .attack) (ht : e.t = .zero)
    (hdur : e.attack.isFinite = true) (hpos : e.attack.gt .zero = true) : Reference.envValue e = .zero := by
  simp only [Reference.envValue, hact, hp, ht, F32.zero_div_of_pos hdur hpos, shape_zero]
  decide

theorem envValue_decay_start {e : Env} (hact : e.active = true) (hp : e.phase = .decay) (ht : e.t = .zero)
    (hsus : e.sustain.isFinite = true) (hdur : e.decay.isFinite = true) (hpos : e.decay.gt .zero = true) :
    Reference.envValue e = .one := by
  have hfin : (e.sustain.sub .one).isFinite = true := by
    refine isFinite_sub hsus rfl ?_
    have hone : Reference.value .one = 1 := by norm_num [Reference.value, F32.one]
    have hle := abs_value_le hsus
    rw [hone]
    calc |Reference.value e.sustain - 1| ≤ |Reference.value e.sustain| + |1| := abs_sub _ _
      _ < 2 ^ 128 - 2 ^ 103 := by rw [abs_one]; linarith
  obtain ⟨z, hz⟩ := F32.mul_zero_of_isFinite hfin
  simp only [Reference.envValue, hact, hp, ht, F32.zero_div_of_pos hdur hpos, shape_zero, hz]
  cases z <;> decide

theorem envValue_release_start {e : Env} (hact : e.active = true) (hp : e.phase = .release) (ht : e.t = .zero)
    (hsus : e.sustain.isFinite = true) (hdur : e.release.isFinite = true) (hpos : e.release.gt .zero = true) :
    (Reference.envValue e).eq e.sustain = true := by
  have hfin : (F32.zero.sub e.sustain).isFinite = true := by
    refine isFinite_sub rfl hsus ?_
    rw [value_zero, zero_sub, abs_neg]
    exact (abs_value_le hsus).trans_lt (by norm_num)
  obtain ⟨z, hz⟩ := F32.mul_zero_of_isFinite hfin
  obtain ⟨hsum, hunits⟩ := units_add_zero hsus z
  simp only [Reference.envValue, hact, hp, ht, F32.zero_div_of_pos hdur hpos, shape_zero, hz]
  exact (F32.eq_iff_units (F32.isNan_of_isFinite hsum) (F32.isNan_of_isFinite hsus)).mpr hunits

end Sys2Proof.Machine
end

