-- ==== Sys2Proof/Proofs/EnvelopeFamily.lean ====
section
/-! Proofs/EnvelopeFamily.lean: the obligations of spec/41_envelope.md. -/

namespace Sys2Proof.Machine

/-- Settles O16: the loop of R105 written out by phase. -/
theorem envRunResult : Obligations.EnvRunResult :=
  ⟨fun _ _ _ _ => Reads.decode ⟨rfl, rfl, rfl⟩,
    fun d0 s => congrArg Host.Outcome.next (respondNone_envRun_setEnv (laneReal d0) s s.env)⟩

/-- Settles O17: an inactive envelope is left alone; an active one jumps to RELEASE, and only the zero-time advance after the
jump can set a flag. -/
theorem envReleaseResult : Obligations.EnvReleaseResult := by
  refine ⟨fun _ _ _ _ => Reads.decode ⟨rfl, rfl, rfl⟩, fun s => ⟨fun hact => ?_, fun hact => ?_⟩⟩
  · show execEnvRelease s = _
    rw [execEnvRelease, hact]
    rfl
  · show execEnvRelease s = _
    rw [execEnvRelease, hact, ← envValue_eq]
    exact congrArg Host.Outcome.next (respondNone_envRun_setEnv .zero s s.env.released)

/-- Settles O18: the four registers are written, then a zero-time advance runs. -/
theorem envSetallResult : Obligations.EnvSetallResult :=
  ⟨fun _ _ _ _ => Reads.decode ⟨rfl, rfl, rfl⟩,
    fun _ _ _ _ s => congrArg Host.Outcome.next (respondNone_envRun_setEnv .zero s _)⟩

/-- Settles O19: each parameter's edit is its case of the rescale. -/
theorem envSetpResult : Obligations.EnvSetpResult :=
  ⟨fun id _ _ _ _ => Reads.decode ⟨by cases id <;> rfl, rfl, rfl⟩,
    fun d0 s => ⟨exec_envSetp _ d0 s (setParam_rescale_attack _ _ _), exec_envSetp _ d0 s (setParam_rescale_decay _ _ _),
      exec_envSetp _ d0 s (setParam_rescale_sustain _ _ _), exec_envSetp _ d0 s (setParam_rescale_release _ _ _)⟩⟩

/-- Settles O20: the first zero-time advance leaves a settled envelope, which the second leaves alone. -/
theorem envRunZeroIsIdempotent : Obligations.EnvRunZeroIsIdempotent := by
  obtain ⟨-, hrun⟩ := envRunResult
  intro s t h
  rw [hrun] at h ⊢
  cases h
  have hzero : F32.ofBits 0 = .zero := by decide
  have hnoFlag : s.evstat ||| (Reference.envRun .zero s.env).2 ||| 0 = s.evstat ||| (Reference.envRun .zero s.env).2 :=
    BitVec.or_zero
  simp only [hzero, refEnvRun_zero_twice, hnoFlag]

/-- Settles O21: SUSTAIN has no duration, so an advance stays in it, and the commands that write parameters or the shape keep
phase and activity until they advance. -/
theorem sustainIsLeftOnlyByThree : Obligations.SustainIsLeftOnlyByThree := by
  intro i s t h hact hp
  have stays (dt : F32) (e : Env) (ha : e.active = true) (hp : e.phase = .sustain) :
      (Reference.envRun dt e).1.active = true ∧ (Reference.envRun dt e).1.phase = .sustain := by
    rw [refEnvRun_sustain dt e ha hp]
    exact ⟨ha, hp⟩
  generalize t.env = e', exec_env h = hchange
  cases hchange with
  | keep => exact .inl ⟨hact, hp⟩
  | setall => exact .inl (stays _ _ hact hp)
  | setp => exact .inl (stays _ _ (by simpa using hact) (by simpa using hp))
  | setshape => exact .inl ⟨hact, hp⟩
  | start => exact .inr (.inr (.inl rfl))
  | run => exact .inl (stays _ _ hact hp)
  | release => exact .inr (.inl rfl)
  | stop => exact .inr (.inr (.inr rfl))
  | sample => exact .inl (stays _ _ hact hp)

/-- Settles O23: at time `+0` the curve is at `+0`, so the value is the level the phase starts from. -/
theorem phaseStartValues : Obligations.PhaseStartValues := by
  intro s hact ht hsus
  refine ⟨_, _, rfl, rfl, ?_⟩
  rw [ofBits_bits, envValue_eq]
  exact ⟨fun hp => envValue_attack_start hact hp ht, fun hp => envValue_decay_start hact hp ht hsus,
    fun hp => envValue_release_start hact hp ht hsus⟩

/-- Settles O13: both write the envelope directly and set their one flag. -/
theorem envStartStopResult : Obligations.EnvStartStopResult :=
  ⟨fun _ _ _ _ => ⟨Reads.decode ⟨rfl, rfl, rfl⟩, Reads.decode ⟨rfl, rfl, rfl⟩⟩, fun _ => ⟨rfl, rfl⟩⟩

/-- Settles O14: only the shape is written. -/
theorem envSetshapeResult : Obligations.EnvSetshapeResult :=
  ⟨fun sh _ _ _ _ => Reads.decode ⟨by cases sh <;> rfl, rfl, rfl⟩, fun _ _ => rfl⟩

/-- Settles O15: the lane is the pattern of `env_value`, a free quiet one for NaN. -/
theorem envGetResult : Obligations.EnvGetResult := by
  refine ⟨fun _ _ _ _ => Reads.decode ⟨rfl, rfl, rfl⟩, fun s => ⟨_, _, rfl, ?_⟩⟩
  obtain ⟨hbits, -⟩ := realsMoveBitExactly
  rw [← envValue_eq]
  exact hbits s.draws (envValue s.env)

end Sys2Proof.Machine
end

