-- ==== Sys2Proof/Proofs/Enclosures.lean ====
section
/-! Proofs/Enclosures.lean: the rounded arithmetic of spec/40_numerics.md R82 on intervals whose ends are numbers of the
format: where the exact result of an operation lies in such an interval, so does the rounded one. -/

namespace Sys2Proof

/-- The finite real `a` lies between `lo` and `hi`. -/
def F32.Within (a : F32) (lo hi : ℚ) : Prop :=
  a.isFinite = true ∧ lo ≤ Reference.value a ∧ Reference.value a ≤ hi

/-! ### The numbers of the format -/

/-- The number `q` is the value of a finite real (R80). -/
def Representable (q : ℚ) : Prop := ∃ c : F32, c.isFinite = true ∧ Reference.value c = q

theorem Representable.neg {q : ℚ} (h : Representable q) : Representable (-q) := by
  obtain ⟨c, hc, rfl⟩ := h
  exact ⟨c.neg, by simpa using hc, value_neg c⟩

theorem value_quarter : Reference.value .quarter = 1 / 4 := by norm_num [Reference.value, F32.quarter]

theorem value_half : Reference.value .half = 1 / 2 := by norm_num [Reference.value, F32.half]

theorem value_threeQuarters : Reference.value .threeQuarters = 3 / 4 := by
  have hfraction : (0x400000 : BitVec 23).toNat = 0x400000 := rfl
  norm_num [Reference.value, F32.threeQuarters, hfraction]

theorem value_one : Reference.value .one = 1 := by norm_num [Reference.value, F32.one]

theorem value_two : Reference.value .two = 2 := by norm_num [Reference.value, F32.two]

theorem value_four : Reference.value .four = 4 := by norm_num [Reference.value, F32.four]

theorem value_twoPi_pos : 0 < Reference.value .twoPi := (value_pos_iff rfl).mpr (by decide)

theorem Representable.zero : Representable 0 := ⟨.zero, rfl, value_zero⟩

theorem Representable.half : Representable (1 / 2) := ⟨.half, rfl, value_half⟩

theorem Representable.quarter : Representable (1 / 4) := ⟨.quarter, rfl, value_quarter⟩

theorem Representable.one : Representable 1 := ⟨.one, rfl, value_one⟩

theorem Representable.four : Representable 4 := ⟨.four, rfl, value_four⟩

theorem Representable.three : Representable 3 := by
  refine ⟨.fin false 128 0x400000, rfl, ?_⟩
  have hfraction : (0x400000 : BitVec 23).toNat = 0x400000 := rfl
  norm_num [Reference.value, hfraction]

/-! ### Rounding into an interval -/

/-- The number nearest to an exact result between two numbers of the format lies between them: if it lay outside, the end
it has passed would be nearer (R82). -/
theorem within_of_roundsTo {x : ℝ} {r : F32} {lo hi : ℚ} (h : Reference.RoundsTo x r) (hlo : Representable lo)
    (hhi : Representable hi) (hlow : (lo : ℝ) ≤ x) (hhigh : x ≤ (hi : ℝ)) : r.Within lo hi := by
  obtain ⟨c, hc, rfl⟩ := hlo
  obtain ⟨d, hd, rfl⟩ := hhi
  have hsize : |x| < 2 ^ 128 - 2 ^ 103 := by
    have hlo' : (-(2 ^ 128 - 2 ^ 104) : ℝ) ≤ Reference.value c := by exact_mod_cast (abs_le.mp (abs_value_le hc)).1
    have hhi' : (Reference.value d : ℝ) ≤ 2 ^ 128 - 2 ^ 104 := by exact_mod_cast (abs_le.mp (abs_value_le hd)).2
    exact abs_lt.mpr ⟨by linarith, by linarith⟩
  rw [Reference.RoundsTo, if_pos hsize] at h
  obtain ⟨hfin, hnear⟩ := h
  obtain ⟨hnearLow, -⟩ := hnear c hc
  obtain ⟨hnearHigh, -⟩ := hnear d hd
  rw [abs_of_nonpos (sub_nonpos.mpr hlow)] at hnearLow
  rw [abs_of_nonneg (sub_nonneg.mpr hhigh)] at hnearHigh
  have hge : (Reference.value c : ℝ) ≤ Reference.value r := by linarith [neg_le_abs ((Reference.value r : ℝ) - x)]
  have hle : (Reference.value r : ℝ) ≤ Reference.value d := by linarith [le_abs_self ((Reference.value r : ℝ) - x)]
  exact ⟨hfin, by exact_mod_cast hge, by exact_mod_cast hle⟩

theorem sub_within {a b : F32} {lo hi : ℚ} (ha : a.isFinite = true) (hb : b.isFinite = true) (hlo : Representable lo)
    (hhi : Representable hi) (hlow : lo ≤ Reference.value a - Reference.value b)
    (hhigh : Reference.value a - Reference.value b ≤ hi) : (a.sub b).Within lo hi :=
  within_of_roundsTo (roundsTo_sub ha hb) hlo hhi (by exact_mod_cast hlow) (by exact_mod_cast hhigh)

theorem mul_within {a b : F32} {lo hi : ℚ} (ha : a.isFinite = true) (hb : b.isFinite = true) (hlo : Representable lo)
    (hhi : Representable hi) (hlow : lo ≤ Reference.value a * Reference.value b)
    (hhigh : Reference.value a * Reference.value b ≤ hi) : (a.mul b).Within lo hi :=
  within_of_roundsTo (roundsTo_mul ha hb) hlo hhi (by exact_mod_cast hlow) (by exact_mod_cast hhigh)

/-! ### The range [-1, 1] -/

/-- An interval inside [-1, 1] is inside the range of R88 c. -/
theorem F32.Within.unitRange {a : F32} {lo hi : ℚ} (h : a.Within lo hi) (hlo : -1 ≤ lo) (hhi : hi ≤ 1) :
    a.UnitRange := by
  obtain ⟨hfin, hlow, hhigh⟩ := h
  rw [F32.UnitRange, F32.le_iff_value rfl hfin, F32.le_iff_value hfin rfl, value_neg, value_one]
  exact ⟨hlo.trans hlow, hhigh.trans hhi⟩

theorem F32.le_eq_true_iff {a b : F32} :
    a.le b = true ↔ a.isNan = false ∧ b.isNan = false ∧ a.units ≤ b.units := by
  simp [F32.le, ordered, and_assoc]

/-- The range of R88 c is symmetric. -/
theorem F32.UnitRange.neg {a : F32} (h : a.UnitRange) : a.neg.UnitRange := by
  obtain ⟨hlow, hhigh⟩ := h
  obtain ⟨-, hnan, hge⟩ := F32.le_eq_true_iff.mp hlow
  obtain ⟨-, -, hle⟩ := F32.le_eq_true_iff.mp hhigh
  have hnan' : a.neg.isNan = false := by cases a <;> trivial
  rw [F32.units_neg] at hge
  rw [F32.UnitRange, F32.le_eq_true_iff, F32.le_eq_true_iff, F32.units_neg, F32.units_neg]
  exact ⟨⟨rfl, hnan', by omega⟩, hnan', rfl, by omega⟩

end Sys2Proof
end

