-- ==== Sys2Proof/Proofs/OscillatorRules.lean ====
section
/-! Proofs/OscillatorRules.lean: the sub-operations of spec/42_oscillator.md as later proofs use them: the state that a
command leaves which replaces an oscillator and sets event flags, and the ranges of the waveforms (R131) and of their
integrals (R133) over the positions in [0, 1]. -/

namespace Sys2Proof.Machine

/-! ### What a command leaves -/

/-- The word with one bit set, by its number (R193). -/
theorem oneBit_eq_two_pow (n : ℕ) : oneBit n = BitVec.ofNat 32 (2 ^ n) := by
  apply BitVec.eq_of_toNat_eq
  rw [oneBit, BitVec.toNat_shiftLeft, BitVec.toNat_ofNat, Nat.shiftLeft_eq, BitVec.toNat_ofNat]
  simp

/-- The state in which a command answers that has replaced an oscillator and set events. -/
theorem respondNone_orEvents_setOsc (w : Word) (s : State) (k : OscId) (o : Osc) :
    respondNone (orEvents w (s.setOsc k o)) =
      { s.setOsc k o with evstat := s.evstat ||| w, rsp := some ⟨0, 0⟩ } := by
  cases k <;> rfl

/-- `OSC.START` and `OSC.STOP` (R126, R127) restart the oscillator and set their one event. -/
theorem respondNone_setEv_setOsc (e : Event) (s : State) (k : OscId) (o : Osc) :
    respondNone (setEv e (s.setOsc k o)) =
      { s.setOsc k o with evstat := s.evstat ||| BitVec.ofNat 32 (2 ^ e.bit), rsp := some ⟨0, 0⟩ } := by
  rw [← oneBit_eq_two_pow]
  exact respondNone_orEvents_setOsc (oneBit e.bit) s k o

/-- `OSC.SETW` (R123) at once and deferred. -/
theorem Osc.withWave_eq (o : Osc) (w : Waveform) :
    o.withWave w =
      if (Reference.frac (o.phase.add o.shift)).eq .zero then { o with sched := w, waveform := w }
      else { o with sched := w } := by
  have hposition : Reference.frac (o.phase.add o.shift) = o.shifted.frac := rfl
  rw [hposition, Osc.withWave]
  split_ifs <;> rfl

/-- The lane that a real leaves on carries it (R64). -/
theorem bits_carries (n : ℕ) (v : F32) : Reference.Carries (v.bits n) v := by
  obtain ⟨hbits, -⟩ := realsMoveBitExactly
  exact hbits n v

/-! ### The waveforms and their integrals over [0, 1] -/

/-- The triangle's three parts (R131): `4x` rises to 1, `2 - 4x` falls from 1 to -1, `4x - 4` rises from -1 to 0. -/
theorem tri_unitRange {x : F32} (h : x.Within 0 1) : (tri x).UnitRange := by
  obtain ⟨hx, hlow, hhigh⟩ := h
  have times4 {lo hi : ℚ} (hlo : Representable lo) (hhi : Representable hi) (hge : lo ≤ 4 * Reference.value x)
      (hle : 4 * Reference.value x ≤ hi) : (F32.four.mul x).Within lo hi :=
    mul_within rfl hx hlo hhi (by rwa [value_four]) (by rwa [value_four])
  simp only [tri, F32.lt_iff_value hx (b := .quarter) rfl, F32.lt_iff_value hx (b := .threeQuarters) rfl, value_quarter,
    value_threeQuarters]
  split_ifs with hrise hfall
  · exact (times4 .zero .one (by linarith) (by linarith)).unitRange (by norm_num) le_rfl
  · obtain ⟨hfin, hge, hle⟩ := times4 .one .three (by linarith) (by linarith)
    have hdiff : (F32.two.sub (F32.four.mul x)).Within (-1) 1 :=
      sub_within rfl hfin (.neg .one) .one (by linarith [value_two]) (by linarith [value_two])
    exact hdiff.unitRange le_rfl le_rfl
  · obtain ⟨hfin, hge, hle⟩ := times4 .three .four (by linarith) (by linarith)
    have hdiff : ((F32.four.mul x).sub .four).Within (-1) 0 :=
      sub_within hfin rfl (.neg .one) .zero (by linarith [value_four]) (by linarith [value_four])
    exact hdiff.unitRange le_rfl (by norm_num)

/-- `2 d d`, the parabola of the three parts of `triint` (R133), for `d` in [-1/4, 1/4]. -/
theorem two_mul_mul_within {d : F32} (h : d.Within (-(1 / 4)) (1 / 4)) :
    ((F32.two.mul d).mul d).Within (-(1 / 2)) (1 / 2) := by
  obtain ⟨hd, hdLow, hdHigh⟩ := h
  obtain ⟨hfin, hge, hle⟩ : (F32.two.mul d).Within (-(1 / 2)) (1 / 2) :=
    mul_within rfl hd (.neg .half) .half (by rw [value_two]; linarith) (by rw [value_two]; linarith)
  have hsize : |Reference.value (F32.two.mul d) * Reference.value d| ≤ 1 / 2 * (1 / 4) := by
    rw [abs_mul]
    exact mul_le_mul (abs_le.mpr ⟨hge, hle⟩) (abs_le.mpr ⟨hdLow, hdHigh⟩) (abs_nonneg _) (by norm_num)
  obtain ⟨hlow, hhigh⟩ := abs_le.mp hsize
  exact mul_within hfin hd (.neg .half) .half (by linarith) (by linarith)

/-- The three parts of `triint` (R133) are parabolas over a distance of at most 1/4: `x`, `x - 1/2` and `1 - x`. -/
theorem triint_unitRange {x : F32} (h : x.Within 0 1) : (triint x).UnitRange := by
  obtain ⟨hx, hlow, hhigh⟩ := h
  simp only [triint, F32.lt_iff_value hx (b := .quarter) rfl, F32.lt_iff_value hx (b := .threeQuarters) rfl,
    value_quarter, value_threeQuarters]
  split_ifs with hrise hfall
  · have hdist : x.Within (-(1 / 4)) (1 / 4) := ⟨hx, by linarith, hrise.le⟩
    exact (two_mul_mul_within hdist).unitRange (by norm_num) (by norm_num)
  · have hdist : (x.sub .half).Within (-(1 / 4)) (1 / 4) :=
      sub_within hx rfl (.neg .quarter) .quarter (by linarith [value_half]) (by linarith [value_half])
    obtain ⟨hfin, hge, hle⟩ := two_mul_mul_within hdist
    have hdiff : (F32.quarter.sub ((F32.two.mul (x.sub .half)).mul (x.sub .half))).Within (-1) 1 :=
      sub_within rfl hfin (.neg .one) .one (by linarith [value_quarter]) (by linarith [value_quarter])
    exact hdiff.unitRange le_rfl le_rfl
  · have hdist : (F32.one.sub x).Within (-(1 / 4)) (1 / 4) :=
      sub_within rfl hx (.neg .quarter) .quarter (by linarith [value_one]) (by linarith [value_one])
    exact (two_mul_mul_within hdist).unitRange (by norm_num) (by norm_num)

/-- The square is 1 or -1 at every position that is no NaN (R131). -/
theorem squareWave_unitRange {x : F32} (h : x.isNan = false) : (squareWave x).UnitRange := by
  unfold squareWave
  rw [h, if_neg Bool.false_ne_true]
  split_ifs
  · exact ⟨by decide, by decide⟩
  · exact ⟨by decide, by decide⟩

/-- The operand of sine and cosine is finite over [0, 1] (R131, R133). -/
theorem isFinite_twoPi_mul {x : F32} (h : x.Within 0 1) : (F32.twoPi.mul x).isFinite = true := by
  obtain ⟨hx, hlow, hhigh⟩ := h
  have hpos := value_twoPi_pos
  obtain ⟨hfin, -⟩ : (F32.twoPi.mul x).Within 0 (Reference.value .twoPi) :=
    mul_within rfl hx .zero ⟨_, rfl, rfl⟩ (mul_nonneg hpos.le hlow) (mul_le_of_le_one_right hpos.le hhigh)
  exact hfin

/-- The position of an oscillator with a finite shifted phase (R130). -/
theorem Osc.x_within {o : Osc} (h : o.shifted.isFinite = true) : o.x.Within 0 1 := by
  have hx : o.x.isFinite = true := F32.isFinite_frac h
  obtain ⟨hlow, hhigh⟩ := F32.frac_range h
  rw [← value_zero, ← value_one]
  exact ⟨hx, (F32.le_iff_value rfl hx).mp hlow, (F32.le_iff_value hx rfl).mp hhigh⟩

theorem oscValue_unitRange {o : Osc} (h : o.shifted.isFinite = true) : (oscValue o).UnitRange := by
  have hx := Osc.x_within h
  unfold oscValue
  cases o.waveform with
  | sine => exact (F32.cos_unitRange (isFinite_twoPi_mul hx)).neg
  | triangle => exact tri_unitRange hx
  | square => exact squareWave_unitRange (F32.isNan_frac h)

theorem oscIntegral_unitRange {o : Osc} (h : o.shifted.isFinite = true) : (oscIntegral o).UnitRange := by
  have hx := Osc.x_within h
  unfold oscIntegral
  cases o.waveform with
  | sine => exact F32.sin_unitRange (isFinite_twoPi_mul hx)
  | triangle => exact triint_unitRange hx
  | square => exact tri_unitRange hx

end Sys2Proof.Machine
end

