-- ==== Sys2Proof/Proofs/OscillatorFamily.lean ====
section
/-! Proofs/OscillatorFamily.lean: the obligations of spec/42_oscillator.md. -/

namespace Sys2Proof.Machine

/-- Settles O29: `osc_run` writes the one oscillator and at most its restart flag. -/
theorem oscRunResult : Obligations.OscRunResult := by
  refine ⟨fun k _ _ _ _ => Reads.decode ⟨by cases k <;> rfl, rfl, rfl⟩, fun k d0 s => ?_⟩
  show Host.Outcome.next (respondNone (oscRun k (laneReal d0) s)) = _
  rw [oscRun_eq, respondNone_orEvents_setOsc, oneBit_eq_two_pow]
  rfl

/-- Settles O31: `frac` of a finite number lies in [0, 1], and each waveform takes that interval into [-1, 1]. -/
theorem oscRanges : Obligations.OscRanges := by
  intro k s hfin
  obtain ⟨hlow, hhigh⟩ := F32.frac_range hfin
  refine ⟨hlow, hhigh, ⟨_, _, rfl, rfl, ?_⟩, ⟨_, _, rfl, rfl, ?_⟩⟩
  · rw [ofBits_bits]
    exact oscValue_unitRange hfin
  · rw [ofBits_bits]
    exact oscIntegral_unitRange hfin

/-- Settles O25: each stores its lane as the real it is. -/
theorem oscSetfSetpsResult : Obligations.OscSetfSetpsResult := fun k _ _ _ _ _ =>
  ⟨Reads.decode ⟨by cases k <;> rfl, rfl, rfl⟩, Reads.decode ⟨by cases k <;> rfl, rfl, rfl⟩, rfl, rfl⟩

/-- Settles O26: a real leaves as its pattern, the active flag as an integer. -/
theorem oscGetfGetpsIsactResult : Obligations.OscGetfGetpsIsactResult := fun k _ _ _ _ s =>
  ⟨Reads.decode ⟨by cases k <;> rfl, rfl, rfl⟩, Reads.decode ⟨by cases k <;> rfl, rfl, rfl⟩,
    Reads.decode ⟨by cases k <;> rfl, rfl, rfl⟩, ⟨_, _, rfl, bits_carries s.draws _⟩,
    ⟨_, _, rfl, bits_carries s.draws _⟩, rfl⟩

/-- Settles O27: the switch is immediate where the position is 0, whether or not the oscillator runs. -/
theorem oscSetwResult : Obligations.OscSetwResult := by
  refine ⟨fun k w _ _ _ _ => Reads.decode ⟨by cases k <;> cases w <;> rfl, rfl, rfl⟩, fun k w s => ?_⟩
  show Host.Outcome.next (respondNone (s.setOsc k ((s.osc k).withWave w))) = _
  rw [Osc.withWave_eq]
  rfl

/-- Settles O28: both restart the oscillator and set their one flag. -/
theorem oscStartStopResult : Obligations.OscStartStopResult := fun k _ _ _ _ s =>
  ⟨Reads.decode ⟨by cases k <;> rfl, rfl, rfl⟩, Reads.decode ⟨by cases k <;> rfl, rfl, rfl⟩,
    congrArg Host.Outcome.next (respondNone_setEv_setOsc (.oscStart k) s k _),
    congrArg Host.Outcome.next (respondNone_setEv_setOsc (.oscStop k) s k _)⟩

/-- Settles O30: the lanes are the patterns of `osc_value` and `osc_integral`, which do not look at the active flag. -/
theorem oscGetvGetiResult : Obligations.OscGetvGetiResult := by
  refine ⟨fun k _ _ _ _ =>
    ⟨Reads.decode ⟨by cases k <;> rfl, rfl, rfl⟩, Reads.decode ⟨by cases k <;> rfl, rfl, rfl⟩⟩, fun k s => ?_⟩
  rw [← oscValue_eq, ← oscIntegral_eq]
  exact ⟨⟨_, _, rfl, bits_carries s.draws _⟩, _, _, rfl, bits_carries s.draws _⟩

end Sys2Proof.Machine
end

