-- ==== Sys2Proof/Proofs/FaderFamily.lean ====
section
/-! Proofs/FaderFamily.lean: the obligation about the four commands of spec/43_fader.md. -/

namespace Sys2Proof.Machine

/-- The command words 0x30j0 to 0x33j0 of R67; a lane that a row does not name is ignored. -/
theorem decode_fadWords (j : FadId) (d0 d1 d2 d3 : Word) :
    decode ⟨BitVec.ofNat 16 (0x3000 + 16 * j.code), d0, d1, d2, d3⟩ = .ok (.fadSet j d0) ∧
    decode ⟨BitVec.ofNat 16 (0x3100 + 16 * j.code), d0, d1, d2, d3⟩ = .ok (.fadSet2 j d0 d1) ∧
    decode ⟨BitVec.ofNat 16 (0x3200 + 16 * j.code), d0, d1, d2, d3⟩ = .ok (.fadProceed j) ∧
    decode ⟨BitVec.ofNat 16 (0x3300 + 16 * j.code), d0, d1, d2, d3⟩ = .ok (.fadGet j) :=
  ⟨Reads.decode ⟨by cases j <;> rfl, rfl, rfl⟩, Reads.decode ⟨by cases j <;> rfl, rfl, rfl⟩,
    Reads.decode ⟨by cases j <;> rfl, rfl, rfl⟩, Reads.decode ⟨by cases j <;> rfl, rfl, rfl⟩⟩

/-- `FAD.SET` (R142): the step follows the write of the target. -/
theorem exec_fadSet (j : FadId) (d0 : Word) (s : State) :
    exec (.fadSet j d0) s = .next
      (respondNone (s.setFad j (Reference.proceed { s.fad j with target := F32.ofBits d0 }))) :=
  congrArg (fun t => Host.Outcome.next (respondNone t)) (fadToward_eq j (F32.ofBits d0) s)

/-- `FAD.SET2` (R143): the step already moves by the new step size. -/
theorem exec_fadSet2 (j : FadId) (d0 d1 : Word) (s : State) :
    exec (.fadSet2 j d0 d1) s = .next
      (respondNone
        (s.setFad j (Reference.proceed { s.fad j with target := F32.ofBits d0, step := F32.ofBits d1 }))) := by
  show Host.Outcome.next (respondNone (fadStep j (s.setFad j _))) = _
  rw [fadStep_eq, setFad_fad_same, setFad_twice]
  rfl

/-- `FAD.PROCEED` (R144) is one step of R141. -/
theorem exec_fadProceed (j : FadId) (s : State) :
    exec (.fadProceed j) s = .next (respondNone (s.setFad j (Reference.proceed (s.fad j)))) :=
  congrArg (fun t => Host.Outcome.next (respondNone t)) (fadStep_eq j s)

/-- Settles O33: each of the three writers leaves one step of R141 from the fader it has prepared, and `FAD.GET` answers the
pattern of the value, a free quiet one for NaN. -/
theorem fadCommandResults : Obligations.FadCommandResults :=
  ⟨decode_fadWords, fun j d0 d1 s =>
    ⟨exec_fadSet j d0 s, exec_fadSet2 j d0 d1 s, exec_fadProceed j s, _, _, rfl, bits_carries s.draws (s.fad j).value⟩⟩

end Sys2Proof.Machine
end

