-- ==== Sys2Proof/Proofs/ExactTerms.lean ====
section
/-! Proofs/ExactTerms.lean: the arithmetic of spec/40_numerics.md R82 with an operand of 1, which is exact on every real, and
with `+0` on the left, and the results of R82, R86 and R131 that are never `-0`. -/

namespace Sys2Proof

/-! ### One as an operand -/

/-- Rounding gives a number of the format back, the sign of a zero included (R82). -/
theorem F32.round_mag_eq (s : Bool) (e : Fin 255) (f : BitVec 23) : F32.round s (F32.mag e f) 1 = .fin s e f := by
  by_cases hmag : F32.mag e f = 0
  · obtain ⟨rfl, rfl⟩ := F32.mag_eq_zero_iff.mp hmag
    rw [hmag]
    exact F32.round_zero s Nat.one_pos
  · obtain ⟨hfin, hunits⟩ := round_mag s e f
    refine F32.eq_of_units_eq hfin rfl ?_ hunits
    rw [hunits, ← abs_ne_zero, abs_signed]
    exact_mod_cast hmag

/-- 1 is 2^149 units (R80). -/
theorem F32.mag_one : F32.mag 127 0 = 2 ^ 149 := by decide

theorem F32.one_mul (a : F32) : F32.one.mul a = a := by
  cases a with
  | nan => rfl
  | inf s => cases s <;> rfl
  | fin s e f =>
    simp only [F32.one, F32.mul, F32.mag_one, Nat.mul_comm (2 ^ 149), F32.round_scale _ _ (Nat.two_pow_pos 149),
      F32.round_mag_eq, Bool.false_bne]

theorem F32.mul_one (a : F32) : a.mul .one = a := by
  cases a with
  | nan => rfl
  | inf s => cases s <;> rfl
  | fin s e f =>
    simp only [F32.one, F32.mul, F32.mag_one, F32.round_scale _ _ (Nat.two_pow_pos 149), F32.round_mag_eq,
      Bool.bne_false]

theorem F32.div_one (a : F32) : a.div .one = a := by
  have hne : (2 : ℕ) ^ 149 ≠ 0 := (Nat.two_pow_pos 149).ne'
  cases a with
  | nan => rfl
  | inf s => cases s <;> rfl
  | fin s e f =>
    simp only [F32.one, F32.div, F32.mag_one, if_neg hne, F32.round_scale _ _ (Nat.two_pow_pos 149), F32.round_mag_eq,
      Bool.bne_false]

/-! ### `+0` on the left -/

theorem F32.add_comm (a b : F32) : a.add b = b.add a := by
  cases a <;> cases b <;> simp only [F32.add]
  case inf.inf s t => cases s <;> cases t <;> rfl
  case fin.fin s e f t e' f' => rw [Int.add_comm, Bool.and_comm]

/-- `+0` plus a real changes no real but `-0` (R82). -/
theorem F32.posZero_add {a : F32} (h : a ≠ .negZero) : F32.zero.add a = a := by
  rw [F32.add_comm, F32.add_posZero h]

/-- `+0` times a finite real is a zero (R82). -/
theorem F32.zero_mul_of_isFinite {a : F32} (ha : a.isFinite = true) : ∃ s, F32.zero.mul a = .fin s 0 0 := by
  obtain ⟨s, e, f, rfl⟩ := F32.exists_fin ha
  refine ⟨false != s, ?_⟩
  simp only [F32.mul, F32.zero, F32.mag_zero, Nat.zero_mul]
  exact F32.round_zero _ (Nat.two_pow_pos 149)

/-! ### Results that are not `-0` -/

/-- A difference is `-0` only for `-0` less `+0` (R82). -/
theorem F32.sub_eq_negZero {a b : F32} (h : a.sub b = .negZero) : a = .negZero ∧ b = .zero := by
  obtain ⟨ha, hb⟩ := F32.add_eq_negZero h
  refine ⟨ha, ?_⟩
  cases b with
  | nan | inf => cases hb
  | fin s e f => simpa [F32.neg, F32.negZero, F32.zero] using hb

/-- `frac` of a zero of either sign is `+0`, and no other difference gives `-0` (R86). -/
theorem F32.frac_ne_negZero (a : F32) : a.frac ≠ .negZero := by
  intro h
  obtain ⟨rfl, hfloor⟩ := F32.sub_eq_negZero h
  rw [F32.negZero, F32.floor_zero] at hfloor
  cases hfloor

theorem F32.exists_fin_false {a : F32} (ha : a.isFinite = true) (h : 0 ≤ a.units) (hne : a ≠ .negZero) :
    ∃ e f, a = .fin false e f := by
  obtain ⟨s, e, f, rfl⟩ := F32.exists_fin ha
  cases s with
  | false => exact ⟨e, f, rfl⟩
  | true =>
    simp only [units_fin, signed, if_true] at h
    obtain ⟨rfl, rfl⟩ := F32.mag_eq_zero_iff.mp (by omega : F32.mag e f = 0)
    exact absurd rfl hne

/-- Rounding keeps the sign (R82). -/
theorem F32.round_false_ne_negZero (n d : ℕ) : F32.round false n d ≠ .negZero := by
  unfold F32.round F32.pack F32.negZero
  dsimp only
  split_ifs <;> simp

/-- The triangle (R131) is never `-0` at a position: its first part is a product of two reals of positive sign, the others
are differences with a nonzero number. -/
theorem tri_frac_ne_negZero (a : F32) : Reference.tri (Reference.frac a) ≠ .negZero := by
  cases a with
  | nan => decide
  | inf s => cases s <;> decide
  | fin s e f =>
    have hfin : (F32.fin s e f).isFinite = true := rfl
    obtain ⟨e', f', hpos⟩ := F32.exists_fin_false (F32.isFinite_frac hfin) (F32.frac_units_range hfin).1
      (F32.frac_ne_negZero _)
    have hx : Reference.frac (.fin s e f) = .fin false e' f' := hpos
    rw [hx]
    unfold Reference.tri
    split_ifs
    · exact F32.round_false_ne_negZero _ _
    · intro h
      exact absurd (F32.sub_eq_negZero h).1 (by decide)
    · intro h
      exact absurd (F32.sub_eq_negZero h).2 (by decide)

end Sys2Proof
end

