-- ==== Sys2Proof/Proofs/EngineRules.lean ====
section
/-! Proofs/EngineRules.lean: `ENG.SAMPLE` (spec/44_engine.md) as later proofs use it: what steps 1 to 9 leave in each item,
what a tap of the delay reader and the index fault are by the words of R167 to R169, the scenario of R170 and the state at
reset; and what no command but `SYS.CSRW` writes (spec/10_state.md R18, spec/60_exceptions.md R200). -/

namespace Sys2Proof.Machine

/-! ### Steps 1 to 9 on each item -/

theorem engModulate_osc3 (s : State) :
    (engModulate s).osc3 = (Reference.router s.cfg s.osc3 s.osc2 s.osc1).osc3 := by
  rw [engModulate_eq, engShape_eq]

theorem engModulate_osc2 (s : State) :
    (engModulate s).osc2 = (Reference.router s.cfg s.osc3 s.osc2 s.osc1).osc2 := by
  rw [engModulate_eq, engShape_eq]

theorem engModulate_osc1 (s : State) :
    (engModulate s).osc1 = (Reference.router s.cfg s.osc3 s.osc2 s.osc1).osc1 := by
  rw [engModulate_eq, engShape_eq]

/-! ### The delay reader (R167 to R169) -/

/-- The tap of the machine is every real that the words of R168 and R169 allow. -/
theorem tap_of_isTap {u x : F32} {c : Channel} {s : State} (h : Reference.IsTap u c s x) :
    tap Config.cap c (delayIndex Config.cap u) s = x := by
  obtain ⟨hsample, hnan⟩ := h
  by_cases hin : Reference.inRange u
  · obtain ⟨n, htrunc, hlow, hhigh⟩ := hin
    obtain ⟨m, rfl⟩ := Int.eq_ofNat_of_zero_le hlow
    have hm : m ≤ Config.cap - 1 := by omega
    rw [delayIndex_eq u m htrunc hm, hsample m htrunc hm]
    rfl
  · have hnone : delayIndex Config.cap u = none := by
      rwa [← Option.not_isSome_iff_eq_none, delayIndex_isSome]
    rw [hnone, hnan hin]
    rfl

/-- An output sample from its two taps (R169). -/
theorem outSample_of_isTap {c : Channel} {s : State} {dry wet : F32} (hdry : Reference.IsTap s.cfg.bufofs c s dry)
    (hwet : Reference.IsTap (s.cfg.bufofs.add s.fad0.value) c s wet) :
    outSample Config.cap c s =
      ((F32.one.sub s.fad2.value).mul dry).add (s.fad2.value.mul (s.fad1.value.mul wet)) := by
  rw [outSample, dryDelay, wetDelay, tap_of_isTap hdry, tap_of_isTap hwet]

/-- A tap reads the history and the write position only (R43). -/
theorem tap_congr {s t : State} (hhist : t.hist = s.hist) (hwr : t.wr = s.wr) (cap : Nat) (c : Channel)
    (n : Option Nat) : tap cap c n t = tap cap c n s := by
  cases n with
  | none => rfl
  | some n => rw [tap, histRead, hhist, hwr]; rfl

/-- The output samples (R169) are those of the state that `ENG.SAMPLE` leaves. -/
theorem outSample_engSampleWith (cap : Nat) (d0 d1 : Word) (s : State) (c : Channel) :
    outSample cap c (engSampleWith cap d0 d1 s) = outSample cap c (histPush cap d0 d1 (engModulate s)) := by
  have htap := tap_congr (s := histPush cap d0 d1 (engModulate s)) (t := engSampleWith cap d0 d1 s)
    (by simp [engSampleWith_hist]) (by simp)
  simp only [outSample, dryDelay, wetDelay, htap, engSampleWith_cfg, engSampleWith_fad0, engSampleWith_fad1,
    engSampleWith_fad2, histPush_cfg, histPush_fad0, histPush_fad1, histPush_fad2]

/-- The response of `ENG.SAMPLE` (R169) read off the state that it leaves. -/
theorem engSampleWith_rsp_eq (cap : Nat) (d0 d1 : Word) (s : State) :
    (engSampleWith cap d0 d1 s).rsp =
      some ⟨(outSample cap .ch0 (engSampleWith cap d0 d1 s)).bits s.draws,
        (outSample cap .ch1 (engSampleWith cap d0 d1 s)).bits (s.draws + 1)⟩ := by
  rw [engSampleWith_rsp, outSample_engSampleWith, outSample_engSampleWith]

/-- A lane of the response carries the output of every two taps that the words of R168 and R169 allow. -/
theorem lane_carries {c : Channel} {s : State} {u dry wet : F32} (n : ℕ) (hu : s.cfg.bufofs = u)
    (hdry : Reference.IsTap u c s dry) (hwet : Reference.IsTap (u.add s.fad0.value) c s wet) :
    Reference.Carries ((outSample Config.cap c s).bits n)
      (((F32.one.sub s.fad2.value).mul dry).add (s.fad2.value.mul (s.fad1.value.mul wet))) := by
  subst hu
  rw [← outSample_of_isTap hdry hwet]
  exact bits_carries n _

/-- `FAULT` after `ENG.SAMPLE` (R168): the index fault where one of the two offsets leaves the history. -/
theorem engSampleWith_fault_cases (d0 d1 : Word) (s : State) :
    (Reference.inRange s.cfg.bufofs ∧
        Reference.inRange (s.cfg.bufofs.add (engSampleWith Config.cap d0 d1 s).fad0.value) ∧
        (engSampleWith Config.cap d0 d1 s).fault = s.fault) ∨
      (¬(Reference.inRange s.cfg.bufofs ∧
          Reference.inRange (s.cfg.bufofs.add (engSampleWith Config.cap d0 d1 s).fad0.value)) ∧
        (engSampleWith Config.cap d0 d1 s).fault = s.fault ||| 2) := by
  have hdry : (dryDelay Config.cap (engModulate s)).isSome = true ↔ Reference.inRange s.cfg.bufofs := by
    rw [dryDelay, delayIndex_isSome, engModulate_cfg]
  have hwet : (wetDelay Config.cap (engModulate s)).isSome = true ↔
      Reference.inRange (s.cfg.bufofs.add (engSampleWith Config.cap d0 d1 s).fad0.value) := by
    rw [wetDelay, delayIndex_isSome, engModulate_cfg, engSampleWith_fad0]
  rw [engSampleWith_fault, ← hdry, ← hwet, ← Bool.and_eq_true]
  split_ifs with hin
  · obtain ⟨hd, hw⟩ := Bool.and_eq_true_iff.mp hin
    exact .inl ⟨hd, hw, rfl⟩
  · exact .inr ⟨hin, rfl⟩

/-- The delay reader reads the history that the push of the same command leaves (R166). -/
theorem histRead_engSampleWith (cap : Nat) (d0 d1 : Word) (s : State) (c : Channel) (n : Nat) :
    histRead cap c n (engSampleWith cap d0 d1 s) = histRead cap c n (histPush cap d0 d1 s) := by
  rw [histRead, engSampleWith_hist, engSampleWith_wr, histRead, histPush_wr]

/-! ### One oscillator alone (R170) -/

/-- With osc3 and osc2 OFF the signal is osc1's value at amplitude 1, added to the start value. -/
theorem router_signal_of_osc1_alone {g : EngCfg} (h3 : g.m3 = .off) (h2 : g.m2 = .off) (h1 : g.m1 = .lfo)
    (o3 o2 o1 : Osc) :
    (Reference.router g o3 o2 o1).signal =
      F32.zero.add (F32.one.mul (Reference.oscValue (Reference.router g o3 o2 o1).osc1)) := by
  simp [Reference.router, h3, h2, h1]

/-- An oscillator whose active and scheduled waveform is the triangle keeps it in the router (R128). -/
theorem router_osc1_triangle (g : EngCfg) (o3 o2 : Osc) {o1 : Osc} (hwave : o1.waveform = .triangle)
    (hsched : o1.sched = .triangle) : (Reference.router g o3 o2 o1).osc1.waveform = .triangle := by
  obtain ⟨-, -, ⟨-, -, hkeep | hkeep⟩, -⟩ := router_keeps g o3 o2 o1
  · rw [hkeep, hwave]
  · rw [hkeep, hsched]

/-- The value of a triangle (R131). -/
theorem oscValue_triangle {o : Osc} (h : o.waveform = .triangle) :
    Reference.oscValue o = Reference.tri (Reference.frac (o.phase.add o.shift)) := by
  simp only [Reference.oscValue, h]

/-- With no additive modulator step 5 divides by 1 (R160). -/
theorem divisor_of_off {g : EngCfg} (h3 : g.m3 = .off) (h2 : g.m2 = .off) : Reference.divisor g = .one := by
  simp [Reference.divisor, h3, h2]

/-- An envelope sustained at a level stays there (R101, R105). -/
theorem envValue_envRun_sustain (dt : F32) {e : Env} (hact : e.active = true) (hphase : e.phase = .sustain) :
    Reference.envValue (Reference.envRun dt e).1 = e.sustain := by
  rw [refEnvRun_sustain dt e hact hphase]
  simp [Reference.envValue, hact, hphase]

/-- The signal of a triangle that reaches the faders (R170): no step changes it, since the triangle is never `-0`. -/
theorem signal_of_triangle_alone {g : EngCfg} (h3 : g.m3 = .off) (h2 : g.m2 = .off) (h1 : g.m1 = .lfo) (o3 o2 : Osc)
    {o1 : Osc} (hwave : o1.waveform = .triangle) (hsched : o1.sched = .triangle) :
    ((Reference.router g o3 o2 o1).signal.div (Reference.divisor g)).mul .one =
      Reference.tri (Reference.frac ((Reference.router g o3 o2 o1).osc1.phase.add
        (Reference.router g o3 o2 o1).osc1.shift)) := by
  rw [router_signal_of_osc1_alone h3 h2 h1, divisor_of_off h3 h2, F32.mul_one, F32.div_one, F32.one_mul,
    oscValue_triangle (router_osc1_triangle g o3 o2 hwave hsched), F32.posZero_add (tri_frac_ne_negZero _)]

/-! ### At reset (R150, R211) -/

/-- The mix of R169 with `amp` and `mix` at `+0` is its dry tap, up to the sign of a zero. -/
theorem dryMix_eq {a : F32} (ha : a.isFinite = true) :
    (((F32.one.sub .zero).mul a).add (F32.zero.mul (F32.zero.mul a))).eq a = true := by
  obtain ⟨s, hs⟩ := F32.zero_mul_of_isFinite ha
  obtain ⟨s', hs'⟩ := F32.zero_mul_of_isFinite (a := .fin s 0 0) rfl
  obtain ⟨hfin, hunits⟩ := units_add_zero ha s'
  have hone : F32.one.sub .zero = .one := by decide
  rw [hone, F32.one_mul, hs, hs', F32.eq_iff_units (F32.isNan_of_isFinite hfin) (F32.isNan_of_isFinite ha), hunits]

/-- Delay 0 lies in a history of any capacity (R167). -/
theorem inRange_zero : Reference.inRange .zero := by
  have hcap : 0 < Config.cap := Nat.succ_pos _
  exact ⟨0, by decide, le_rfl, by omega⟩

/-- The tap at offset `+0` is the newest sample (R43, R168). -/
theorem isTap_zero (c : Channel) (s : State) :
    Reference.IsTap .zero c s (F32.ofBits (histRead Config.cap c 0 s)) := by
  refine ⟨fun n htrunc _ => ?_, fun hout => absurd inRange_zero hout⟩
  have hzero : F32.zero.trunc = some 0 := by decide
  rw [hzero, Option.some.injEq] at htrunc
  obtain rfl : n = 0 := by omega
  rfl

/-- The faders after `ENG.SAMPLE` at reset: `shift` takes over its target, which is `-0` (R163); `amp` and `mix` stay at
`+0`, `amp` because its step is 0 (R164). -/
theorem engModulate_reset_faders :
    (engModulate State.reset).fad0.value = .negZero ∧ (engModulate State.reset).fad1.value = .zero ∧
      (engModulate State.reset).fad2.value = .zero := by
  decide

/-- At reset `ENG.SAMPLE` reads both taps at delay 0, where it has just pushed its operands (R166). -/
theorem isTap_reset (c : Channel) (d0 d1 : Word) :
    Reference.IsTap .zero c (engSampleWith Config.cap d0 d1 State.reset) (F32.ofBits (channelWord c (d0, d1))) := by
  have hcap : State.reset.wr < Config.cap := Nat.succ_pos _
  rw [← histRead_histPush_zero (d0, d1) c hcap, ← histRead_engSampleWith]
  exact isTap_zero c _

/-! ### The configuration and `EVMASK` under a command -/

@[simp] theorem envRun_cfg (dt : F32) (s : State) : (envRun dt s).cfg = s.cfg := by
  rw [envRun_eq, orEvents_cfg, setEnv_cfg]

@[simp] theorem envRun_evmask (dt : F32) (s : State) : (envRun dt s).evmask = s.evmask := by
  rw [envRun_eq, orEvents_evmask, setEnv_evmask]

@[simp] theorem oscRun_cfg (k : OscId) (dt : F32) (s : State) : (oscRun k dt s).cfg = s.cfg := by
  rw [oscRun_eq, orEvents_cfg, setOsc_cfg]

@[simp] theorem oscRun_evmask (k : OscId) (dt : F32) (s : State) : (oscRun k dt s).evmask = s.evmask := by
  rw [oscRun_eq, orEvents_evmask, setOsc_evmask]

@[simp] theorem fadStep_cfg (j : FadId) (s : State) : (fadStep j s).cfg = s.cfg := setFad_cfg _ _ _

@[simp] theorem fadStep_evmask (j : FadId) (s : State) : (fadStep j s).evmask = s.evmask := setFad_evmask _ _ _

@[simp] theorem fadToward_cfg (j : FadId) (v : F32) (s : State) : (fadToward j v s).cfg = s.cfg := by
  rw [fadToward_eq, setFad_cfg]

@[simp] theorem fadToward_evmask (j : FadId) (v : F32) (s : State) : (fadToward j v s).evmask = s.evmask := by
  rw [fadToward_eq, setFad_evmask]

/-- The state from which `ENV.RELEASE` answers (R107), active or not, has the configuration of the state before it. -/
theorem release_config (s : State) :
    (if !s.env.active then s else envRun .zero (s.setEnv s.env.released)).cfg = s.cfg ∧
      (if !s.env.active then s else envRun .zero (s.setEnv s.env.released)).evmask = s.evmask := by
  split_ifs <;> simp

/-- What a command can do to the configuration and to `EVMASK`: `SYS.CSRW` writes them, every other command leaves them. -/
theorem exec_config {i : Instr} {s t : State} (h : exec i s = .next t) :
    (∃ r d, i = .sysCsrw r d) ∨ (t.cfg = s.cfg ∧ t.evmask = s.evmask) := by
  cases i <;> cases h
  case sysCsrw r d => exact .inl ⟨r, d, rfl⟩
  case envRelease => exact .inr (release_config s)
  all_goals exact .inr (by simp)

end Sys2Proof.Machine
end

