-- ==== Sys2Proof/Proofs/EngineFamily.lean ====
section
/-! Proofs/EngineFamily.lean: the obligations of spec/44_engine.md, and that of spec/60_exceptions.md R200 on the
configuration. -/

namespace Sys2Proof.Machine

/-- Settles O37: steps 1 to 9 as an update of the state, which step 10 leaves but for the response, the history and
`FAULT`. -/
theorem engModulationResult : Obligations.EngModulationResult := by
  intro d0 d1 s
  refine ⟨_, rfl, ?_⟩
  simp only [engSampleWith_osc3, engSampleWith_osc2, engSampleWith_osc1, engSampleWith_env, engSampleWith_fad0,
    engSampleWith_fad1, engSampleWith_fad2, engSampleWith_evstat, engSampleWith_cfg, engSampleWith_evmask,
    engSampleWith_accepted, engSampleWith_rst, engModulate_eq, engShape_eq, and_self]

/-- Settles O38: the response is that of the taps which the words of R168 and R169 describe, and the index check is
`inRange`. -/
theorem engOutputResult : Obligations.EngOutputResult := by
  intro d0 d1 s
  refine ⟨_, _, _, rfl, engSampleWith_rsp_eq _ _ _ _, ?_⟩
  have hcfg : (engSampleWith Config.cap d0 d1 s).cfg.bufofs = s.cfg.bufofs := by simp
  refine ⟨fun dry wet => lane_carries s.draws hcfg, fun dry wet => lane_carries (s.draws + 1) hcfg, ?_⟩
  rcases engSampleWith_fault_cases d0 d1 s with ⟨hdry, hwet, hfault⟩ | ⟨hout, hfault⟩
  · exact ⟨fun _ _ => hfault, fun hout => absurd ⟨hdry, hwet⟩ hout⟩
  · exact ⟨fun hdry hwet => absurd ⟨hdry, hwet⟩ hout, fun _ => hfault⟩

/-- Settles O39: the history is that of the push, and the slots of the two channels are the eight bytes it writes. -/
theorem engHistoryResult : Obligations.EngHistoryResult := by
  intro d0 d1 s
  refine ⟨_, rfl, engSampleWith_wr _ _ _ _, ?_⟩
  rw [engSampleWith_hist, histRead_engSampleWith, histRead_engSampleWith, histPush_slot, histPush_slot,
    if_pos rfl, if_pos rfl]
  refine ⟨rfl, rfl, fun a h0 h1 => histPush_read_other _ _ _ _ _ ?_, fun hwr => ?_⟩
  · simp only [histAddr, Channel.num] at h0 h1
    omega
  · exact ⟨histRead_histPush_zero (d0, d1) .ch0 hwr, histRead_histPush_zero (d0, d1) .ch1 hwr⟩

/-- Settles O41: the router and `env_run` keep what R171 lists, a fader's step is not written, and the index fault is the
other bit of `FAULT`. -/
theorem engSampleNeverWrites : Obligations.EngSampleNeverWrites := by
  intro d0 d1 s
  refine ⟨_, rfl, ?_⟩
  obtain ⟨⟨hsched3, hact3, hshift3, -⟩, ⟨hsched2, hact2, -⟩, ⟨hsched1, hact1, -⟩, huser⟩ :=
    router_keeps s.cfg s.osc3 s.osc2 s.osc1
  obtain ⟨hattack, hdecay, hsustain, hrelease, hshape⟩ := refEnvRun_keeps (F32.one.div s.cfg.rate) s.env
  rw [engSampleWith_env, engModulate_env, engSampleWith_osc1, engSampleWith_osc3, engModulate_osc1, engModulate_osc3]
  refine ⟨by simp, fun j => ?_, fun k => ?_, hshift3, huser, hattack, hdecay, hsustain, hrelease, hshape, by simp, ?_⟩
  · obtain ⟨v, hv⟩ := engModulate_fad s j
    rw [engSampleWith_fad, hv, proceed_step]
  · rw [engSampleWith_osc]
    cases k with
    | osc1 => rw [State.osc, engModulate_osc1]; exact ⟨hsched1, hact1⟩
    | osc2 => rw [State.osc, engModulate_osc2]; exact ⟨hsched2, hact2⟩
    | osc3 => rw [State.osc, engModulate_osc3]; exact ⟨hsched3, hact3⟩
  · rcases engSampleWith_fault_cases d0 d1 s with ⟨-, -, hfault⟩ | ⟨-, hfault⟩ <;> rw [hfault]
    simp

/-- Settles O43: the target of the amplitude fader is that of O37, where the divisor and the envelope are 1. -/
theorem triangleReachesTheGain : Obligations.TriangleReachesTheGain := by
  intro d0 d1 s h3 h2 h1 hwave hsched hact hphase hsustain
  obtain ⟨t, hexec, -, -, hosc1, -, -, hfad1, -⟩ := engModulationResult d0 d1 s
  refine ⟨t, hexec, ?_⟩
  rw [hfad1, proceed_target, hosc1, envValue_envRun_sustain _ hact hphase, hsustain,
    signal_of_triangle_alone h3 h2 h1 _ _ hwave hsched]

/-- Settles O49: of all commands only `SYS.CSRW` reaches the configuration or `EVMASK`. -/
theorem configurationOnlyByCsrw : Obligations.ConfigurationOnlyByCsrw := by
  intro i s t hexec hother
  rcases exec_config hexec with ⟨r, d, hcsrw⟩ | hkeeps
  · exact absurd hcsrw (hother r d)
  · exact hkeeps

/-- Settles O42: the outputs and the fault are those of O38, where `amp` and `mix` are 0 and both offsets are zeros. -/
theorem sampleAtResetIsAWire : Obligations.SampleAtResetIsAWire := by
  intro d0 d1 h0 h1
  obtain ⟨t, r0, r1, hexec, hrsp, hlane0, hlane1, hin, -⟩ := engOutputResult d0 d1 State.reset
  refine ⟨t, r0, r1, hexec, hrsp, ?_⟩
  obtain rfl : engSampleWith Config.cap d0 d1 State.reset = t := Host.Outcome.next.inj hexec
  obtain ⟨hshift, hamp, hmix⟩ := engModulate_reset_faders
  have hdry : State.reset.cfg.bufofs = .zero := rfl
  have hwet : F32.zero.add .negZero = .zero := by decide
  simp only [engSampleWith_fad0, engSampleWith_fad1, engSampleWith_fad2, hshift, hamp, hmix, hdry, hwet]
    at hlane0 hlane1 hin
  obtain ⟨hr0, -⟩ := hlane0 _ _ (isTap_reset .ch0 d0 d1) (isTap_reset .ch0 d0 d1)
  obtain ⟨hr1, -⟩ := hlane1 _ _ (isTap_reset .ch1 d0 d1) (isTap_reset .ch1 d0 d1)
  rw [hr0, hr1]
  exact ⟨dryMix_eq h0, dryMix_eq h1, hin inRange_zero inRange_zero⟩

end Sys2Proof.Machine
end

