-- ==== Sys2Proof/Proofs/RegisterRules.lean ====
section
/-! Proofs/RegisterRules.lean: the register port of spec/45_system.md R180 to R182: the packed status words of R25 as
numbers, which words are writes, what a write stores, and what the next read of the same register finds. -/

namespace Sys2Proof

/-! ### The mode codes both ways (R66) -/

theorem RouteMode.ofCode_eq_some {n : ℕ} {m : RouteMode} : RouteMode.ofCode n = some m ↔ n = m.code := by
  constructor
  · intro h
    unfold RouteMode.ofCode at h
    split at h <;> cases h <;> rfl
  · rintro rfl
    cases m <;> rfl

theorem Osc1Mode.ofCode_eq_some {n : ℕ} {m : Osc1Mode} : Osc1Mode.ofCode n = some m ↔ n = m.code := by
  constructor
  · intro h
    unfold Osc1Mode.ofCode at h
    split at h <;> cases h <;> rfl
  · rintro rfl
    cases m <;> rfl

theorem RouteMode.code_lt (m : RouteMode) : m.code < 16 := by cases m <;> decide

theorem Osc1Mode.code_lt (m : Osc1Mode) : m.code < 16 := by cases m <;> decide

end Sys2Proof

namespace Sys2Proof.Machine

/-! ### Packed words (R25) -/

/-- A code moved up within the word. -/
theorem toNat_codeWord_shiftLeft {i c : ℕ} (h : 2 ^ i * c < 2 ^ 32) : (codeWord c <<< i).toNat = c <<< i := by
  have hc : c < 2 ^ 32 := lt_of_le_of_lt (Nat.le_mul_of_pos_left c (Nat.two_pow_pos i)) h
  rw [Nat.mul_comm] at h
  rw [codeWord, BitVec.toNat_shiftLeft, BitVec.toNat_ofNat, Nat.mod_eq_of_lt hc, Nat.shiftLeft_eq, Nat.mod_eq_of_lt h]

/-- A flag in bit 0, a code from bit 1 and a code from bit `j`, where the first code ends below bit `j`. -/
theorem toNat_packed (b : Bool) {m n j : ℕ} (hm : 2 * m + 1 < 2 ^ j) (hn : 2 ^ j * (n + 1) ≤ 2 ^ 32) :
    (flagWord b ||| (codeWord m <<< 1) ||| (codeWord n <<< j)).toNat = (if b then 1 else 0) + 2 * m + 2 ^ j * n := by
  have hflag : (flagWord b).toNat = if b then 1 else 0 := by cases b <;> rfl
  have hbit : (if b then 1 else 0) < 2 ^ 1 := by cases b <;> decide
  have hj : 2 ^ j * n + 2 ^ j ≤ 2 ^ 32 := hn
  have hlow : (if b then 1 else 0) ||| m <<< 1 = (if b then 1 else 0) + 2 * m := by
    rw [Nat.or_comm, ← Nat.shiftLeft_add_eq_or_of_lt hbit, Nat.shiftLeft_eq]
    omega
  have hlt : (if b then 1 else 0) + 2 * m < 2 ^ j := by omega
  rw [BitVec.toNat_or, BitVec.toNat_or, hflag, toNat_codeWord_shiftLeft (by omega),
    toNat_codeWord_shiftLeft (by omega), hlow, Nat.or_comm, ← Nat.shiftLeft_add_eq_or_of_lt hlt, Nat.shiftLeft_eq]
  ring

theorem envStatWord_toNat (e : Env) :
    (envStatWord e).toNat = (if e.active then 1 else 0) + 2 * e.phase.code + 16 * e.shape.code :=
  toNat_packed e.active (j := 4) (by cases e.phase <;> decide) (by cases e.shape <;> decide)

theorem oscStatWord_toNat (o : Osc) :
    (oscStatWord o).toNat = (if o.active then 1 else 0) + 2 * o.waveform.code + 8 * o.sched.code :=
  toNat_packed o.active (j := 3) (by cases o.waveform <;> decide) (by cases o.sched <;> decide)

/-- The code of a mode register, as the word that R180 answers. -/
theorem codeWord_modeCode_toNat (g : EngCfg) (k : OscId) : (codeWord (g.modeCode k)).toNat = g.modeCode k := by
  have hlt : g.modeCode k < 16 := by
    cases k with
    | osc1 => exact g.m1.code_lt
    | osc2 => exact g.m2.code_lt
    | osc3 => exact g.m3.code_lt
  exact Nat.mod_eq_of_lt (by omega)

/-! ### Reads (R180) -/

/-- The lane `r0` shows a register's content (R25): a real as its pattern, a word as it is. -/
def CsrValue.ShownBy (r0 : Word) : CsrValue → Prop
  | .real v => Reference.Carries r0 v
  | .word w => r0 = w

/-- `SYS.CSRR` (R180) answers the register's content, and changes the response and the free-pattern counter only. -/
theorem exec_csrr (r : Csr) (s : State) :
    ∃ r0 n, exec (.sysCsrr r) s = .next { s with rsp := some ⟨r0, 0⟩, draws := n } ∧ (csrRead r s).ShownBy r0 := by
  have hexec : exec (.sysCsrr r) s = .next (respondCsr (csrRead r s) s) := rfl
  rcases respondCsr_cases (csrRead r s) s with ⟨v, hv, hrsp⟩ | ⟨w, hw, hrsp⟩
  · exact ⟨_, _, hexec.trans (congrArg _ hrsp), hv ▸ bits_carries s.draws v⟩
  · exact ⟨_, _, hexec.trans (congrArg _ hrsp), hw ▸ rfl⟩

/-! ### Which words are writes (R181, R68) -/

/-- The word `0x5100 + n` decodes to the write of the register numbered `n`, where that register is writable and admits
the lane. -/
theorem decode_csrwWord_eq_ok {n : ℕ} (hn : n < 256) {d d1 d2 d3 : Word} {i : Instr} :
    decode ⟨BitVec.ofNat 16 (0x5100 + n), d, d1, d2, d3⟩ = .ok i ↔
      ∃ r : Csr, n = r.num ∧ r.writable = true ∧ r.admits d = true ∧ .sysCsrw r d = i := by
  rw [decode_csrwWord n hn]
  simp only [← Csr.ofNum_eq_some hn]
  cases Csr.ofNum n with
  | none => simp
  | some r => cases hw : r.writable <;> cases ha : r.admits d <;> simp [hw, ha]

/-! ### What a write stores (R181, R19) -/

/-- The lane `d` as the register `r` holds it after `SYS.CSRW` (R181): a mode register its code, `EVMASK` the bits that
exist, every other register a real. -/
def csrWritten : Csr → Word → CsrValue
  | .oscMode _, d => .word d
  | .evmask, d => .word (d &&& eventBits)
  | _, d => .real (F32.ofBits d)

/-- `SYS.CSRW` of an engine register (R181) writes the engine registers and nothing else. -/
theorem exec_csrw_of_cfgWrite {r : Csr} {d : Word} {s : State} {g : EngCfg} (h : cfgWrite r d s.cfg = some g) :
    exec (.sysCsrw r d) s = .next { s with cfg := g, rsp := some ⟨0, 0⟩ } := by
  have hr : r ≠ .evmask := by rintro rfl; cases h
  show Host.Outcome.next (csrWrite r d s) = _
  rw [csrWrite, if_neg hr, h]
  rfl

/-- `SYS.CSRW` of a mode register (R19) with a code that it admits. -/
theorem exec_csrw_oscMode {k : OscId} {d : Word} {s : State} {g : EngCfg} (hadm : (Csr.oscMode k).admits d = true)
    (hset : s.cfg.setMode k d.toNat = some g) :
    exec (.sysCsrw (.oscMode k) d) s = .next { s with cfg := g, rsp := some ⟨0, 0⟩ } :=
  exec_csrw_of_cfgWrite ((if_pos hadm).trans hset)

/-- `M[3]` takes every routing mode (R19). -/
theorem exec_csrw_mode3 {d : Word} {m : RouteMode} (h : d.toNat = m.code) (s : State) :
    exec (.sysCsrw (.oscMode .osc3) d) s = .next { s with cfg := { s.cfg with m3 := m }, rsp := some ⟨0, 0⟩ } :=
  exec_csrw_oscMode (by rw [Csr.admits, h]; cases m <;> rfl)
    (congrArg (Option.map _) (RouteMode.ofCode_eq_some.mpr h))

/-- `M[2]` takes the routing modes that do not reach osc3 (R18, R19). -/
theorem exec_csrw_mode2 {d : Word} {m : RouteMode} (hm : m ∈ [RouteMode.off, .add, .fm1, .pm1, .am1])
    (h : d.toNat = m.code) (s : State) :
    exec (.sysCsrw (.oscMode .osc2) d) s = .next { s with cfg := { s.cfg with m2 := m }, rsp := some ⟨0, 0⟩ } := by
  have hcodes : ∀ m ∈ [RouteMode.off, .add, .fm1, .pm1, .am1], [0, 1, 2, 4, 6].contains m.code = true := by decide
  exact exec_csrw_oscMode (by rw [Csr.admits, h]; exact hcodes m hm)
    (congrArg (Option.map _) (RouteMode.ofCode_eq_some.mpr h))

/-- `M[1]` takes both modes of osc1 (R19). -/
theorem exec_csrw_mode1 {d : Word} {m : Osc1Mode} (h : d.toNat = m.code) (s : State) :
    exec (.sysCsrw (.oscMode .osc1) d) s = .next { s with cfg := { s.cfg with m1 := m }, rsp := some ⟨0, 0⟩ } :=
  exec_csrw_oscMode (by rw [Csr.admits, h]; cases m <;> rfl)
    (congrArg (Option.map _) (Osc1Mode.ofCode_eq_some.mpr h))

/-! ### Reads after writes (R223) -/

/-- The code of a mode register is the number written to it. -/
theorem modeCode_setMode {g g' : EngCfg} {k : OscId} {n : ℕ} (h : g.setMode k n = some g') : g'.modeCode k = n := by
  cases k <;> obtain ⟨m, hm, rfl⟩ := Option.map_eq_some_iff.mp h
  case osc1 => exact (Osc1Mode.ofCode_eq_some.mp hm).symm
  all_goals exact (RouteMode.ofCode_eq_some.mp hm).symm

/-- An engine register holds what a write has stored in it. -/
theorem csrRead_of_cfgWrite {r : Csr} {d : Word} {s : State} {g : EngCfg} (h : cfgWrite r d s.cfg = some g) :
    csrRead r (respondNone { s with cfg := g }) = csrWritten r d := by
  cases r with
  | oscMode k =>
    simp only [cfgWrite] at h
    split_ifs at h
    rw [csrRead, respondNone_cfg, modeCode_setMode h]
    exact congrArg CsrValue.word (BitVec.ofNat_toNat 32 d)
  | oscF k => cases k <;> cases h <;> rfl
  | _ => cases h <;> rfl

/-- A register holds what a legal `SYS.CSRW` has stored (R181, R223). -/
theorem csrRead_csrWrite {r : Csr} {d : Word} (hw : r.writable = true) (ha : r.admits d = true) (s : State) :
    csrRead r (csrWrite r d s) = csrWritten r d := by
  rcases csrWrite_cases r d s with ⟨g, hg, hwrite⟩ | ⟨rfl, hwrite⟩ | ⟨hillegal, -⟩
  · rw [hwrite]
    exact csrRead_of_cfgWrite hg
  · rw [hwrite]
    rfl
  · simp [hw, ha] at hillegal

/-- Every writable register but the modes and `EVMASK` holds a real (R25). -/
theorem csrWritten_eq_real {r : Csr} (hmask : r ≠ .evmask) (hmode : ∀ k, r ≠ .oscMode k) (d : Word) :
    csrWritten r d = .real (F32.ofBits d) := by
  cases r with
  | evmask => exact absurd rfl hmask
  | oscMode k => exact absurd rfl (hmode k)
  | _ => rfl

/-! ### Clearing events (R182) -/

/-- A bit stays exactly where the mask has 0. -/
theorem getLsbD_and_not (a m : Word) (n : ℕ) : (a &&& ~~~m).getLsbD n = (a.getLsbD n && !m.getLsbD n) := by
  rw [BitVec.getLsbD_and, BitVec.getLsbD_not]
  by_cases hn : n < 32
  · simp [hn]
  · simp [BitVec.getLsbD_of_ge a n (by omega)]

end Sys2Proof.Machine
end

