-- ==== Sys2Proof/Proofs/SystemFamily.lean ====
section
/-! Proofs/SystemFamily.lean: the obligations of spec/45_system.md. -/

namespace Sys2Proof.Machine

/-- Settles O45: the lane shows the content of the register, and the status words and mode codes are packed as R25 lists
them. -/
theorem csrrResult : Obligations.CsrrResult := by
  intro r s
  obtain ⟨r0, n, hexec, hshown⟩ := exec_csrr r s
  refine ⟨r0, n, hexec, ?_⟩
  cases r with
  | envStat =>
    obtain rfl : r0 = envStatWord s.env := hshown
    exact envStatWord_toNat s.env
  | oscStat k =>
    obtain rfl : r0 = oscStatWord (s.osc k) := hshown
    exact oscStatWord_toNat (s.osc k)
  | oscMode k =>
    obtain rfl : r0 = codeWord (s.cfg.modeCode k) := hshown
    have hcode := codeWord_modeCode_toNat s.cfg k
    cases k <;> exact hcode
  | oscF k => cases k <;> exact hshown
  | _ => exact hshown

/-- Settles O46: the rows marked RW have their registers' numbers; the registers are written one by one. -/
theorem csrwResult : Obligations.CsrwResult := by
  refine ⟨fun p hp d d1 d2 d3 hlegal => ?_, fun d s => ?_⟩
  · obtain ⟨hnum, hw⟩ : p.1 = p.2.num ∧ p.2.writable = true := by
      clear hlegal
      revert p
      decide
    rw [hnum] at hlegal ⊢
    exact (decode_csrwWord_eq_ok p.2.num_lt).mpr ⟨p.2, rfl, hw, (p.2.admits_iff d).mpr hlegal, rfl⟩
  · exact ⟨exec_csrw_of_cfgWrite rfl, exec_csrw_of_cfgWrite rfl, exec_csrw_of_cfgWrite rfl, exec_csrw_of_cfgWrite rfl,
      exec_csrw_of_cfgWrite rfl, exec_csrw_of_cfgWrite rfl, exec_csrw_of_cfgWrite rfl, exec_csrw_of_cfgWrite rfl,
      exec_csrw_of_cfgWrite rfl, exec_csrw_of_cfgWrite rfl, exec_csrw_of_cfgWrite rfl, exec_csrw_of_cfgWrite rfl,
      fun _ hm => exec_csrw_mode3 hm s, fun _ hlegal hm => exec_csrw_mode2 hlegal hm s,
      fun _ hm => exec_csrw_mode1 hm s, rfl⟩

/-- Settles O47: such a word decodes to no command, so that the step is that of O6. -/
theorem illegalCsrwChangesNoRegister : Obligations.IllegalCsrwChangesNoRegister := by
  intro s idx d0 d1 d2 d3 rest hidx hrst hacc hillegal
  refine illegalCommandOnlySetsIll s _ rest hrst hacc fun i hdec => hillegal ?_
  obtain ⟨r, hnum, hw, ha, -⟩ := (decode_csrwWord_eq_ok hidx).mp hdec
  exact Csr.exists_num_writable.mp ⟨r, hnum, hw, ha⟩

/-- Settles O48: the read shows what the write has stored; `LATENCY` and the port are the register `BUFOFS` itself. -/
theorem csrrReadsWhatCsrwWrote : Obligations.CsrrReadsWhatCsrwWrote := by
  intro r d s t hw ha hexec
  obtain rfl : csrWrite r d s = t := Host.Outcome.next.inj hexec
  have hread := csrRead_csrWrite hw ha s
  obtain ⟨r0, n, hcsrr, hshown⟩ := exec_csrr r (csrWrite r d s)
  rw [hread] at hshown
  refine ⟨_, r0, hcsrr, rfl, ?_, ?_, fun hmask hmode => ?_, ?_⟩
  · rintro rfl
    exact hshown
  · rintro ⟨k, rfl⟩
    exact hshown
  · rwa [csrWritten_eq_real hmask hmode] at hshown
  · rintro rfl
    obtain ⟨r0', n', hlatency, hshown'⟩ := exec_csrr .latency (csrWrite .bufofs d s)
    have hbufofs : (csrWrite .bufofs d s).cfg.bufofs = F32.ofBits d := CsrValue.real.inj hread
    exact ⟨hbufofs ▸ bits_carries _ _, _, r0', hlatency, rfl, hbufofs ▸ hshown'⟩

/-- Settles O50: the event flags that stay are those where the mask has 0. -/
theorem evclrResult : Obligations.EvclrResult :=
  ⟨fun _ _ _ _ => Reads.decode ⟨rfl, rfl, rfl⟩, fun d0 s => ⟨_, rfl, getLsbD_and_not s.evstat d0, rfl⟩⟩

end Sys2Proof.Machine
end

