-- ==== Sys2Proof/Proofs/FlagRules.lean ====
section
/-! Proofs/FlagRules.lean: the system registers of spec/10_state.md R21 under a command: which events a command sets
(spec/60_exceptions.md R193 to R195), which fault it raises (R190, R191), and that the two event registers reach nothing
else (R193). -/

namespace Sys2Proof.Machine

/-! ### One bit of a word -/

/-- A word with one bit set has no other. -/
theorem eq_of_getLsbD_oneBit {m n : ℕ} (h : (oneBit m).getLsbD n = true) : n = m := by
  simp only [oneBit, BitVec.getLsbD_shiftLeft, BitVec.getLsbD_one, Bool.and_eq_true, Bool.not_eq_true',
    decide_eq_true_eq, decide_eq_false_iff_not] at h
  omega

/-- A bit that is set stays set when others are. -/
theorem getLsbD_or_of_left {a : Word} (b : Word) {n : ℕ} (h : a.getLsbD n = true) : (a ||| b).getLsbD n = true := by
  rw [BitVec.getLsbD_or, h, Bool.true_or]

/-- Two words share a bit exactly when their conjunction is not zero. -/
theorem and_ne_zero_iff (a b : Word) : (a &&& b != 0) = true ↔ ∃ n, a.getLsbD n = true ∧ b.getLsbD n = true := by
  rw [bne_iff_ne, ne_eq, show (0 : Word) = 0#32 from rfl, BitVec.zero_iff_eq_false]
  simp

/-! ### Events set one after the other (R193) -/

/-- `EVSTAT` holds `w` after some of the events that `p` admits have been set, in any number, from `ev` on (R193). -/
inductive EventsSet (p : Event → Prop) (ev : Word) : Word → Prop
  | none : EventsSet p ev ev
  | set {w : Word} {e : Event} (h : EventsSet p ev w) (he : p e) : EventsSet p ev (w ||| oneBit e.bit)

/-- No flag is lost. -/
theorem EventsSet.sticky {p : Event → Prop} {ev w : Word} (h : EventsSet p ev w) {n : ℕ}
    (hn : ev.getLsbD n = true) : w.getLsbD n = true := by
  induction h with
  | none => exact hn
  | set _ _ ih => exact getLsbD_or_of_left _ ih

/-- A flag that is set was set before, or is that of an admitted event. -/
theorem EventsSet.source {p : Event → Prop} {ev w : Word} (h : EventsSet p ev w) {n : ℕ} (hn : w.getLsbD n = true) :
    ev.getLsbD n = true ∨ ∃ e, p e ∧ n = e.bit := by
  induction h with
  | none => exact .inl hn
  | set _ he ih =>
    rw [BitVec.getLsbD_or, Bool.or_eq_true] at hn
    rcases hn with hold | hnew
    · exact ih hold
    · exact .inr ⟨_, he, eq_of_getLsbD_oneBit hnew⟩

/-- An event that is set only if `b`. -/
theorem EventsSet.setIf {p : Event → Prop} {ev w : Word} (h : EventsSet p ev w) {e : Event} (he : p e) (b : Bool) :
    EventsSet p ev (w ||| Reference.eventIf b (oneBit e.bit)) := by
  cases b with
  | false => simpa using h
  | true => exact h.set he

/-- The events that `env_run` (R105) admits, after any others. -/
theorem EventsSet.envRun {p : Event → Prop} {ev w : Word} (h : EventsSet p ev w) (hphase : p .envPhase)
    (hstop : p .envStop) (dt : F32) (e : Env) : EventsSet p ev (w ||| (Reference.envRun dt e).2) := by
  rcases refEnvRun_events dt e with hnone | hmoved | hended
  · simpa [hnone] using h
  · rw [hmoved]
    exact h.set hphase
  · rw [hended]
    exact h.set hstop

/-! ### The set points (R194, R195) -/

/-- The command `i` is listed for the event (R194, R195). -/
def ListedFor (i : Instr) : Event → Prop
  | .envStart => i = .envStart
  | .envPhase =>
    (∃ d0, i = .envRun d0) ∨ (∃ d0 d1, i = .engSample d0 d1) ∨ i = .envRelease ∨
      (∃ d0 d1 d2 d3, i = .envSetall d0 d1 d2 d3) ∨ ∃ id d0, i = .envSetp id d0
  | .envStop =>
    i = .envStop ∨ (∃ d0, i = .envRun d0) ∨ (∃ d0 d1, i = .engSample d0 d1) ∨ i = .envRelease ∨
      (∃ d0 d1 d2 d3, i = .envSetall d0 d1 d2 d3) ∨ ∃ id d0, i = .envSetp id d0
  | .oscStart k => i = .oscStart k
  | .oscRestart k => (∃ d0, i = .oscRun k d0) ∨ ∃ d0 d1, i = .engSample d0 d1
  | .oscStop k => i = .oscStop k

@[simp] theorem envRun_evstat (dt : F32) (s : State) :
    (envRun dt s).evstat = s.evstat ||| (Reference.envRun dt s.env).2 := by
  rw [envRun_eq, orEvents_evstat, setEnv_evstat]

@[simp] theorem oscRun_evstat (k : OscId) (dt : F32) (s : State) :
    (oscRun k dt s).evstat =
      s.evstat ||| Reference.eventIf (Reference.oscRun dt (s.osc k)).2 (oneBit (Event.oscRestart k).bit) := by
  rw [oscRun_eq, orEvents_evstat, setOsc_evstat]
  rfl

@[simp] theorem fadStep_evstat (j : FadId) (s : State) : (fadStep j s).evstat = s.evstat := setFad_evstat _ _ _

@[simp] theorem fadToward_evstat (j : FadId) (v : F32) (s : State) : (fadToward j v s).evstat = s.evstat := by
  rw [fadToward_eq, setFad_evstat]

/-- The events of `ENG.SAMPLE` (R194, R195): the restarts of the router, then those of `env_run`. -/
theorem engModulate_events {p : Event → Prop} (s : State) (hphase : p .envPhase) (hstop : p .envStop)
    (hrestart : ∀ k, p (.oscRestart k)) : EventsSet p s.evstat (engModulate s).evstat := by
  obtain ⟨b3, b2, b1, hrouter⟩ := router_events s.cfg s.osc3 s.osc2 s.osc1
  have hroute : EventsSet p s.evstat (s.evstat ||| (Reference.router s.cfg s.osc3 s.osc2 s.osc1).events) := by
    rw [hrouter, ← BitVec.or_assoc, ← BitVec.or_assoc]
    exact ((EventsSet.none.setIf (hrestart .osc3) b3).setIf (hrestart .osc2) b2).setIf (hrestart .osc1) b1
  rw [engModulate_eq, engShape_eq]
  exact hroute.envRun hphase hstop _ _

/-- What a command can do to `EVSTAT`: `SYS.EVCLR` clears flags (R182), every other command sets events that it is listed
for (R194, R195). -/
theorem exec_evstat {i : Instr} {s t : State} (h : exec i s = .next t) :
    (∃ d0, i = .sysEvclr d0 ∧ t.evstat = s.evstat &&& ~~~d0) ∨ EventsSet (ListedFor i) s.evstat t.evstat := by
  cases i <;> cases h
  case sysEvclr d0 => exact .inl ⟨d0, rfl, rfl⟩
  all_goals right
  case envSetall | envSetp | envRun =>
    rw [respondNone_evstat, envRun_evstat]
    exact EventsSet.none.envRun (by simp [ListedFor]) (by simp [ListedFor]) _ _
  case envRelease =>
    rw [respondNone_evstat]
    split_ifs
    · exact .none
    · rw [envRun_evstat]
      exact EventsSet.none.envRun (by simp [ListedFor]) (by simp [ListedFor]) _ _
  case envStart => exact .set .none rfl
  case envStop => exact .set .none (.inl rfl)
  case oscStart k => rw [respondNone_evstat, setEv_evstat, setOsc_evstat]; exact .set .none rfl
  case oscStop k => rw [respondNone_evstat, setEv_evstat, setOsc_evstat]; exact .set .none rfl
  case oscRun k d0 =>
    rw [respondNone_evstat, oscRun_evstat]
    exact EventsSet.none.setIf (.inl ⟨d0, rfl⟩) _
  case engSample d0 d1 =>
    rw [engSampleWith_evstat]
    exact engModulate_events s (by simp [ListedFor]) (by simp [ListedFor]) fun k => .inr ⟨d0, d1, rfl⟩
  all_goals simpa using EventsSet.none

/-! ### Faults (R190, R191) -/

@[simp] theorem envRun_fault (dt : F32) (s : State) : (envRun dt s).fault = s.fault := by
  rw [envRun_eq, orEvents_fault, setEnv_fault]

@[simp] theorem oscRun_fault (k : OscId) (dt : F32) (s : State) : (oscRun k dt s).fault = s.fault := by
  rw [oscRun_eq, orEvents_fault, setOsc_fault]

@[simp] theorem fadStep_fault (j : FadId) (s : State) : (fadStep j s).fault = s.fault := setFad_fault _ _ _

@[simp] theorem fadToward_fault (j : FadId) (v : F32) (s : State) : (fadToward j v s).fault = s.fault := by
  rw [fadToward_eq, setFad_fault]

/-- What a command can do to `FAULT`: nothing, or raise one fault, `IDX` by `ENG.SAMPLE` (R168) or `ILL` by a
`SYS.CSRW` that is not of the set (R70, R181). -/
theorem exec_fault {i : Instr} {s t : State} (h : exec i s = .next t) :
    t.fault = s.fault ∨
      ∃ b : FaultFlag, t.fault = s.fault ||| oneBit b.bit ∧
        ((b = .idx ∧ ∃ d0 d1, i = .engSample d0 d1) ∨ (b = .ill ∧ i.wellFormed = false)) := by
  cases i <;> cases h
  case engSample d0 d1 =>
    rcases engSampleWith_fault_cases d0 d1 s with ⟨-, -, hkeep⟩ | ⟨-, hidx⟩
    · exact .inl hkeep
    · exact .inr ⟨.idx, hidx, .inl ⟨rfl, d0, d1, rfl⟩⟩
  case sysCsrw r d =>
    rcases csrWrite_cases r d s with ⟨g, -, hwrite⟩ | ⟨-, hwrite⟩ | ⟨hillegal, hwrite⟩ <;> rw [hwrite]
    · exact .inl rfl
    · exact .inl rfl
    · exact .inr ⟨.ill, rfl, .inr ⟨rfl, hillegal⟩⟩
  case envRelease =>
    left
    rw [respondNone_fault]
    split_ifs <;> simp
  all_goals exact .inl (by simp)

/-! ### No operation reads the event registers (R193) -/

/-- The state with `EVSTAT` and `EVMASK` replaced. -/
def State.withEvents (s : State) (ev mask : Word) : State := { s with evstat := ev, evmask := mask }

@[simp] theorem withEvents_env (s : State) (a b : Word) : (s.withEvents a b).env = s.env := rfl
@[simp] theorem withEvents_cfg (s : State) (a b : Word) : (s.withEvents a b).cfg = s.cfg := rfl
@[simp] theorem withEvents_fault (s : State) (a b : Word) : (s.withEvents a b).fault = s.fault := rfl
@[simp] theorem withEvents_osc (s : State) (a b : Word) (k : OscId) : (s.withEvents a b).osc k = s.osc k := by
  cases k <;> rfl
@[simp] theorem withEvents_fad (s : State) (a b : Word) (j : FadId) : (s.withEvents a b).fad j = s.fad j := by
  cases j <;> rfl
@[simp] theorem withEvents_baseFreq (s : State) (a b : Word) (k : OscId) :
    (s.withEvents a b).baseFreq k = s.baseFreq k := by
  cases k <;> rfl

/-- An update that does not read the event registers: from states that differ only there it gives states that differ only
there (R193). -/
def EventBlind (f : State → State) : Prop :=
  ∀ (s : State) (a b : Word), ∃ a' b', f (s.withEvents a b) = (f s).withEvents a' b'

namespace EventBlind

/-- One update after another. -/
theorem comp {f g : State → State} (hf : EventBlind f) (hg : EventBlind g) : EventBlind fun s => f (g s) := by
  intro s a b
  obtain ⟨a', b', hstep⟩ := hg s a b
  obtain ⟨a'', b'', hnext⟩ := hf (g s) a' b'
  exact ⟨a'', b'', (congrArg f hstep).trans hnext⟩

theorem setEnv (g : Env → Env) : EventBlind fun s => s.setEnv (g s.env) := fun _ a b => ⟨a, b, rfl⟩

theorem setOsc (k : OscId) (g : Osc → Osc) : EventBlind fun s => s.setOsc k (g (s.osc k)) :=
  fun _ a b => ⟨a, b, by cases k <;> rfl⟩

theorem setFad (j : FadId) (g : Fader → Fader) : EventBlind fun s => s.setFad j (g (s.fad j)) :=
  fun _ a b => ⟨a, b, by cases j <;> rfl⟩

theorem setEv (e : Event) : EventBlind (setEv e) := fun _ a b => ⟨a ||| oneBit e.bit, b, rfl⟩

theorem clearEv (m : Word) : EventBlind (clearEv m) := fun _ a b => ⟨a &&& ~~~m, b, rfl⟩

theorem respondNone : EventBlind respondNone := fun _ a b => ⟨a, b, rfl⟩

/-- A response that carries a word which does not come from the event registers. -/
theorem respondWord {w : State → Word} (hw : ∀ s a b, w (s.withEvents a b) = w s) :
    EventBlind fun s => respondWord (w s) s :=
  fun s a b => ⟨a, b, congrArg (Machine.respondWord · (s.withEvents a b)) (hw s a b)⟩

/-- A response that carries a real which does not come from the event registers. -/
theorem respondReal {v : State → F32} (hv : ∀ s a b, v (s.withEvents a b) = v s) :
    EventBlind fun s => respondReal (v s) s :=
  fun s a b => ⟨a, b, congrArg (Machine.respondReal · (s.withEvents a b)) (hv s a b)⟩

/-- `env_run` (R105). -/
theorem envRun (dt : F32) : EventBlind (envRun dt) := fun s a b =>
  ⟨a ||| (Reference.envRun dt s.env).2, b, by rw [envRun_eq, envRun_eq]; rfl⟩

/-- `osc_run` (R128). -/
theorem oscRun (k : OscId) (dt : F32) : EventBlind (oscRun k dt) := fun s a b =>
  ⟨a ||| Reference.eventIf (Reference.oscRun dt (s.osc k)).2 (oneBit (3 * k.code + 1)), b, by
    rw [oscRun_eq, oscRun_eq, withEvents_osc]
    cases k <;> rfl⟩

/-- `fad_proceed` (R141). -/
theorem fadStep (j : FadId) : EventBlind (fadStep j) := setFad j Fader.proceeded

/-- `ENV.RELEASE` (R107), which looks at the envelope. -/
theorem release : EventBlind fun s => if !s.env.active then s else Machine.envRun .zero (s.setEnv s.env.released) := by
  intro s a b
  dsimp only
  rw [withEvents_env]
  split_ifs
  · exact ⟨a, b, rfl⟩
  · exact (envRun .zero).comp (setEnv Env.released) s a b

/-- Steps 1 to 9 of `ENG.SAMPLE` (R150). -/
theorem engModulate : EventBlind engModulate := fun s a b =>
  ⟨_, _, by rw [engModulate_eq, engModulate_eq, engShape_eq, engShape_eq]; rfl⟩

/-- Step 10 of `ENG.SAMPLE` (R166 to R169). -/
theorem engOutput (cap : ℕ) (d0 d1 : Word) : EventBlind (engOutput cap d0 d1) := fun s a b =>
  ⟨a, b, by rw [engOutput_eq, engOutput_eq]; rfl⟩

/-- `SYS.CSRW` (R181). -/
theorem csrWrite (r : Csr) (d : Word) : EventBlind (csrWrite r d) := by
  intro s a b
  simp only [Machine.csrWrite, withEvents_cfg]
  split_ifs
  · exact ⟨a, d &&& eventBits, rfl⟩
  · split <;> exact ⟨a, b, rfl⟩

/-- `SYS.CSRR` (R180) of any register but the two. -/
theorem csrr {r : Csr} (hstat : r ≠ .evstat) (hmask : r ≠ .evmask) :
    EventBlind fun s => respondCsr (csrRead r s) s := by
  have hread (s : State) (a b : Word) : csrRead r (s.withEvents a b) = csrRead r s := by
    cases r with
    | evstat => exact absurd rfl hstat
    | evmask => exact absurd rfl hmask
    | _ => simp [csrRead]
  intro s a b
  dsimp only
  rw [hread]
  cases csrRead r s <;> exact ⟨a, b, rfl⟩

/-- A command but the two reads is an update that does not read the event registers. -/
theorem of_exec {i : Instr} (hstat : i ≠ .sysCsrr .evstat) (hmask : i ≠ .sysCsrr .evmask) :
    ∃ f, EventBlind f ∧ ∀ s, exec i s = .next (f s) := by
  cases i with
  | envSetall d0 d1 d2 d3 =>
    exact ⟨_, respondNone.comp ((envRun .zero).comp (setEnv fun e =>
      { e with attack := laneReal d0, decay := laneReal d1, sustain := laneReal d2, release := laneReal d3 })),
      fun _ => rfl⟩
  | envSetp id d0 =>
    exact ⟨_, respondNone.comp ((envRun .zero).comp (setEnv fun e =>
      (e.setParam id (laneReal d0)).rescale id (laneReal d0) (envValue e))), fun _ => rfl⟩
  | envSetshape sh => exact ⟨_, respondNone.comp (setEnv fun e => { e with shape := sh }), fun _ => rfl⟩
  | envStart =>
    exact ⟨_, respondNone.comp ((setEv .envStart).comp (setEnv fun e =>
      { e with phase := .attack, t := .zero, active := true })), fun _ => rfl⟩
  | envRun d0 => exact ⟨_, respondNone.comp (envRun (laneReal d0)), fun _ => rfl⟩
  | envRelease => exact ⟨_, respondNone.comp release, fun _ => rfl⟩
  | envStop =>
    exact ⟨_, respondNone.comp ((setEv .envStop).comp (setEnv fun e => { e with active := false })), fun _ => rfl⟩
  | envGet => exact ⟨_, respondReal (v := fun s => envValue s.env) (by simp), fun _ => rfl⟩
  | oscSetf k d0 => exact ⟨_, respondNone.comp (setOsc k fun o => { o with freq := laneReal d0 }), fun _ => rfl⟩
  | oscGetf k => exact ⟨_, respondReal (v := fun s => (s.osc k).freq) (by simp), fun _ => rfl⟩
  | oscSetw k w => exact ⟨_, respondNone.comp (setOsc k (Osc.withWave · w)), fun _ => rfl⟩
  | oscSetps k d0 => exact ⟨_, respondNone.comp (setOsc k fun o => { o with shift := laneReal d0 }), fun _ => rfl⟩
  | oscGetps k => exact ⟨_, respondReal (v := fun s => (s.osc k).shift) (by simp), fun _ => rfl⟩
  | oscStart k =>
    exact ⟨_, respondNone.comp ((setEv (.oscStart k)).comp (setOsc k (Osc.restarted · true))), fun _ => rfl⟩
  | oscStop k =>
    exact ⟨_, respondNone.comp ((setEv (.oscStop k)).comp (setOsc k (Osc.restarted · false))), fun _ => rfl⟩
  | oscRun k d0 => exact ⟨_, respondNone.comp (oscRun k (laneReal d0)), fun _ => rfl⟩
  | oscGetv k => exact ⟨_, respondReal (v := fun s => oscValue (s.osc k)) (by simp), fun _ => rfl⟩
  | oscGeti k => exact ⟨_, respondReal (v := fun s => oscIntegral (s.osc k)) (by simp), fun _ => rfl⟩
  | oscIsact k => exact ⟨_, respondWord (w := fun s => flagWord (s.osc k).active) (by simp), fun _ => rfl⟩
  | fadSet j d0 =>
    exact ⟨_, respondNone.comp ((fadStep j).comp (setFad j fun f => { f with target := laneReal d0 })), fun _ => rfl⟩
  | fadSet2 j d0 d1 =>
    exact ⟨_, respondNone.comp ((fadStep j).comp (setFad j fun f =>
      { f with target := laneReal d0, step := laneReal d1 })), fun _ => rfl⟩
  | fadProceed j => exact ⟨_, respondNone.comp (fadStep j), fun _ => rfl⟩
  | fadGet j => exact ⟨_, respondReal (v := fun s => (s.fad j).value) (by simp), fun _ => rfl⟩
  | engSample d0 d1 => exact ⟨_, (engOutput Config.cap d0 d1).comp engModulate, fun _ => rfl⟩
  | sysCsrr r => exact ⟨_, csrr (hstat <| congrArg _ ·) (hmask <| congrArg _ ·), fun _ => rfl⟩
  | sysCsrw r d0 => exact ⟨_, csrWrite r d0, fun _ => rfl⟩
  | sysEvclr d0 => exact ⟨_, respondNone.comp (clearEv d0), fun _ => rfl⟩

end EventBlind

/-! ### The step without a command (R206) -/

/-- The step with `rst` low and no command waiting. -/
theorem step_of_idle {s : State} (hrst : s.rst = false) (hacc : s.accepted = []) : step s = .next (idleEdge s) := by
  simp only [step, hrst, hacc, Bool.false_eq_true, if_false]

end Sys2Proof.Machine
end

