-- ==== Sys2Proof/Proofs/ExceptionsFamily.lean ====
section
/-! Proofs/ExceptionsFamily.lean: the obligations of spec/60_exceptions.md. -/

namespace Sys2Proof.Machine

/-- Settles O44: every command but the two reads is a chain of updates of which none reads the event registers. -/
theorem eventsAreNeverRead : Obligations.EventsAreNeverRead := by
  intro i s t a b hstat hmask hexec
  obtain ⟨f, hblind, hf⟩ := EventBlind.of_exec hstat hmask
  obtain rfl : f s = t := Host.Outcome.next.inj ((hf s).symm.trans hexec)
  obtain ⟨a', b', hnext⟩ := hblind s a b
  exact ⟨_, (hf (s.withEvents a b)).trans (congrArg _ hnext), rfl⟩

/-- Settles O51: `FAULT` and `EVSTAT` change by setting bits, but for `SYS.EVCLR`; `ILL` needs a command outside the
set. -/
theorem flagsAreSticky : Obligations.FlagsAreSticky := by
  intro i s t hexec
  refine ⟨fun n hn => ?_, fun hother n hn => ?_, fun hwf n hn => ?_⟩
  · rcases exec_fault hexec with hkeep | ⟨b, hraise, -⟩
    · rwa [hkeep]
    · rw [hraise]
      exact getLsbD_or_of_left _ hn
  · rcases exec_evstat hexec with ⟨d0, hclear, -⟩ | hset
    · exact absurd hclear (hother d0)
    · exact hset.sticky hn
  · rcases exec_fault hexec with hkeep | ⟨b, hraise, ⟨rfl, hsample⟩ | ⟨-, hillegal⟩⟩
    · exact .inl (hkeep ▸ hn)
    · rw [hraise, BitVec.getLsbD_or, Bool.or_eq_true] at hn
      exact hn.imp_right fun hidx => ⟨eq_of_getLsbD_oneBit hidx, hsample⟩
    · simp [hwf] at hillegal

/-- Settles O52: a flag that a command sets is that of an event which the command is listed for. -/
theorem eventSetPoints : Obligations.EventSetPoints := by
  intro i s t n hexec hn
  rcases exec_evstat hexec with ⟨d0, -, hclear⟩ | hset
  · rw [hclear, getLsbD_and_not, Bool.and_eq_true] at hn
    exact .inl hn.1
  · refine (hset.source hn).imp_right ?_
    rintro ⟨e, hlisted, rfl⟩
    cases e with
    | envStart => exact .inl ⟨rfl, hlisted⟩
    | envPhase => exact .inr (.inl ⟨rfl, hlisted⟩)
    | envStop => exact .inr (.inr (.inl ⟨rfl, hlisted⟩))
    | oscStart k => exact .inr (.inr (.inr ⟨k, .inl ⟨rfl, hlisted⟩⟩))
    | oscRestart k => exact .inr (.inr (.inr ⟨k, .inr (.inl ⟨rfl, hlisted⟩)⟩))
    | oscStop k => exact .inr (.inr (.inr ⟨k, .inr (.inr ⟨rfl, hlisted⟩)⟩))

/-- Settles O7: with `rst` low and an empty queue the step is the idle edge. -/
theorem idleHoldsTheState : Obligations.IdleHoldsTheState := fun _ => step_of_idle

/-- Settles O53: `irq` asks whether the two registers share a bit, and `latency` is the pattern of `BUFOFS`. -/
theorem irqAndLatencyOutputs : Obligations.IrqAndLatencyOutputs := fun s =>
  ⟨and_ne_zero_iff s.evstat s.evmask, bits_carries s.draws s.cfg.bufofs⟩

end Sys2Proof.Machine
end

