-- ==== Sys2Proof/Proofs/HazardRules.lean ====
section
/-! Proofs/HazardRules.lean: NaN through the arithmetic of spec/40_numerics.md R82, R83, and the items of the state that it
does not leave again (spec/70_reset_and_hazards.md R219, R225): what `env_run`, `osc_run` and `fad_proceed` do to an item
that is NaN, and how the zero attack of R219 makes one. -/

namespace Sys2Proof

/-! ### NaN through the arithmetic (R82, R83) -/

@[simp] theorem F32.nan_add (a : F32) : F32.nan.add a = .nan := rfl

@[simp] theorem F32.add_nan (a : F32) : a.add .nan = .nan := by cases a <;> rfl

@[simp] theorem F32.nan_sub (a : F32) : F32.nan.sub a = .nan := rfl

@[simp] theorem F32.sub_nan (a : F32) : a.sub .nan = .nan := F32.add_nan a

@[simp] theorem F32.nan_mul (a : F32) : F32.nan.mul a = .nan := rfl

@[simp] theorem F32.mul_nan (a : F32) : a.mul .nan = .nan := by cases a <;> rfl

@[simp] theorem F32.abs_nan : F32.nan.abs = .nan := rfl

@[simp] theorem F32.nan_ge (a : F32) : F32.nan.ge a = false := by
  obtain ⟨-, -, -, hge, -⟩ := compare_of_not_ordered (a := .nan) (b := a) rfl
  exact hge

@[simp] theorem F32.nan_le (a : F32) : F32.nan.le a = false := rfl

/-- Every curve of R102 takes NaN to NaN. -/
theorem shape_nan (sh : Shape) : Reference.shape sh .nan = .nan := by
  cases sh with
  | linear => rfl
  | invSquare => simp [Reference.shape]
  | squareRoot => rfl
  | quarterSine => rw [Reference.shape, F32.mul_nan]; rfl

/-- What compares equal to `+0` is a zero (R83). -/
theorem F32.exists_zero_of_eq {a : F32} (h : a.eq .zero = true) : ∃ s, a = .fin s 0 0 := by
  simp only [F32.eq, ordered, Bool.and_eq_true, Bool.not_eq_true', decide_eq_true_eq] at h
  obtain ⟨⟨hnan, -⟩, hunits⟩ := h
  exact F32.eq_zero_of_units (F32.isFinite_of_between rfl rfl hnan hunits.ge hunits.le) hunits

/-- `+0` divided by a zero of either sign is NaN (R82). -/
theorem F32.zero_div_of_eq_zero {d : F32} (h : d.eq .zero = true) : F32.zero.div d = .nan := by
  obtain ⟨s, rfl⟩ := F32.exists_zero_of_eq h
  rfl

end Sys2Proof

namespace Sys2Proof.Machine

/-! ### The sub-operations on an item that is NaN (R225) -/

/-- `env_run` (R105) leaves an active envelope whose time is NaN: no phase ends. -/
theorem refEnvRun_of_nan_time (dt : F32) {e : Env} (hact : e.active = true) (ht : e.t = .nan) :
    Reference.envRun dt e = (e, 0) := by
  obtain ⟨act, p, t, a, d, su, r, sh⟩ := e
  subst hact ht
  cases p <;> simp [Reference.envRun]

/-- `osc_run` (R128) keeps a NaN phase: the sum and its wrap are NaN. -/
theorem refOscRun_of_nan_phase (dt : F32) {o : Osc} (h : o.phase = .nan) :
    (Reference.oscRun dt o).1.phase = .nan := by
  have hwrap : Reference.frac .nan = .nan := rfl
  unfold Reference.oscRun
  dsimp only
  split_ifs <;> simp [h, hwrap]

/-- `fad_proceed` (R141) keeps a NaN value: the difference is NaN, so it does not snap. -/
theorem proceed_of_nan_value {f : Fader} (h : f.value = .nan) : (Reference.proceed f).value = .nan := by
  simp [Reference.proceed, h]

/-! ### A command on an item that is NaN (R225) -/

/-- No command frees a fader whose value is NaN. -/
theorem exec_fad_value_nan {i : Instr} {s t : State} (h : exec i s = .next t) (j : FadId)
    (hnan : (s.fad j).value = .nan) : (t.fad j).value = .nan := by
  generalize t.fad j = f', exec_fad h j = hchange
  cases hchange with
  | keep => exact hnan
  | set | set2 | proceed | sample => exact proceed_of_nan_value hnan

/-- `ENV.RUN` and `ENG.SAMPLE` leave an active envelope whose time is NaN. -/
theorem exec_env_of_nan_time {i : Instr} {s t : State} (h : exec i s = .next t) (hact : s.env.active = true)
    (ht : s.env.t = .nan) (hi : (∃ d0, i = .envRun d0) ∨ ∃ d0 d1, i = .engSample d0 d1) : t.env = s.env := by
  generalize t.env = e', exec_env h = hchange
  cases hchange with
  | keep => rfl
  | run | sample => rw [refEnvRun_of_nan_time _ hact ht]
  | setall | setp | setshape | start | release | stop => simp at hi

/-- Only a restart of the oscillator ends a NaN phase. -/
theorem exec_osc_phase_nan {i : Instr} {s t : State} (h : exec i s = .next t) (k : OscId)
    (hnan : (s.osc k).phase = .nan) (hstart : i ≠ .oscStart k) (hstop : i ≠ .oscStop k) :
    (t.osc k).phase = .nan := by
  generalize t.osc k = o', exec_osc h k = hchange
  cases hchange with
  | keep | setf | setw | setps => exact hnan
  | start => exact absurd rfl hstart
  | stop => exact absurd rfl hstop
  | run | sample => exact refOscRun_of_nan_phase _ hnan

/-! ### How the envelope comes to NaN (R219) -/

/-- At time `+0` of a zero attack the value is that of the curve at `0 / 0` (R101). -/
theorem envValue_zero_attack {e : Env} (hact : e.active = true) (hp : e.phase = .attack) (ht : e.t = .zero)
    (hzero : e.attack.eq .zero = true) : Reference.envValue e = .nan := by
  simp [Reference.envValue, hact, hp, ht, F32.zero_div_of_eq_zero hzero, shape_nan]

/-- `ENV.RELEASE` (R107) of a NaN value: the time it computes is NaN, which its zero-time advance keeps. -/
theorem exec_envRelease_of_nan_value {s : State} (hact : s.env.active = true)
    (hval : Reference.envValue s.env = .nan) :
    ∃ u, exec .envRelease s = .next u ∧ u.env.active = true ∧ u.env.phase = .release ∧ u.env.t = .nan := by
  obtain ⟨-, hresult⟩ := envReleaseResult
  obtain ⟨-, hactive⟩ := hresult s
  have hstay := refEnvRun_of_nan_time .zero (e := { s.env with t := .nan, phase := .release }) hact rfl
  have hexec := hactive hact
  simp only [hval, F32.sub_nan, F32.nan_mul, hstay] at hexec
  exact ⟨_, hexec, hact, rfl, rfl⟩

/-- `ENV.SETP ATTACK` (R109) in ATTACK at a NaN value: the rescaled time is NaN, which its zero-time advance keeps. -/
theorem exec_envSetp_attack_of_nan_value {s : State} (d0 : Word) (hact : s.env.active = true)
    (hp : s.env.phase = .attack) (hval : Reference.envValue s.env = .nan) :
    ∃ u, exec (.envSetp .attack d0) s = .next u ∧ u.env.active = true ∧ u.env.phase = .attack ∧ u.env.t = .nan := by
  have hstay := refEnvRun_of_nan_time .zero (e := { s.env with attack := laneReal d0, t := .nan }) hact rfl
  have hexec := exec_envSetp .attack d0 s (setParam_rescale_attack _ _ _)
  rw [if_pos ⟨hact, hp⟩, hval, F32.mul_nan, hstay] at hexec
  exact ⟨_, hexec, hact, hp, rfl⟩

/-! ### The reset edge (R210) -/

/-- While `rst` is high a command presented is not accepted. -/
theorem hostPresent_of_rst {s : State} (h : s.rst = true) (c : Command) : hostPresent c s = s := by
  rw [hostPresent, if_pos h]

/-- No event is enabled after a reset edge (R196). -/
theorem resetEdge_irq (s : State) : (resetEdge s).irq = false := by
  show ((0 : Word) &&& 0 != 0) = false
  decide

/-- The step with `rst` high is the reset edge, whatever waits. -/
theorem step_of_rst {s : State} (h : s.rst = true) : step s = .next (resetEdge s) := by
  rw [step, if_pos h]

end Sys2Proof.Machine
end

