-- ==== Sys2Proof/Proofs/HazardsFamily.lean ====
section
/-! Proofs/HazardsFamily.lean: the obligations of spec/70_reset_and_hazards.md. -/

namespace Sys2Proof.Machine

/-- Settles O24: `ENV.START` leaves ATTACK at time `+0`, where a zero attack makes the value `0 / 0`; both commands carry that
NaN into the time. -/
theorem zeroAttackWindow : Obligations.ZeroAttackWindow := by
  intro s t hzero hexec
  obtain ⟨-, hstartStop⟩ := envStartStopResult
  obtain ⟨hstart, -⟩ := hstartStop s
  obtain rfl := Host.Outcome.next.inj (hstart.symm.trans hexec)
  have hval := envValue_zero_attack (e := { s.env with phase := .attack, t := .zero, active := true }) rfl rfl rfl hzero
  refine ⟨⟨_, _, rfl, rfl, ?_⟩, exec_envRelease_of_nan_value rfl hval,
    fun d0 => exec_envSetp_attack_of_nan_value d0 rfl rfl hval⟩
  rw [ofBits_bits, envValue_eq]
  exact hval

/-- Settles O35: every writer of a fader's value, of the envelope's time and, the restarts aside, of an oscillator's phase
computes a NaN from a NaN. -/
theorem nanSticks : Obligations.NanSticks := by
  intro i s t hexec
  refine ⟨exec_fad_value_nan hexec, fun hact ht hi => ?_, exec_osc_phase_nan hexec⟩
  rw [exec_env_of_nan_time hexec hact ht hi]
  exact ⟨hact, ht, rfl⟩

/-- Settles O8: the reset edge writes the state of R26 and keeps the history; with both event registers 0 there is no `irq`,
and `BUFOFS` at `+0` shows as zeros. -/
theorem resetEdge_result : Obligations.ResetEdge := by
  intro s hrst
  refine ⟨hostPresent_of_rst hrst, resetEdge s, step_of_rst hrst, rfl, fun k => ?_, fun j => ?_, rfl, rfl, rfl, rfl, rfl,
    rfl, rfl, resetEdge_irq s, bits_zero s.draws, rfl⟩
  · cases k <;> rfl
  · cases j <;> rfl

end Sys2Proof.Machine
end
